-- ==== Sys2Proof/Word.lean ====
section
/-! DEFINITION. The words of the engine: bytes, byte sequences and the names of the fixed widths the wire
format and the state use (`00_scope.md` R14, R15; `10_state.md` R25 to R34). -/

namespace Sys2Proof

/-- The unit of every buffer access (R64). -/
abbrev Byte := BitVec 8

/-- A byte sequence, indexed from 0 (R15). -/
abbrev Bytes := List Byte

/-- A node-ID, a port-ID or a data specifier as the header carries it (R81). -/
abbrev Word16 := BitVec 16

/-- A CRC-32C accumulator or value (R120). -/
abbrev Word32 := BitVec 32

/-- A timestamp, timeout, deadline or transfer-ID (D22, D26). -/
abbrev Word64 := BitVec 64

end Sys2Proof
end

