-- ==== Sys2Proof/Machine/Bytes.lean ====
section
/-! DEFINITION. Byte order and slices: the little-endian forms `LE16`, `LE32`, `LE64`, `le16`, `le32`, `le64` and
`B[a..b)` of `00_scope.md` R15 (R61: little-endian for every multi-byte field; there is no other byte order). -/

namespace Sys2Proof.Machine

/-- The `n`-byte little-endian encoding of `v`, least significant byte first (R15). -/
def leBytes : Nat → Nat → Bytes
  | 0, _ => []
  | n + 1, v => BitVec.ofNat 8 v :: leBytes n (v / 256)

/-- The number a byte sequence stands for, least significant byte first (R15). -/
def leNat : Bytes → Nat
  | [] => 0
  | b :: bs => b.toNat + 256 * leNat bs

/-- `LE16(v)` (R15). -/
def le16Bytes (v : Word16) : Bytes := leBytes 2 v.toNat
/-- `LE32(v)` (R15). -/
def le32Bytes (v : Word32) : Bytes := leBytes 4 v.toNat
/-- `LE64(v)` (R15). -/
def le64Bytes (v : Word64) : Bytes := leBytes 8 v.toNat

/-- `B[a..a+n)`, which is also `MemRead(B, a, n)` (R15, R16). -/
def slice (B : Bytes) (a n : Nat) : Bytes := (B.drop a).take n

/-- `MemWrite(buf, off, v)`: overwrites `buf[off..off+len(v))` with `v` (R16). -/
def memWrite (buf : Bytes) (off : Nat) (v : Bytes) : Bytes :=
  buf.take off ++ v ++ buf.drop (off + v.length)

/-- `le16(B[a..a+2))` (R15). -/
def le16At (B : Bytes) (a : Nat) : Word16 := BitVec.ofNat 16 (leNat (slice B a 2))
/-- `le32(B[a..a+4))` (R15). -/
def le32At (B : Bytes) (a : Nat) : Word32 := BitVec.ofNat 32 (leNat (slice B a 4))
/-- `le64(B[a..a+8))` (R15). -/
def le64At (B : Bytes) (a : Nat) : Word64 := BitVec.ofNat 64 (leNat (slice B a 8))

end Sys2Proof.Machine
end

