-- ==== Sys2Proof/Syntax.lean ====
section
/-! DEFINITION. The commands of the engine: one constructor per row of the opcode map (`30_encoding.md` R101),
with the operands of R102 in the order R102 lists them. -/

namespace Sys2Proof

/-- A command with its operands (R100 to R102). Context indices, sizes, counts and item ids are numbers; what the
spec gives a width as bits is a bit vector: `kind` 2 bits (R106), an out-of-range `priority` 8 bits (R107),
`HDR_ENCODE`'s `priority` 3 bits and frame index 31 bits (R171). -/
inductive Instr where
  /-- `INIT i` (0x01, R241). -/
  | init (i : Nat)
  /-- `CFG_NODE_ID i, node_id` (0x02, R242). -/
  | cfgNodeId (i : Nat) (nodeId : Word16)
  /-- `TX_INIT q, capacity, mtu_bytes` (0x10, R190). -/
  | txInit (q capacity mtuBytes : Nat)
  /-- `TX_PUSH q, i, deadline, priority, kind, port_id, remote_node_id, transfer_id, payload` (0x11, R191). -/
  | txPush (q i : Nat) (deadline : Word64) (priority : Byte) (kind : BitVec 2) (portId remoteNodeId : Word16)
      (transferId : Word64) (payload : Bytes)
  /-- `TX_PEEK q` (0x12, R222). -/
  | txPeek (q : Nat)
  /-- `TX_POP q, id` (0x13, R223). -/
  | txPop (q id : Nat)
  /-- `RX_SUBSCRIBE i, kind, port_id, extent, timeout` (0x20, R243). -/
  | rxSubscribe (i : Nat) (kind : BitVec 2) (portId : Word16) (extent : Nat) (timeout : Word64)
  /-- `RX_UNSUBSCRIBE i, kind, port_id` (0x21, R245). -/
  | rxUnsubscribe (i : Nat) (kind : BitVec 2) (portId : Word16)
  /-- `RX_ACCEPT i, timestamp, frame, rti` (0x22, R260). -/
  | rxAccept (i : Nat) (timestamp : Word64) (frame : Bytes) (rti : Byte)
  /-- `CRC32C_ADD acc, bytes` (0x40, R122). -/
  | crc32cAdd (acc : Word32) (bytes : Bytes)
  /-- `CRC32C_FIN acc` (0x41, R123). -/
  | crc32cFin (acc : Word32)
  /-- `CRC32C bytes` (0x42, R124). -/
  | crc32c (bytes : Bytes)
  /-- `CRC16_ADD acc, bytes` (0x48, R142). -/
  | crc16Add (acc : Word16) (bytes : Bytes)
  /-- `CRC16 bytes` (0x49, R143). -/
  | crc16 (bytes : Bytes)
  /-- `SPEC_BUILD i, priority, kind, port_id, remote_node_id, local_address` (0x50, R156). -/
  | specBuild (i : Nat) (priority : Byte) (kind : BitVec 2) (portId remoteNodeId : Word16) (localAddress : Bytes)
  /-- `HDR_ENCODE priority, source_node_id, destination_node_id, data_specifier, transfer_id, frame_index, eot`
  (0x58, R171). -/
  | hdrEncode (priority : BitVec 3) (source destination dataSpecifier : Word16) (transferId : Word64)
      (frameIndex : BitVec 31) (eot : Bool)
  /-- `HDR_DECODE frame` (0x59, R175). -/
  | hdrDecode (frame : Bytes)
  deriving DecidableEq, Repr

end Sys2Proof
end

