-- ==== Sys2Proof/Config.lean ====
section
/-! DEFINITION. What an implementation of the engine fixes: the constants the spec states (R10, R11), the open
parameters it leaves to the implementer (R13, U9) and the model's free values. An open parameter or a free value
is an opaque constant: nothing can evaluate it, so what is proved holds whatever it is. -/

namespace Sys2Proof

/-- The three transfer kinds (R26, R38). Their operand numbers are in R106 (`Machine.kindOf`). -/
inductive TransferKind where
  | message
  | response
  | request
  deriving DecidableEq, Repr

/-- Which of the two routes of a specifier is asked for (R156). -/
inductive RouteEnd where
  | source
  | destination
  deriving DecidableEq, Repr

namespace Config

/-! ### Constants of the document (R10) -/

/-- `HEADER_SIZE` (R10). -/
abbrev headerSize : Nat := 24
/-- `CRC_SIZE` (R10). -/
abbrev crcSize : Nat := 4
/-- `SUBJECT_ID_MAX` (R10). -/
abbrev subjectIdMax : Nat := 32767
/-- `SERVICE_ID_MAX` (R10). -/
abbrev serviceIdMax : Nat := 16383
/-- `SESSION_SLOTS`, named node-IDs being 0 to 65534 (R10, R27). -/
abbrev sessionSlots : Nat := 65535
/-- The largest frame index, 31 bits (R87, R193). -/
abbrev frameIndexMax : Nat := 2 ^ 31 - 1
/-- `CRC32C_SEED` (R10). -/
abbrev crc32cSeed : Word32 := 0xFFFFFFFF#32
/-- `CRC32C_XOROUT` (R10). -/
abbrev crc32cXorOut : Word32 := 0xFFFFFFFF#32
/-- `CRC16_SEED` (R10). -/
abbrev crc16Seed : Word16 := 0xFFFF#16

/-! ### Constants the spec supplies (R11, D13 to D16, D20 to D22) -/

/-- `HEADER_VERSION` (R82, D13). -/
abbrev headerVersion : Byte := 1#8
/-- `NODE_ID_UNSET` (R84, D14). -/
abbrev nodeIdUnset : Word16 := 0xFFFF#16
/-- The reversed Castagnoli polynomial (R120, D20). -/
abbrev crc32cPoly : Word32 := 0x82F63B78#32
/-- `CRC32C_RESIDUE`, before the output XOR (R126, D20). -/
abbrev crc32cResidue : Word32 := 0xB798B438#32
/-- The CRC-16/CCITT-FALSE polynomial (R140, D21). -/
abbrev crc16Poly : Word16 := 0x1021#16

/-! ### Open parameters (R13, U9), entry 6: safe, nothing is assumed of them -/

/-- How many instance contexts there are beyond the first. -/
opaque extraInstances : Nat
/-- How many TX queue contexts there are beyond the first. -/
opaque extraTxQueues : Nat
/-- `NUM_INSTANCES >= 1` (D5). -/
def numInstances : Nat := extraInstances + 1
/-- `NUM_TXQ >= 1` (D5). -/
def numTxQueues : Nat := extraTxQueues + 1
/-- `SIZE_W`, the width of sizes and counts (R13, D26; 64 is the spec's default). -/
opaque sizeW : Nat
/-- `VERIFY_HEADER_CRC` (R178, D19). -/
opaque verifyHeaderCrc : Bool
/-- `MAX_SUBSCRIPTIONS`, `none` for unbounded (R251, D52). -/
opaque maxSubscriptions : Option Nat
/-- `TX_ITEM_OVERHEAD` (R199, D31). -/
opaque txItemOverhead : Nat
/-- `RX_SESSION_SIZE` (R264, D40). -/
opaque rxSessionSize : Nat
/-- `UDP_PORT`, an uninterpreted constant (R160, D35), entry 10. -/
opaque udpPort : Word16
/-- `route_of(end, kind, port_id, local, remote_node_id, local_address)`, an uninterpreted total function (R160,
D35), entry 10. A route and an address are byte strings of no stated format. -/
opaque routeOf : RouteEnd → TransferKind → Word16 → Word16 → Word16 → Bytes → Bytes

/-! ### Free values -/

/-- The answer to the `n`-th allocation request where the caller's answers on the port have run out (R66: "chosen
by the caller; the engine assumes nothing about it"), entry 3: safe, any answers are allowed. -/
opaque allocatorAnswer : Nat → Bool

/-- What `HDR_ENCODE` returns for frame index 0, which is "outside the operand range of this unit operation"
(R171): priority, source, destination, data specifier, transfer-ID, eot. Entry 8: safe, any bytes are allowed. -/
opaque headerOfIndexZero : BitVec 3 → Word16 → Word16 → Word16 → Word64 → Bool → Bytes

/-- What is left of a stream count that no longer fits `SIZE_W` bits, as a function of the width, the extent, the count
before and the bytes counted: the spec states no result there (`91_not_in_source.md`: overflow behaviour of sizes).
Entry 7: safe, any value within the limits of R29, R30 and U9 is allowed (`Machine.addCount`). -/
opaque countBeyondWidth : Nat → Nat → Nat → Nat → Nat

/-- The value of an operand whose field in a command record holds more than the operand's bits, as a function of the
operand's width and the number in the field: the spec gives the operand no such value. Entry 13: safe, any value of the
width is allowed. -/
opaque operandBeyondWidth : Nat → Nat → Nat

end Config
end Sys2Proof
end

