-- ==== Sys2Proof/WellFormed.lean ====
section
/-! DEFINITION. Which command terms are commands: a size fits the `SIZE_W` bits the spec gives it (R13, R27, R33, R102
and, for the payload's length, `opcode_table.json`), and an operand lies in the range the spec gives it. The width is an
open parameter, so it is an argument here. The other operands have their width in their type or none in the spec. -/

namespace Sys2Proof

/-- The number fits `width` bits; 0 fits every width, whatever the width is. -/
def fitsSize (width : Nat) : Nat → Bool
  | 0 => true
  | n + 1 => decide (n + 1 < 2 ^ width)

/-- Every operand of `SIZE_W` bits fits that width. -/
def Instr.fits (width : Nat) : Instr → Bool
  | .init _ => true
  | .cfgNodeId _ _ => true
  | .txInit _ capacity mtuBytes => fitsSize width capacity && fitsSize width mtuBytes
  | .txPush _ _ _ _ _ _ _ _ _ => true
  | .txPeek _ => true
  | .txPop _ _ => true
  | .rxSubscribe _ _ _ extent _ => fitsSize width extent
  | .rxUnsubscribe _ _ _ => true
  | .rxAccept _ _ _ _ => true
  | .crc32cAdd _ _ => true
  | .crc32cFin _ => true
  | .crc32c _ => true
  | .crc16Add _ _ => true
  | .crc16 _ => true
  | .specBuild _ _ _ _ _ _ => true
  | .hdrEncode _ _ _ _ _ _ _ => true
  | .hdrDecode _ => true

/-- The operand values lie in the ranges the spec gives: a payload's length has `SIZE_W` bits (`opcode_table.json`), and
`HDR_ENCODE`'s frame index has a range below its width (R171: "`frame_index >= 1`"); every other out-of-range value is
answered by a status. -/
def Instr.inRange (width : Nat) : Instr → Bool
  | .txPush _ _ _ _ _ _ _ _ payload => fitsSize width payload.length
  | .hdrEncode _ _ _ _ _ frameIndex _ => decide (frameIndex ≠ 0#31)
  | _ => true

/-- A well-formed command of an engine with this `SIZE_W`. -/
def Instr.wellFormed (width : Nat) (i : Instr) : Bool := i.fits width && i.inRange width

end Sys2Proof
end

