-- ==== Sys2Proof/Decode.lean ====
section
/-! DEFINITION. The command port's decoder and encoder. The spec fixes the 8-bit opcode (`30_encoding.md` R100,
R101) and the operands with their order and widths (R102, R106, R107, R171), not the bits of the operand record.
The record's bytes are the model's (entry 1, DESIGN CHOICE): the opcode byte, then the operands in the order of R102. An
operand of a fixed width is little-endian in the least number of bytes that holds it, its spare bits zero; where one is
set the operand is a free value (entry 13). A number the spec gives no fixed width (an index, an item id, a length) or the
open width `SIZE_W` is in base 128, least significant digit first, every byte but the last with bit 7 set and standing for
one more of the next, so that every number has one form and the layout serves every `SIZE_W`. A byte sequence is preceded
by its length. -/

namespace Sys2Proof

open Sys2Proof.Machine (leBytes leNat)

/-- Why bytes are no command. -/
inductive DecodeError where
  /-- No opcode byte, or the record ends before its operands do (entry 13). -/
  | truncated
  /-- An opcode outside the opcode map (R101, R103). -/
  | reservedOpcode (opcode : Byte)
  deriving DecidableEq, Repr

/-! A reader answers a value and the bytes after it, or why there is none. -/

/-- Reads an `n`-byte little-endian number. -/
def readNat (n : Nat) (bs : Bytes) : Except DecodeError (Nat × Bytes) :=
  if bs.length < n then .error .truncated else .ok (leNat (bs.take n), bs.drop n)

/-- The `w`-bit operand whose field holds the number `v`; a free value where `v` has more than `w` bits (entry 13). -/
def operandOf (w v : Nat) : BitVec w :=
  if v < 2 ^ w then BitVec.ofNat w v else BitVec.ofNat w (Config.operandBeyondWidth w v)

/-- Reads a `w`-bit operand carried in `n` bytes. -/
def readBits (w n : Nat) (bs : Bytes) : Except DecodeError (BitVec w × Bytes) :=
  match readNat n bs with
  | .error e => .error e
  | .ok (v, rest) => .ok (operandOf w v, rest)

/-- Reads a one-bit operand carried in a byte. -/
def readFlag (bs : Bytes) : Except DecodeError (Bool × Bytes) :=
  match readBits 1 1 bs with
  | .error e => .error e
  | .ok (b, rest) => .ok (decide (b = 1#1), rest)

/-- Reads a base-128 number: each byte with bit 7 set stands for one more of the next digit. -/
def readNum : Bytes → Except DecodeError (Nat × Bytes)
  | [] => .error .truncated
  | b :: r =>
    if b.toNat < 128 then .ok (b.toNat, r)
    else
      match readNum r with
      | .error e => .error e
      | .ok (v, rest) => .ok (b.toNat - 128 + 128 * (v + 1), rest)

/-- Reads a byte sequence preceded by its length. -/
def readSeq (bs : Bytes) : Except DecodeError (Bytes × Bytes) :=
  match readNum bs with
  | .error e => .error e
  | .ok (len, rest) => if rest.length < len then .error .truncated else .ok (rest.take len, rest.drop len)

/-- The operand record of the command with this opcode (R101, R102). -/
def decodeOperands (opcode : Byte) (r : Bytes) : Except DecodeError (Instr × Bytes) :=
  match opcode.toNat with
  | 0x01 => do
    let (i, r) ← readNum r
    return (.init i, r)
  | 0x02 => do
    let (i, r) ← readNum r
    let (nodeId, r) ← readBits 16 2 r
    return (.cfgNodeId i nodeId, r)
  | 0x10 => do
    let (q, r) ← readNum r
    let (capacity, r) ← readNum r
    let (mtuBytes, r) ← readNum r
    return (.txInit q capacity mtuBytes, r)
  | 0x11 => do
    let (q, r) ← readNum r
    let (i, r) ← readNum r
    let (deadline, r) ← readBits 64 8 r
    let (priority, r) ← readBits 8 1 r
    let (kind, r) ← readBits 2 1 r
    let (portId, r) ← readBits 16 2 r
    let (remoteNodeId, r) ← readBits 16 2 r
    let (transferId, r) ← readBits 64 8 r
    let (payload, r) ← readSeq r
    return (.txPush q i deadline priority kind portId remoteNodeId transferId payload, r)
  | 0x12 => do
    let (q, r) ← readNum r
    return (.txPeek q, r)
  | 0x13 => do
    let (q, r) ← readNum r
    let (id, r) ← readNum r
    return (.txPop q id, r)
  | 0x20 => do
    let (i, r) ← readNum r
    let (kind, r) ← readBits 2 1 r
    let (portId, r) ← readBits 16 2 r
    let (extent, r) ← readNum r
    let (timeout, r) ← readBits 64 8 r
    return (.rxSubscribe i kind portId extent timeout, r)
  | 0x21 => do
    let (i, r) ← readNum r
    let (kind, r) ← readBits 2 1 r
    let (portId, r) ← readBits 16 2 r
    return (.rxUnsubscribe i kind portId, r)
  | 0x22 => do
    let (i, r) ← readNum r
    let (timestamp, r) ← readBits 64 8 r
    let (frame, r) ← readSeq r
    let (rti, r) ← readBits 8 1 r
    return (.rxAccept i timestamp frame rti, r)
  | 0x40 => do
    let (acc, r) ← readBits 32 4 r
    let (bytes, r) ← readSeq r
    return (.crc32cAdd acc bytes, r)
  | 0x41 => do
    let (acc, r) ← readBits 32 4 r
    return (.crc32cFin acc, r)
  | 0x42 => do
    let (bytes, r) ← readSeq r
    return (.crc32c bytes, r)
  | 0x48 => do
    let (acc, r) ← readBits 16 2 r
    let (bytes, r) ← readSeq r
    return (.crc16Add acc bytes, r)
  | 0x49 => do
    let (bytes, r) ← readSeq r
    return (.crc16 bytes, r)
  | 0x50 => do
    let (i, r) ← readNum r
    let (priority, r) ← readBits 8 1 r
    let (kind, r) ← readBits 2 1 r
    let (portId, r) ← readBits 16 2 r
    let (remoteNodeId, r) ← readBits 16 2 r
    let (localAddress, r) ← readSeq r
    return (.specBuild i priority kind portId remoteNodeId localAddress, r)
  | 0x58 => do
    let (priority, r) ← readBits 3 1 r
    let (source, r) ← readBits 16 2 r
    let (destination, r) ← readBits 16 2 r
    let (dataSpecifier, r) ← readBits 16 2 r
    let (transferId, r) ← readBits 64 8 r
    let (frameIndex, r) ← readBits 31 4 r
    let (eot, r) ← readFlag r
    return (.hdrEncode priority source destination dataSpecifier transferId frameIndex eot, r)
  | 0x59 => do
    let (frame, r) ← readSeq r
    return (.hdrDecode frame, r)
  | _ => .error (.reservedOpcode opcode)

/-- Decodes the command at the head of a byte string: the command and the bytes after it, or by name why there is
none (R100 to R103). -/
def decode : Bytes → Except DecodeError (Instr × Bytes)
  | [] => .error .truncated
  | opcode :: r => decodeOperands opcode r

/-! ### The encoder -/

/-- The opcode of a command (R101). -/
def Instr.opcode : Instr → Byte
  | .init _ => 0x01#8
  | .cfgNodeId _ _ => 0x02#8
  | .txInit _ _ _ => 0x10#8
  | .txPush _ _ _ _ _ _ _ _ _ => 0x11#8
  | .txPeek _ => 0x12#8
  | .txPop _ _ => 0x13#8
  | .rxSubscribe _ _ _ _ _ => 0x20#8
  | .rxUnsubscribe _ _ _ => 0x21#8
  | .rxAccept _ _ _ _ => 0x22#8
  | .crc32cAdd _ _ => 0x40#8
  | .crc32cFin _ => 0x41#8
  | .crc32c _ => 0x42#8
  | .crc16Add _ _ => 0x48#8
  | .crc16 _ => 0x49#8
  | .specBuild _ _ _ _ _ _ => 0x50#8
  | .hdrEncode _ _ _ _ _ _ _ => 0x58#8
  | .hdrDecode _ => 0x59#8

/-- The base-128 digits of a number, at most `fuel + 1` of them. -/
def putDigits : Nat → Nat → Bytes
  | 0, n => [BitVec.ofNat 8 n]
  | fuel + 1, n => if n < 128 then [BitVec.ofNat 8 n] else BitVec.ofNat 8 (n % 128 + 128) :: putDigits fuel (n / 128 - 1)

/-- An index, a size, an item id or a length on the port: a number has fewer digits than its value. -/
def putNum (n : Nat) : Bytes := putDigits n n

/-- A `w`-bit operand in `n` bytes. -/
def putBits {w : Nat} (n : Nat) (v : BitVec w) : Bytes := leBytes n v.toNat

/-- A byte sequence preceded by its length. -/
def putSeq (bs : Bytes) : Bytes := putNum bs.length ++ bs

/-- One field of an operand record. -/
inductive Field where
  /-- A number in base 128. -/
  | num (n : Nat)
  /-- A `w`-bit operand in `n` bytes. -/
  | bits (w n : Nat) (v : BitVec w)
  /-- A byte sequence, preceded by its length. -/
  | seq (bs : Bytes)
  deriving DecidableEq, Repr

/-- The bytes of a field. -/
def Field.bytes : Field → Bytes
  | .num n => putNum n
  | .bits _ n v => putBits n v
  | .seq bs => putSeq bs

/-- Which bits of a field's bytes are spare: those above the operand's width. -/
def Field.spare : Field → Bytes
  | .num n => List.replicate (putNum n).length 0#8
  | .bits w n _ => leBytes n ((2 ^ (8 * n - w) - 1) <<< w)
  | .seq bs => List.replicate (putSeq bs).length 0#8

/-- The fields of a command's operand record, in the order of R102. -/
def Instr.fields : Instr → List Field
  | .init i => [.num i]
  | .cfgNodeId i nodeId => [.num i, .bits 16 2 nodeId]
  | .txInit q capacity mtuBytes => [.num q, .num capacity, .num mtuBytes]
  | .txPush q i deadline priority kind portId remoteNodeId transferId payload =>
    [.num q, .num i, .bits 64 8 deadline, .bits 8 1 priority, .bits 2 1 kind, .bits 16 2 portId, .bits 16 2 remoteNodeId,
      .bits 64 8 transferId, .seq payload]
  | .txPeek q => [.num q]
  | .txPop q id => [.num q, .num id]
  | .rxSubscribe i kind portId extent timeout =>
    [.num i, .bits 2 1 kind, .bits 16 2 portId, .num extent, .bits 64 8 timeout]
  | .rxUnsubscribe i kind portId => [.num i, .bits 2 1 kind, .bits 16 2 portId]
  | .rxAccept i timestamp frame rti => [.num i, .bits 64 8 timestamp, .seq frame, .bits 8 1 rti]
  | .crc32cAdd acc bytes => [.bits 32 4 acc, .seq bytes]
  | .crc32cFin acc => [.bits 32 4 acc]
  | .crc32c bytes => [.seq bytes]
  | .crc16Add acc bytes => [.bits 16 2 acc, .seq bytes]
  | .crc16 bytes => [.seq bytes]
  | .specBuild i priority kind portId remoteNodeId localAddress =>
    [.num i, .bits 8 1 priority, .bits 2 1 kind, .bits 16 2 portId, .bits 16 2 remoteNodeId, .seq localAddress]
  | .hdrEncode priority source destination dataSpecifier transferId frameIndex eot =>
    [.bits 3 1 priority, .bits 16 2 source, .bits 16 2 destination, .bits 16 2 dataSpecifier, .bits 64 8 transferId,
      .bits 31 4 frameIndex, .bits 1 1 (BitVec.ofBool eot)]
  | .hdrDecode frame => [.seq frame]

/-- The operand record of a command. -/
def Instr.operands (i : Instr) : Bytes := i.fields.flatMap Field.bytes

/-- The spare bits of a command's record, the opcode's byte among its bytes: a mask of the record's length. -/
def Instr.spareBits (i : Instr) : Bytes := 0#8 :: i.fields.flatMap Field.spare

/-- A record has none of these bits set. -/
def clearOf (mask record : Bytes) : Bool := (List.zipWith (fun m b => m &&& b) mask record).all (fun b => decide (b = 0#8))

/-- The command record of a command (R100). -/
def encode (i : Instr) : Bytes := i.opcode :: i.operands

/-! ### The opcode table's words -/

/-- The bytes of an instruction whose table bits are `w` and whose operand bits beyond `nbits` are all zero, long
enough for the longest operand record of zeros (`TX_PUSH`, 25 bytes after its opcode). -/
def tableBytes (nbits w : Nat) : Bytes := leBytes (nbits / 8) w ++ List.replicate 32 0#8

/-- The command the decoder reads from a table word (`opcode_table.json`). -/
def decodeTableWord (nbits w : Nat) : Option Instr :=
  match decode (tableBytes nbits w) with
  | .ok (i, _) => some i
  | .error _ => none

end Sys2Proof
end

