-- ==== Sys2Proof/Machine/State.lean ====
section
/-! DEFINITION. The architectural state (`10_state.md`), the model's port fields, the responses, the reasons a step
can stop, and the state after reset (`70_reset_and_hazards.md` R340 to R343). Plain data throughout. -/

namespace Sys2Proof.Machine

open Sys2Proof

/-- The name of an allocator object (R66, R69), entry 4. -/
abbrev ObjId := Nat

/-- A finite map from numbers, kept with strictly rising keys. -/
abbrev Map (α : Type) := List (Nat × α)

/-! ### Receive side -/

/-- A payload buffer: the object it is, its capacity and the bytes written so far (R29, R270). Bytes never written
have no value here (U10, entry 11). -/
structure Buffer where
  obj : ObjId
  capacity : Nat
  data : Bytes
  deriving DecidableEq, Repr

/-- A session record (R29). `obj` is the allocator object it is (R264, entry 4). -/
structure Session where
  transferTimestamp : Word64
  totalPayloadSize : Nat
  payloadSize : Nat
  payload : Option Buffer
  crc : Word32
  transferId : Word64
  redundantTransportIndex : Byte
  lastFrameIndex : BitVec 31
  obj : ObjId
  deriving DecidableEq, Repr

/-- A subscription record (R27); `sessions` is the table of 65535 slots, an unlisted slot being empty. -/
structure Subscription where
  portId : Word16
  extent : Nat
  transferIdTimeout : Word64
  sessions : Map Session
  deriving DecidableEq, Repr

/-- The registry: one map from port-ID to subscription per transfer kind (R26). -/
structure Registry where
  message : Map Subscription
  response : Map Subscription
  request : Map Subscription
  deriving DecidableEq, Repr

/-- An instance context (R24). -/
structure Instance where
  valid : Bool
  nodeId : Word16
  subs : Registry
  deriving DecidableEq, Repr

/-! ### Transmit side -/

/-- The specifier builder's result (R155, R156). -/
structure Specifier where
  sourceRoute : Bytes
  destinationRoute : Bytes
  udpPort : Word16
  dataSpecifier : Word16
  deriving DecidableEq, Repr

/-- A queue item (R34). `obj` is the allocator object it is (R37, entry 4). -/
structure TxItem where
  id : Nat
  priority : BitVec 3
  transferId : Word64
  frame : Bytes
  deadline : Word64
  nextInTransfer : Option Nat
  specifier : Specifier
  obj : ObjId
  deriving DecidableEq, Repr

/-- A TX queue context (R33). -/
structure TxQueue where
  valid : Bool
  capacity : Nat
  mtuBytes : Nat
  size : Nat
  nextSeq : Nat
  items : List TxItem
  deriving DecidableEq, Repr

/-! ### Allocator port -/

/-- One transaction on the allocator port (R66, R68, R362). -/
inductive AllocEvent where
  /-- `Alloc(size)`, granted with the new object, or denied. -/
  | alloc (size : Nat) (granted : Option ObjId)
  /-- `Free(obj)`. -/
  | free (obj : ObjId)
  /-- The frees of one teardown, a set: the objects in rising order, whatever order a machine frees them in (R70,
  D53, entry 12). -/
  | freeSet (objs : List ObjId)
  deriving DecidableEq, Repr

/-- The allocator port and the ownership ledger (R66 to R69). `answers` are the caller's next answers,
`requests` how many requests were made, `nextObj` the name of the next object: the model's own (entries 3, 4). -/
structure AllocPort where
  answers : List Bool
  requests : Nat
  nextObj : ObjId
  ledger : List ObjId
  log : List AllocEvent
  deriving DecidableEq, Repr

/-! ### Responses -/

/-- The status codes (R104); their numbers are in `Status.code`. -/
inductive Status where
  | ok
  | created
  | replaced
  | removed
  | notFound
  | transferComplete
  | noMatch
  | rejected
  | empty
  | outOfOrder
  | outOfMemory
  | argumentInvalid
  deriving DecidableEq, Repr

/-- The three error statuses a command can raise (R310, R311). -/
inductive ErrorKind where
  | argumentInvalid
  | outOfMemory
  | outOfOrder
  deriving DecidableEq, Repr

/-- A subscription handle (R250). -/
structure Handle where
  kind : TransferKind
  portId : Word16
  deriving DecidableEq, Repr

/-- Transfer metadata (R38). -/
structure Metadata where
  priority : BitVec 3
  transferKind : TransferKind
  portId : Word16
  remoteNodeId : Word16
  transferId : Word64
  deriving DecidableEq, Repr

/-- A reassembled transfer (R39): the delivered payload is the first `payloadSize` bytes of the buffer. -/
structure Transfer where
  metadata : Metadata
  timestamp : Word64
  payload : Option Buffer
  payloadSize : Nat
  deriving DecidableEq, Repr

/-- A decoded frame header (R175). -/
structure Header where
  version : Byte
  priority : Byte
  sourceNodeId : Word16
  destinationNodeId : Word16
  dataSpecifier : Word16
  transferId : Word64
  frameIndex : BitVec 31
  eot : Bool
  headerCrc : Word16
  sot : Bool
  kind : TransferKind
  portId : Word16
  deriving DecidableEq, Repr

/-- The results of a response (R102, R104). -/
inductive Results where
  /-- No results are defined. -/
  | none
  /-- `TX_PUSH`: `frames_enqueued`. -/
  | framesEnqueued (n : Nat)
  /-- `TX_PEEK`: id, frame, deadline, next_in_transfer, specifier (R222). -/
  | peeked (id : Nat) (frame : Bytes) (deadline : Word64) (nextInTransfer : Option Nat) (specifier : Specifier)
  /-- `TX_POP`: the item, all fields (R223). -/
  | item (m : TxItem)
  /-- A subscription handle. -/
  | handle (h : Handle)
  /-- `RX_ACCEPT`: a reassembled transfer and the subscription handle. -/
  | transfer (t : Transfer) (h : Handle)
  /-- A 32-bit accumulator or CRC value. -/
  | word32 (v : Word32)
  /-- A 16-bit accumulator or CRC value. -/
  | word16 (v : Word16)
  /-- `SPEC_BUILD`: the routes, the UDP port and the data specifier. -/
  | specifier (sp : Specifier)
  /-- `HDR_ENCODE`: the header bytes. -/
  | header (bytes : Bytes)
  /-- `HDR_DECODE`: the decoded header and the chunk. -/
  | decoded (h : Header) (chunk : Bytes)
  deriving DecidableEq, Repr

/-- A response (R104). -/
structure Response where
  status : Status
  results : Results
  deriving DecidableEq, Repr

/-! ### The whole state -/

/-- The implementation's open parameters that a rule reads (R13, U9). No command writes them; they stand in State
because Exec has no argument for "parameters of a model's step relation" (R40), entry 6. -/
structure Params where
  verifyHeaderCrc : Bool
  maxSubscriptions : Option Nat
  txItemOverhead : Nat
  rxSessionSize : Nat
  sizeW : Nat
  deriving DecidableEq, Repr

/-- The machine: the two context files (R20), the allocator port with the ledger (R69), and the model's own port
fields. The length of `ins` is `NUM_INSTANCES`, that of `txq` is `NUM_TXQ` (D5, entry 6). -/
structure State where
  ins : List Instance
  txq : List TxQueue
  allocPort : AllocPort
  /-- The command records the caller has yet to issue, next first (R9, R100), entry 2. -/
  commandPort : List Bytes
  /-- What the response port shows: the last command's response (R9, R104), entry 18. -/
  response : Option Response
  /-- The caller's network address that `TX_PUSH`'s specifier builder receives (R40, R191), entry 10. -/
  localAddress : Bytes
  params : Params
  deriving DecidableEq, Repr

/-- Why the machine stops with a fault: only bytes on the command port that end before a command record of the model's
own layout does (entry 13). No command faults (R310, R317). -/
inductive Fault where
  /-- Raised by `step`: the record on the command port has no opcode byte or ends before its operands do. Safe: the
  spec describes no such command. -/
  | truncatedCommand
  deriving DecidableEq, Repr

/-- Why the model gives no meaning. -/
inductive Refusal where
  /-- Raised by `exec` for an instruction that has no meaning yet. Safe: nothing is proved of it. No arm raises
  it. -/
  | notModelled (mnemonic : String)
  deriving DecidableEq, Repr

/-- What a meaning answers. -/
abbrev Out := Host.Outcome State Fault Refusal

/-- An instance context right after reset: `valid = 0`; the other fields are unspecified (R341) and the values
here are the model's, entry 5 (DESIGN CHOICE, unsafe). -/
def Instance.reset : Instance :=
  { valid := false, nodeId := 0#16, subs := { message := [], response := [], request := [] } }

/-- A TX queue context right after reset: `valid = 0`; the other fields as for `Instance.reset`, entry 5. -/
def TxQueue.reset : TxQueue :=
  { valid := false, capacity := 0, mtuBytes := 0, size := 0, nextSeq := 0, items := [] }

/-- The open parameters as the implementation fixes them, entry 6. -/
def Params.ofConfig : Params :=
  { verifyHeaderCrc := Config.verifyHeaderCrc, maxSubscriptions := Config.maxSubscriptions,
    txItemOverhead := Config.txItemOverhead, rxSessionSize := Config.rxSessionSize, sizeW := Config.sizeW }

/-- The machine right after reset: every `valid` bit 0 (R341), the ledger empty (R342), nothing else (R343). -/
def State.reset : State :=
  { ins := List.replicate Config.numInstances Instance.reset
    txq := List.replicate Config.numTxQueues TxQueue.reset
    allocPort := { answers := [], requests := 0, nextObj := 0, ledger := [], log := [] }
    commandPort := []
    response := none
    localAddress := []
    params := Params.ofConfig }

end Sys2Proof.Machine
end

