-- ==== Sys2Proof/Machine/Ops.lean ====
section
/-! DEFINITION. The shared operations: finite maps, the context files, the allocator port and its ledger, and the
two ways a command ends, with a response or with a raised error status. -/

namespace Sys2Proof.Machine

open Sys2Proof

/-! ### Finite maps -/

/-- The value at key `k`. -/
def Map.find {α : Type} (k : Nat) : Map α → Option α
  | [] => none
  | (k', v) :: m => if k = k' then some v else Map.find k m

/-- Sets key `k` to `v`; in a map with rising keys the new entry takes its place in the order. -/
def Map.insert {α : Type} (k : Nat) (v : α) : Map α → Map α
  | [] => [(k, v)]
  | (k', v') :: m =>
    if k = k' then (k, v) :: m
    else if k < k' then (k, v) :: (k', v') :: m
    else (k', v') :: Map.insert k v m

/-- Removes key `k`. -/
def Map.erase {α : Type} (k : Nat) (m : Map α) : Map α := m.filter (fun e => decide (e.1 ≠ k))

/-- The canonical form of a finite map: strictly rising keys. -/
def Map.wf {α : Type} (m : Map α) : Bool := decide (m.Pairwise (fun a b => a.1 < b.1))

/-! ### The allocator port (R66 to R69) -/

/-- The caller's answer to the next request: the next one on the port, or, where the port has none yet, any answer
(entry 3). -/
def AllocPort.nextAnswer (a : AllocPort) : Bool :=
  match a.answers with
  | granted :: _ => granted
  | [] => Config.allocatorAnswer a.requests

/-- `Alloc(n)` (R66): a granted request creates an object owned by the engine, a denied one creates nothing. -/
def AllocPort.alloc (n : Nat) (a : AllocPort) : Option ObjId × AllocPort :=
  if a.nextAnswer then
    (some a.nextObj,
      { answers := a.answers.tail, requests := a.requests + 1, nextObj := a.nextObj + 1,
        ledger := a.ledger ++ [a.nextObj], log := a.log ++ [.alloc n (some a.nextObj)] })
  else
    (none,
      { answers := a.answers.tail, requests := a.requests + 1, nextObj := a.nextObj,
        ledger := a.ledger, log := a.log ++ [.alloc n none] })

/-- The objects leave the ledger with no transaction: handed to the caller (R69: `TX_POP`, a delivered buffer) or
dropped by `INIT` or `TX_INIT` (R352). -/
def AllocPort.release (objs : List ObjId) (a : AllocPort) : AllocPort :=
  { a with ledger := a.ledger.filter (fun o => decide (o ∉ objs)) }

/-- `Free(obj)` (R68): always succeeds, has no answer. -/
def AllocPort.free (obj : ObjId) (a : AllocPort) : AllocPort :=
  { a.release [obj] with log := a.log ++ [.free obj] }

/-- `Free` of each of the objects, in this order. -/
def AllocPort.freeEach (objs : List ObjId) (a : AllocPort) : AllocPort :=
  objs.foldl (fun a obj => a.free obj) a

/-- Inserts an object name into a rising list. -/
def insertObj (o : ObjId) : List ObjId → List ObjId
  | [] => [o]
  | o' :: os => if o ≤ o' then o :: o' :: os else o' :: insertObj o os

/-- The objects in rising order: the canonical form of a set of frees (entry 12). -/
def sortObjs : List ObjId → List ObjId
  | [] => []
  | o :: os => insertObj o (sortObjs os)

/-- The frees of one teardown, as a set (R70, R244, D53); no objects, no transaction. -/
def AllocPort.freeSet (objs : List ObjId) (a : AllocPort) : AllocPort :=
  if objs = [] then a
  else { a.release objs with log := a.log ++ [.freeSet (sortObjs objs)] }

/-! ### What the contexts own (R69) -/

/-- The objects of a session: itself and its payload buffer where present. -/
def Session.objects (s : Session) : List ObjId :=
  match s.payload with
  | some b => [s.obj, b.obj]
  | none => [s.obj]

/-- The objects of a subscription: those of its sessions; the record itself is the caller's storage (R28). -/
def Subscription.objects (sub : Subscription) : List ObjId := sub.sessions.flatMap (fun e => e.2.objects)

/-- The objects of a registry. -/
def Registry.objects (r : Registry) : List ObjId :=
  r.message.flatMap (fun e => e.2.objects) ++ r.response.flatMap (fun e => e.2.objects)
    ++ r.request.flatMap (fun e => e.2.objects)

/-- The objects an instance context holds; an invalid one holds none (R341, R342). -/
def Instance.objects (I : Instance) : List ObjId := if I.valid then I.subs.objects else []

/-- The objects a queue context holds; an invalid one holds none. -/
def TxQueue.objects (Q : TxQueue) : List ObjId := if Q.valid then Q.items.map (fun m => m.obj) else []

/-- Every object the contexts hold: what the ledger equals between commands (R69). -/
def State.objects (s : State) : List ObjId :=
  s.ins.flatMap (fun I => I.objects) ++ s.txq.flatMap (fun Q => Q.objects)

/-! ### The context files (R20) -/

/-- The instance context a command names: `none` where the index is out of range (R103) or the context invalid
(R344), which is `ArgumentInvalid` for every command but `INIT`. -/
def State.validIns (s : State) (i : Nat) : Option Instance :=
  match s.ins[i]? with
  | some I => if I.valid then some I else none
  | none => none

/-- The queue context a command names: as `State.validIns`, for every command but `TX_INIT`. -/
def State.validTxq (s : State) (q : Nat) : Option TxQueue :=
  match s.txq[q]? with
  | some Q => if Q.valid then some Q else none
  | none => none

/-- Writes `INS[i]`. -/
def State.setIns (s : State) (i : Nat) (I : Instance) : State := { s with ins := s.ins.set i I }

/-- Writes `TXQ[q]`. -/
def State.setTxq (s : State) (q : Nat) (Q : TxQueue) : State := { s with txq := s.txq.set q Q }

/-- Writes the allocator port. -/
def State.setAlloc (s : State) (a : AllocPort) : State := { s with allocPort := a }

/-- `INS[i].subs[kind]` (R26). -/
def Registry.get (r : Registry) : TransferKind → Map Subscription
  | .message => r.message
  | .response => r.response
  | .request => r.request

/-- Writes `INS[i].subs[kind]`. -/
def Registry.put (r : Registry) (kind : TransferKind) (m : Map Subscription) : Registry :=
  match kind with
  | .message => { r with message := m }
  | .response => { r with response := m }
  | .request => { r with request := m }

/-- Writes `INS[i].subs`. -/
def Instance.setSubs (I : Instance) (r : Registry) : Instance := { I with subs := r }

/-! ### How a command ends -/

/-- The 4-bit status code (R104). -/
def Status.code : Status → BitVec 4
  | .ok => 0x0#4
  | .created => 0x1#4
  | .replaced => 0x2#4
  | .removed => 0x3#4
  | .notFound => 0x4#4
  | .transferComplete => 0x5#4
  | .noMatch => 0x6#4
  | .rejected => 0x7#4
  | .empty => 0x8#4
  | .outOfOrder => 0xD#4
  | .outOfMemory => 0xE#4
  | .argumentInvalid => 0xF#4

/-- `return <Status>(values)` (R16): the command ends with its response on the response port. -/
def State.respond (s : State) (status : Status) (results : Results) : State :=
  { s with response := some { status := status, results := results } }

/-- The status an error kind is delivered as (R310). -/
def ErrorKind.status : ErrorKind → Status
  | .argumentInvalid => .argumentInvalid
  | .outOfMemory => .outOfMemory
  | .outOfOrder => .outOfOrder

/-- `raise <Error>` (R16, R310): an exceptional outcome is delivered by value. The command ends, its response carries
the error status, nothing is saved, nothing is vectored, and the next command is whatever the caller issues next;
there is no return from it. `results` is the subscription handle where `RX_ACCEPT` found one (R104, R263). -/
def State.raise (s : State) (e : ErrorKind) (results : Results := .none) : State :=
  s.respond e.status results

end Sys2Proof.Machine
end

