-- ==== Sys2Proof/Machine/CommandPort.lean ====
section
/-! DEFINITION. The command port (R9, R100, R103): taking the next command record, and what the engine answers to
bytes that decode to no command. -/

namespace Sys2Proof.Machine

open Sys2Proof

/-- The command record at the head of the command port, and the machine once it is taken (R9, R71): commands are
taken in the order of issue. -/
def State.takeCommand (s : State) : Option (Bytes × State) :=
  match s.commandPort with
  | [] => none
  | record :: later => some (record, { s with commandPort := later })

/-- A reserved opcode returns `ArgumentInvalid`, performs no allocator transaction and changes no state (R103); bytes
that are no record of the model's own layout stop the model (entry 13). -/
def answerUndecoded (e : DecodeError) (s : State) : Out :=
  match e with
  | .reservedOpcode _ => .next (s.raise .argumentInvalid)
  | .truncated => .fault .truncatedCommand

/-- The operand of `SIZE_W` bits whose field holds the number `n`; a free value of that width where `n` has more bits
(entry 13). -/
def sizeOperand (width n : Nat) : Nat :=
  if fitsSize width n then n else Config.operandBeyondWidth width n % 2 ^ width

/-- The command as an engine with this `SIZE_W` receives it (R13): an operand of `SIZE_W` bits has that many bits. A
payload is the bytes it is, however many. -/
def received (width : Nat) : Instr → Instr
  | .txInit q capacity mtuBytes => .txInit q (sizeOperand width capacity) (sizeOperand width mtuBytes)
  | .rxSubscribe i kind portId extent timeout => .rxSubscribe i kind portId (sizeOperand width extent) timeout
  | .init i => .init i
  | .cfgNodeId i nodeId => .cfgNodeId i nodeId
  | .txPush q i deadline priority kind portId remoteNodeId transferId payload =>
    .txPush q i deadline priority kind portId remoteNodeId transferId payload
  | .txPeek q => .txPeek q
  | .txPop q id => .txPop q id
  | .rxUnsubscribe i kind portId => .rxUnsubscribe i kind portId
  | .rxAccept i timestamp frame rti => .rxAccept i timestamp frame rti
  | .crc32cAdd acc bytes => .crc32cAdd acc bytes
  | .crc32cFin acc => .crc32cFin acc
  | .crc32c bytes => .crc32c bytes
  | .crc16Add acc bytes => .crc16Add acc bytes
  | .crc16 bytes => .crc16 bytes
  | .specBuild i priority kind portId remoteNodeId localAddress =>
    .specBuild i priority kind portId remoteNodeId localAddress
  | .hdrEncode priority source destination dataSpecifier transferId frameIndex eot =>
    .hdrEncode priority source destination dataSpecifier transferId frameIndex eot
  | .hdrDecode frame => .hdrDecode frame

/-- The machine with a command record placed at the head of the command port. -/
def State.issue (s : State) (record : Bytes) : State := { s with commandPort := record :: s.commandPort }

end Sys2Proof.Machine
end

