-- ==== Sys2Proof/Machine/Crc.lean ====
section
/-! DEFINITION. The CRC-32C engine (`40_crc32c.md`), the CRC-16/CCITT-FALSE engine (`41_crc16.md`) and their five
unit commands. Both engines are pure functions; no state survives a command (R343). -/

namespace Sys2Proof.Machine

open Sys2Proof

/-- `f` applied `n` times. -/
def iterate {α : Type} (f : α → α) : Nat → α → α
  | 0, x => x
  | n + 1, x => iterate f n (f x)

/-! ### CRC-32C -/

/-- One step of the reflected reduction: shift right, and exclusive-or the polynomial where bit 0 was set
(R121). -/
def crc32cShift (c : Word32) : Word32 :=
  if c.getLsbD 0 then (c >>> 1) ^^^ Config.crc32cPoly else c >>> 1

/-- `T32[i]` (R121). -/
def crc32cTable (i : Byte) : Word32 := iterate crc32cShift 8 (i.setWidth 32)

/-- One byte through the accumulator, by the table (R122). -/
def crc32cByte (c : Word32) (b : Byte) : Word32 := (c >>> 8) ^^^ crc32cTable ((c ^^^ b.setWidth 32).setWidth 8)

/-- `CRC32C_ADD acc, bytes` (R122). -/
def crc32cAdd (acc : Word32) (bytes : Bytes) : Word32 := bytes.foldl crc32cByte acc

/-- `CRC32C_FIN acc` (R123). -/
def crc32cFin (acc : Word32) : Word32 := acc ^^^ Config.crc32cXorOut

/-- `CRC32C bytes` (R124). -/
def crc32c (bytes : Bytes) : Word32 := crc32cFin (crc32cAdd Config.crc32cSeed bytes)

/-! ### CRC-16/CCITT-FALSE -/

/-- One step of the unreflected reduction (R141). -/
def crc16Shift (c : Word16) : Word16 :=
  if c.getLsbD 15 then (c <<< 1) ^^^ Config.crc16Poly else c <<< 1

/-- `T16[i]` (R141). -/
def crc16Table (i : Byte) : Word16 := iterate crc16Shift 8 (i.setWidth 16 <<< 8)

/-- One byte through the accumulator, by the table (R142). -/
def crc16Byte (c : Word16) (b : Byte) : Word16 :=
  (c <<< 8) ^^^ crc16Table (((c >>> 8) ^^^ b.setWidth 16).setWidth 8)

/-- `CRC16_ADD acc, bytes` (R142). -/
def crc16Add (acc : Word16) (bytes : Bytes) : Word16 := bytes.foldl crc16Byte acc

/-- `CRC16 bytes` (R143): no output exclusive-or. -/
def crc16 (bytes : Bytes) : Word16 := crc16Add Config.crc16Seed bytes

/-! ### The unit commands: always `OK`, no state (R105, R122 to R124, R142, R143) -/

/-- `CRC32C_ADD acc, bytes -> acc'` (R122). -/
def execCrc32cAdd (acc : Word32) (bytes : Bytes) (s : State) : Out :=
  .next (s.respond .ok (.word32 (crc32cAdd acc bytes)))

/-- `CRC32C_FIN acc -> value` (R123). -/
def execCrc32cFin (acc : Word32) (s : State) : Out :=
  .next (s.respond .ok (.word32 (crc32cFin acc)))

/-- `CRC32C bytes -> value` (R124). -/
def execCrc32c (bytes : Bytes) (s : State) : Out :=
  .next (s.respond .ok (.word32 (crc32c bytes)))

/-- `CRC16_ADD acc, bytes -> acc'` (R142). -/
def execCrc16Add (acc : Word16) (bytes : Bytes) (s : State) : Out :=
  .next (s.respond .ok (.word16 (crc16Add acc bytes)))

/-- `CRC16 bytes -> value` (R143). -/
def execCrc16 (bytes : Bytes) (s : State) : Out :=
  .next (s.respond .ok (.word16 (crc16 bytes)))

end Sys2Proof.Machine
end

