-- ==== Sys2Proof/Machine/Operands.lean ====
section
/-! DEFINITION. The operand forms shared by the commands: the transfer kind (R106), the port-ID range of a kind
(R156, R249), and the data specifier built from and split into them (R85). -/

namespace Sys2Proof.Machine

open Sys2Proof

/-- The kind operand: 0 message, 1 response, 2 request, 3 invalid (R106). -/
def kindOf (kind : BitVec 2) : Option TransferKind :=
  match kind.toNat with
  | 0 => some .message
  | 1 => some .response
  | 2 => some .request
  | _ => none

/-- The largest port-ID of a kind: subject-IDs have 15 bits, service-IDs 14 (R85, R10). -/
def portIdMax : TransferKind → Nat
  | .message => Config.subjectIdMax
  | .response => Config.serviceIdMax
  | .request => Config.serviceIdMax

/-- The port-ID lies in the range of its kind (R156, R249). -/
def portInRange (kind : TransferKind) (portId : Word16) : Bool := decide (portId.toNat ≤ portIdMax kind)

/-- The data specifier of a kind and a port-ID in its range (R85). -/
def dataSpecifierOf (kind : TransferKind) (portId : Word16) : Word16 :=
  match kind with
  | .message => portId
  | .request => 0xC000#16 ||| portId
  | .response => 0x8000#16 ||| portId

/-- The kind a data specifier stands for: bit 15 is service-not-message, bit 14 is-request (R85, R175). -/
def kindOfSpecifier (ds : Word16) : TransferKind :=
  if ds.getLsbD 15 = false then .message
  else if ds.getLsbD 14 then .request
  else .response

/-- The port-ID a data specifier stands for: 15 bits of a message's, 14 of a service's (R85, R175). -/
def portOfSpecifier (ds : Word16) : Word16 :=
  if ds.getLsbD 15 = false then ds &&& 0x7FFF#16 else ds &&& 0x3FFF#16

end Sys2Proof.Machine
end

