-- ==== Sys2Proof/Machine/HeaderCodec.lean ====
section
/-! DEFINITION. The frame header codec (`43_header_codec.md`) in the layout of `30_encoding.md` R81, with
`HDR_ENCODE` and `HDR_DECODE`. -/

namespace Sys2Proof.Machine

open Sys2Proof

/-- The 22 header bytes the header CRC covers (R81, R171). -/
def headerBody (priority : BitVec 3) (source destination dataSpecifier : Word16) (transferId : Word64)
    (frameIndex : BitVec 31) (eot : Bool) : Bytes :=
  [Config.headerVersion, priority.setWidth 8] ++ le16Bytes source ++ le16Bytes destination
    ++ le16Bytes dataSpecifier ++ le64Bytes transferId
    ++ le32Bytes (((BitVec.ofBool eot).setWidth 32 <<< 31) ||| frameIndex.setWidth 32) ++ [0#8, 0#8]

/-- The 24-byte header (R171): the body, then its CRC, low byte first (R62, R90). -/
def headerBytes (priority : BitVec 3) (source destination dataSpecifier : Word16) (transferId : Word64)
    (frameIndex : BitVec 31) (eot : Bool) : Bytes :=
  headerBody priority source destination dataSpecifier transferId frameIndex eot
    ++ le16Bytes (crc16 (headerBody priority source destination dataSpecifier transferId frameIndex eot))

/-- The header fields of a frame of at least 24 bytes, by fixed byte offsets (R175). -/
def headerOf (frame : Bytes) : Header :=
  let ds := le16At frame 6
  let w := le32At frame 16
  { version := frame.getD 0 0#8
    priority := frame.getD 1 0#8
    sourceNodeId := le16At frame 2
    destinationNodeId := le16At frame 4
    dataSpecifier := ds
    transferId := le64At frame 8
    frameIndex := w.setWidth 31
    eot := w.getLsbD 31
    headerCrc := le16At frame 22
    sot := decide (w.setWidth 31 = 1#31)
    kind := kindOfSpecifier ds
    portId := portOfSpecifier ds }

/-- The part of `valid(hdr)` that does not look at the header CRC: R176 (a) to (e). -/
def headerFieldsValid (h : Header) : Bool :=
  decide (h.version = Config.headerVersion) && decide (h.priority.toNat ≤ 7) && decide (1 ≤ h.frameIndex.toNat)
    && (decide (h.sourceNodeId ≠ Config.nodeIdUnset) || (h.sot && h.eot && decide (h.kind = .message)))

/-- R176 (f): with `VERIFY_HEADER_CRC` the header CRC must be right, without it any value passes (R178). -/
def headerCrcValid (verify : Bool) (frame : Bytes) (h : Header) : Bool :=
  decide (h.headerCrc = crc16 (slice frame 0 22)) || !verify

/-- The decoder (R175): the header and the chunk, or `none` for `Rejected`. -/
def decodeFrame (verify : Bool) (frame : Bytes) : Option (Header × Bytes) :=
  if frame.length < Config.headerSize then none
  else if (headerFieldsValid (headerOf frame) && headerCrcValid verify frame (headerOf frame)) = false then none
  else some (headerOf frame, frame.drop Config.headerSize)

/-- `HDR_ENCODE priority, source, destination, data_specifier, transfer_id, frame_index, eot -> header` (R171): always
`OK` (R105). Frame index 0 is outside the operand's range: what comes back then is a free value (entry 8). -/
def execHdrEncode (priority : BitVec 3) (source destination dataSpecifier : Word16) (transferId : Word64)
    (frameIndex : BitVec 31) (eot : Bool) (s : State) : Out :=
  if frameIndex = 0#31 then
    .next (s.respond .ok
      (.header (Config.headerOfIndexZero priority source destination dataSpecifier transferId eot)))
  else
    .next (s.respond .ok
      (.header (headerBytes priority source destination dataSpecifier transferId frameIndex eot)))

/-- `HDR_DECODE frame -> status, hdr, chunk` (R175). -/
def execHdrDecode (frame : Bytes) (s : State) : Out :=
  match decodeFrame s.params.verifyHeaderCrc frame with
  | none => .next (s.respond .rejected .none)
  | some (h, chunk) => .next (s.respond .ok (.decoded h chunk))

end Sys2Proof.Machine
end

