-- ==== Sys2Proof/Machine/Registry.lean ====
section
/-! DEFINITION. The instance and the RX subscription registry (`46_rx_registry.md`): `INIT`, `CFG_NODE_ID`,
`RX_SUBSCRIBE`, `RX_UNSUBSCRIBE`. -/

namespace Sys2Proof.Machine

open Sys2Proof

/-- A fresh instance: valid, anonymous, no subscriptions (R241). -/
def Instance.fresh : Instance :=
  { valid := true, nodeId := Config.nodeIdUnset, subs := { message := [], response := [], request := [] } }

/-- `INIT i` (R241): a live instance's sessions and buffers drop out of the ledger without `Free` (R352,
entry 15). -/
def execInit (i : Nat) (s : State) : Out :=
  match s.ins[i]? with
  | none => .next (s.raise .argumentInvalid)
  | some old =>
    .next (((s.setIns i Instance.fresh).setAlloc (s.allocPort.release old.objects)).respond .ok .none)

/-- `CFG_NODE_ID i, node_id` (R242): every 16-bit value is legal; nothing else changes. -/
def execCfgNodeId (i : Nat) (nodeId : Word16) (s : State) : Out :=
  match s.validIns i with
  | none => .next (s.raise .argumentInvalid)
  | some I => .next ((s.setIns i { I with nodeId := nodeId }).respond .ok .none)

/-- How many subscriptions an instance has, over the three kinds (R251, entry 14). -/
def Registry.count (r : Registry) : Nat := r.message.length + r.response.length + r.request.length

/-- Creating one more subscription keeps within `MAX_SUBSCRIPTIONS` (R251). -/
def roomFor (bound : Option Nat) (r : Registry) : Bool :=
  match bound with
  | none => true
  | some m => decide (r.count < m)

/-- A new subscription: all session slots empty (R27, R243). -/
def Subscription.fresh (portId : Word16) (extent : Nat) (timeout : Word64) : Subscription :=
  { portId := portId, extent := extent, transferIdTimeout := timeout, sessions := [] }

/-- The instance with a subscription put under its kind and port-ID. -/
def Instance.putSub (I : Instance) (kind : TransferKind) (portId : Word16) (sub : Subscription) : Instance :=
  I.setSubs (I.subs.put kind (Map.insert portId.toNat sub (I.subs.get kind)))

/-- The instance without the subscription under a kind and port-ID. -/
def Instance.dropSub (I : Instance) (kind : TransferKind) (portId : Word16) : Instance :=
  I.setSubs (I.subs.put kind (Map.erase portId.toNat (I.subs.get kind)))

/-- The subscription under a kind and port-ID (R247). -/
def Instance.findSub (I : Instance) (kind : TransferKind) (portId : Word16) : Option Subscription :=
  Map.find portId.toNat (I.subs.get kind)

/-- `RX_SUBSCRIBE i, kind, port_id, extent, timeout -> handle` (R243, R249, R251). The old subscription, if any, is
torn down: the frees of its sessions and buffers are one set (R244). -/
def execRxSubscribe (i : Nat) (kind : BitVec 2) (portId : Word16) (extent : Nat) (timeout : Word64) (s : State) :
    Out :=
  match s.validIns i with
  | none => .next (s.raise .argumentInvalid)
  | some I =>
    match kindOf kind with
    | none => .next (s.raise .argumentInvalid)
    | some k =>
      if portInRange k portId = false then .next (s.raise .argumentInvalid)
      else
        match I.findSub k portId with
        | some old =>
          .next (((s.setIns i (I.putSub k portId (Subscription.fresh portId extent timeout))).setAlloc
            (s.allocPort.freeSet old.objects)).respond .replaced (.handle ⟨k, portId⟩))
        | none =>
          if roomFor s.params.maxSubscriptions I.subs = false then .next (s.raise .argumentInvalid)
          else
            .next ((s.setIns i (I.putSub k portId (Subscription.fresh portId extent timeout))).respond .created
              (.handle ⟨k, portId⟩))

/-- `RX_UNSUBSCRIBE i, kind, port_id` (R245). -/
def execRxUnsubscribe (i : Nat) (kind : BitVec 2) (portId : Word16) (s : State) : Out :=
  match s.validIns i with
  | none => .next (s.raise .argumentInvalid)
  | some I =>
    match kindOf kind with
    | none => .next (s.raise .argumentInvalid)
    | some k =>
      match I.findSub k portId with
      | none => .next (s.respond .notFound .none)
      | some old =>
        .next (((s.setIns i (I.dropSub k portId)).setAlloc (s.allocPort.freeSet old.objects)).respond .removed
          .none)

end Sys2Proof.Machine
end

