-- ==== Sys2Proof/Machine/RxSession.lean ====
section
/-! DEFINITION. `RX_ACCEPT` and the reassembly state machine of one session (`47_rx_session.md`). The step numbers
are those of R260's pseudocode. -/

namespace Sys2Proof.Machine

open Sys2Proof

/-- A session just created by a first frame: Idle, expecting the frame's transfer-ID, locked to its transport
(R264). -/
def Session.fresh (ts : Word64) (transferId : Word64) (rti : Byte) (obj : ObjId) : Session :=
  { transferTimestamp := ts, totalPayloadSize := 0, payloadSize := 0, payload := none, crc := Config.crc32cSeed,
    transferId := transferId, redundantTransportIndex := rti, lastFrameIndex := 0#31, obj := obj }

/-- What both restarts reset: buffer absent, counts 0, CRC at its seed, no frame accepted (R266, R267). -/
def Session.cleared (s : Session) : Session :=
  { s with payload := none, totalPayloadSize := 0, payloadSize := 0, crc := Config.crc32cSeed,
           lastFrameIndex := 0#31 }

/-- The allocator port once a session's payload buffer, if present, is freed. -/
def Session.freePayload (s : Session) (a : AllocPort) : AllocPort :=
  match s.payload with
  | some b => a.free b.obj
  | none => a

/-- The session `restart_advance` leaves: cleared, expecting the next transfer-ID, timestamp and transport kept
(R266). -/
def Session.advanced (s : Session) : Session := { s.cleared with transferId := s.transferId + 1#64 }

/-- The session `restart_to_frame` leaves: cleared, expecting the frame's transfer-ID on the frame's transport
(R267). -/
def Session.retargeted (s : Session) (transferId : Word64) (rti : Byte) : Session :=
  { s.cleared with transferId := transferId, redundantTransportIndex := rti }

/-- `tid_diff(a, b) = (a - b) mod 2^64` (R275). -/
def tidDiff (a b : Word64) : Word64 := a - b

/-- The transfer-ID timeout at a frame with timestamp `ts` (R265): strict, and never for a timestamp that is not
later than the stored one. -/
def timedOut (s : Session) (timeout ts : Word64) (sot : Bool) : Bool :=
  sot && decide (s.transferTimestamp < ts) && decide (timeout < ts - s.transferTimestamp)

/-- Whether step 7 restarts the session to the frame (R265, R267). -/
def restartsToFrame (s : Session) (timeout : Word64) (h : Header) (ts : Word64) (rti : Byte) : Bool :=
  h.sot && (timedOut s timeout ts h.sot ||
    (decide (rti = s.redundantTransportIndex) && decide (1#64 < tidDiff s.transferId h.transferId)))

/-- `total_payload_size` once `n` more stream bytes are counted (R270). Where the sum no longer fits `SIZE_W` bits the
spec states no value: a free value, within the limits the spec sets on it. It fits `SIZE_W` bits (R29); it is at least the
extent, which the bytes received then exceed (R30: `payload_size = min(extent, total_payload_size)`); and it is at least the
4 bytes of a trailer, since `SIZE_W` changes no status (U9). -/
def addCount (width extent total n : Nat) : Nat :=
  if total + n < 2 ^ width then total + n
  else
    max extent Config.crcSize
      + Config.countBeyondWidth width extent total n % (2 ^ width - max extent Config.crcSize)

/-- Step 10 (R269): a first frame's timestamp is kept; the running CRC takes the whole chunk. Step 11's count
(R270). -/
def Session.absorb (width extent : Nat) (s : Session) (h : Header) (chunk : Bytes) (ts : Word64) : Session :=
  { s with transferTimestamp := if h.sot then ts else s.transferTimestamp
           crc := crc32cAdd s.crc chunk
           totalPayloadSize := addCount width extent s.totalPayloadSize chunk.length }

/-- Step 11's write (R270): the first `ncopy` chunk bytes go into buffer `b` at `payload_size`. -/
def Session.store (s : Session) (b : Buffer) (part : Bytes) : Session :=
  { s with payload := some { b with data := memWrite b.data s.payloadSize part }
           payloadSize := s.payloadSize + part.length }

/-- `out_size` (R272): the delivered size once what is left of the trailer in the buffer is stripped. -/
def outSize (total stored : Nat) : Nat :=
  if total - stored < 4 then stored - (4 - (total - stored)) else stored

/-- The metadata of a received transfer: that of the completing frame (R272, R276). -/
def metadataOf (h : Header) (kind : TransferKind) (remoteNodeId : Word16) : Metadata :=
  { priority := h.priority.setWidth 3, transferKind := kind, portId := h.portId, remoteNodeId := remoteNodeId,
    transferId := h.transferId }

/-- What `RX_ACCEPT` does once it has found the subscription: the sessions it leaves (`none`: no slot written), the
allocator port, the status and the transfer delivered, if any. -/
structure Accepted where
  session : Option Session
  port : AllocPort
  status : Status
  transfer : Option Transfer
  deriving DecidableEq, Repr

/-- Step 12 (R271 to R274) for a session that holds the whole chunk. -/
def finishFrame (s : Session) (h : Header) (a : AllocPort) : Accepted :=
  if h.eot then
    if 4 ≤ s.totalPayloadSize ∧ s.crc = Config.crc32cResidue then
      { session := some s.advanced
        port := match s.payload with
          | some b => a.release [b.obj]
          | none => a
        status := .transferComplete
        transfer := some
          { metadata := metadataOf h h.kind h.sourceNodeId
            timestamp := s.transferTimestamp
            payload := s.payload
            payloadSize := outSize s.totalPayloadSize s.payloadSize } }
    else { session := some s.advanced, port := s.freePayload a, status := .noMatch, transfer := none }
  else
    { session := some { s with lastFrameIndex := h.frameIndex }, port := a, status := .noMatch, transfer := none }

/-- Steps 10 to 12 for a frame that matches the session and carries the next index. -/
def acceptFrame (width : Nat) (s : Session) (extent : Nat) (h : Header) (chunk : Bytes) (ts : Word64)
    (a : AllocPort) : Accepted :=
  let s' := s.absorb width extent h chunk ts
  let part := chunk.take (min chunk.length (extent - s.payloadSize))
  if part.length = 0 then finishFrame s' h a
  else
    match s.payload with
    | some b => finishFrame (s'.store b part) h a
    | none =>
      match a.alloc extent with
      | (none, a') => { session := some s'.advanced, port := a', status := ErrorKind.outOfMemory.status, transfer := none }
      | (some o, a') => finishFrame (s'.store { obj := o, capacity := extent, data := [] } part) h a'

/-- Steps 8 to 12 (R268): a frame of another transfer or transport is ignored, one out of sequence restarts the
session. -/
def matchFrame (width : Nat) (s : Session) (extent : Nat) (h : Header) (chunk : Bytes) (ts : Word64) (rti : Byte)
    (a : AllocPort) : Accepted :=
  if h.transferId ≠ s.transferId ∨ rti ≠ s.redundantTransportIndex then
    { session := none, port := a, status := .noMatch, transfer := none }
  else if h.frameIndex.setWidth 32 ≠ s.lastFrameIndex.setWidth 32 + 1#32 then
    { session := some s.advanced, port := s.freePayload a, status := ErrorKind.outOfOrder.status, transfer := none }
  else acceptFrame width s extent h chunk ts a

/-- Steps 7 to 12 for an existing session. -/
def acceptInSession (width : Nat) (s : Session) (sub : Subscription) (h : Header) (chunk : Bytes) (ts : Word64)
    (rti : Byte) (a : AllocPort) : Accepted :=
  if restartsToFrame s sub.transferIdTimeout h ts rti then
    matchFrame width (s.retargeted h.transferId rti) sub.extent h chunk ts rti (s.freePayload a)
  else matchFrame width s sub.extent h chunk ts rti a

/-- Steps 6 to 12, a frame from a named node (R264). -/
def acceptNamed (sub : Subscription) (h : Header) (chunk : Bytes) (ts : Word64) (rti : Byte) (p : Params)
    (a : AllocPort) : Accepted :=
  match Map.find h.sourceNodeId.toNat sub.sessions with
  | some s => acceptInSession p.sizeW s sub h chunk ts rti a
  | none =>
    if h.sot = false then { session := none, port := a, status := .noMatch, transfer := none }
    else
      match a.alloc p.rxSessionSize with
      | (none, a') => { session := none, port := a', status := ErrorKind.outOfMemory.status, transfer := none }
      | (some o, a') => acceptInSession p.sizeW (Session.fresh ts h.transferId rti o) sub h chunk ts rti a'

/-- Step 5, an anonymous transfer (R276): no session is read, created or written. -/
def acceptAnonymous (sub : Subscription) (h : Header) (chunk : Bytes) (ts : Word64) (a : AllocPort) : Accepted :=
  if chunk.length < 4 ∨ crc32cAdd Config.crc32cSeed chunk ≠ Config.crc32cResidue then
    { session := none, port := a, status := .noMatch, transfer := none }
  else
    let n := min sub.extent (chunk.length - 4)
    if n = 0 then
      { session := none, port := a, status := .transferComplete
        transfer := some { metadata := metadataOf h .message Config.nodeIdUnset, timestamp := ts, payload := none,
                           payloadSize := 0 } }
    else
      match a.alloc n with
      | (none, a') => { session := none, port := a', status := ErrorKind.outOfMemory.status, transfer := none }
      | (some o, a') =>
        { session := none, port := a'.release [o], status := .transferComplete
          transfer := some
            { metadata := metadataOf h .message Config.nodeIdUnset, timestamp := ts
              payload := some { obj := o, capacity := n, data := memWrite [] 0 (chunk.take n) }
              payloadSize := n } }

/-- Steps 5 to 12 (R260). -/
def acceptMatched (sub : Subscription) (h : Header) (chunk : Bytes) (ts : Word64) (rti : Byte) (p : Params)
    (a : AllocPort) : Accepted :=
  if h.sourceNodeId = Config.nodeIdUnset then acceptAnonymous sub h chunk ts a
  else acceptNamed sub h chunk ts rti p a

/-- The subscription with the session of a remote node written. -/
def Subscription.putSession (sub : Subscription) (node : Nat) (s : Session) : Subscription :=
  { sub with sessions := Map.insert node s sub.sessions }

/-- The address filter (step 3, R261): every message passes; a service frame passes at its named addressee. -/
def addressed (nodeId : Word16) (h : Header) : Bool :=
  decide (h.kind = .message) ||
    (decide (nodeId ≠ Config.nodeIdUnset) && decide (h.destinationNodeId = nodeId))

/-- The results of a response that carries the subscription handle (R104, R263). -/
def resultsWith (handle : Handle) : Option Transfer → Results
  | some t => .transfer t handle
  | none => .handle handle

/-- Commits what steps 5 to 12 decided: the one session of the one subscription, the allocator port, the response
with the handle (R260, R263, R279). -/
def commitAccepted (i : Nat) (I : Instance) (sub : Subscription) (h : Header) (r : Accepted) (s : State) : State :=
  let s' := match r.session with
    | some session => s.setIns i (I.putSub h.kind h.portId (sub.putSession h.sourceNodeId.toNat session))
    | none => s
  let handle : Handle := ⟨h.kind, h.portId⟩
  (s'.setAlloc r.port).respond r.status (resultsWith handle r.transfer)

/-- `RX_ACCEPT i, timestamp, frame, rti -> transfer, handle` (R260). -/
def execRxAccept (i : Nat) (timestamp : Word64) (frame : Bytes) (rti : Byte) (s : State) : Out :=
  match s.validIns i with
  | none => .next (s.raise .argumentInvalid)
  | some I =>
    match decodeFrame s.params.verifyHeaderCrc frame with
    | none => .next (s.respond .rejected .none)
    | some (h, chunk) =>
      if addressed I.nodeId h = false then .next (s.respond .noMatch .none)
      else
        match I.findSub h.kind h.portId with
        | none => .next (s.respond .noMatch .none)
        | some sub =>
          .next (commitAccepted i I sub h
            (acceptMatched sub h chunk timestamp rti s.params s.allocPort) s)

end Sys2Proof.Machine
end

