-- ==== Sys2Proof/Machine/Specifier.lean ====
section
/-! DEFINITION. The session specifier builder (`42_specifier.md`) and `SPEC_BUILD`. -/

namespace Sys2Proof.Machine

open Sys2Proof

/-- The specifier of accepted arguments (R156): the routes and the UDP port are opaque (R160, entry 10). -/
def specifierOf (nodeId : Word16) (kind : TransferKind) (portId remoteNodeId : Word16) (localAddress : Bytes) :
    Specifier :=
  { sourceRoute := Config.routeOf .source kind portId nodeId remoteNodeId localAddress
    destinationRoute := Config.routeOf .destination kind portId nodeId remoteNodeId localAddress
    udpPort := Config.udpPort
    dataSpecifier := dataSpecifierOf kind portId }

/-- Whether the remote and the local node-ID suit the kind: absent remote on a message (R157), present remote and a
named local node on a service transfer (R158). -/
def nodesSuitKind (nodeId : Word16) (kind : TransferKind) (remoteNodeId : Word16) : Bool :=
  match kind with
  | .message => decide (remoteNodeId = Config.nodeIdUnset)
  | .response => decide (remoteNodeId ≠ Config.nodeIdUnset) && decide (nodeId ≠ Config.nodeIdUnset)
  | .request => decide (remoteNodeId ≠ Config.nodeIdUnset) && decide (nodeId ≠ Config.nodeIdUnset)

/-- The builder (R155, R156): a pure function of the local node-ID, the metadata and the local address; `none` is
`ArgumentInvalid`. -/
def buildSpecifier (nodeId : Word16) (priority : Byte) (kind : BitVec 2) (portId remoteNodeId : Word16)
    (localAddress : Bytes) : Option (TransferKind × Specifier) :=
  match kindOf kind with
  | none => none
  | some k =>
    if 7 < priority.toNat then none
    else if portInRange k portId = false then none
    else if nodesSuitKind nodeId k remoteNodeId = false then none
    else some (k, specifierOf nodeId k portId remoteNodeId localAddress)

/-- `SPEC_BUILD i, priority, kind, port_id, remote_node_id, local_address` (R156). Reads `INS[i].node_id` and needs
the context valid (R344). -/
def execSpecBuild (i : Nat) (priority : Byte) (kind : BitVec 2) (portId remoteNodeId : Word16)
    (localAddress : Bytes) (s : State) : Out :=
  match s.validIns i with
  | none => .next (s.raise .argumentInvalid)
  | some I =>
    match buildSpecifier I.nodeId priority kind portId remoteNodeId localAddress with
    | none => .next (s.raise .argumentInvalid)
    | some (_, sp) => .next (s.respond .ok (.specifier sp))

end Sys2Proof.Machine
end

