-- ==== Sys2Proof/Machine/TxQueue.lean ====
section
/-! DEFINITION. The prioritized TX queue (`45_tx_queue.md`) with `TX_PEEK` and `TX_POP`. -/

namespace Sys2Proof.Machine

open Sys2Proof

/-- The queue order: `(priority, transfer_id, id)` compared lexicographically as unsigned numbers (R220). -/
def TxItem.before (a b : TxItem) : Bool :=
  decide (a.priority.toNat < b.priority.toNat) ||
    (decide (a.priority = b.priority) &&
      (decide (a.transferId.toNat < b.transferId.toNat) ||
        (decide (a.transferId = b.transferId) && decide (a.id < b.id))))

/-- Inserts an item at its place in the order (R220, R221). -/
def insertItem (n : TxItem) : List TxItem → List TxItem
  | [] => [n]
  | e :: es => if n.before e then n :: e :: es else e :: insertItem n es

/-- Inserts several items, one after the other. -/
def insertItems (ns : List TxItem) (items : List TxItem) : List TxItem :=
  ns.foldl (fun es n => insertItem n es) items

/-- The item named `id` in the queue (R34, R223). -/
def findItem (id : Nat) (items : List TxItem) : Option TxItem := items.find? (fun m => decide (m.id = id))

/-- The queue without the item named `id`, the order of the rest unchanged (R223). -/
def removeItem (id : Nat) (items : List TxItem) : List TxItem := items.eraseP (fun m => decide (m.id = id))

/-- `TX_PEEK q -> item` (R222): the minimum element, nothing written. -/
def execTxPeek (q : Nat) (s : State) : Out :=
  match s.validTxq q with
  | none => .next (s.raise .argumentInvalid)
  | some Q =>
    if Q.size = 0 then .next (s.respond .empty .none)
    else
      match Q.items with
      | [] => .next (s.respond .empty .none)
      | m :: _ => .next (s.respond .ok (.peeked m.id m.frame m.deadline m.nextInTransfer m.specifier))

/-- The queue after item `id` has left it. -/
def TxQueue.withoutItem (Q : TxQueue) (id : Nat) : TxQueue :=
  { Q with items := removeItem id Q.items, size := Q.size - 1 }

/-- `TX_POP q, id -> item` (R223): the item leaves the ledger and becomes the caller's, with no `Free` (R37, R69). -/
def execTxPop (q id : Nat) (s : State) : Out :=
  match s.validTxq q with
  | none => .next (s.raise .argumentInvalid)
  | some Q =>
    match findItem id Q.items with
    | none => .next (s.respond .empty .none)
    | some m =>
      .next (((s.setTxq q (Q.withoutItem id)).setAlloc (s.allocPort.release [m.obj])).respond .ok (.item m))

end Sys2Proof.Machine
end

