-- ==== Sys2Proof/Machine/TxChain.lean ====
section
/-! DEFINITION. TX queue creation and the frame chain generator (`44_tx_chain.md`): `TX_INIT`, `TX_PUSH`. -/

namespace Sys2Proof.Machine

open Sys2Proof

/-- `TX_INIT q, capacity, mtu_bytes` (R190): any values are stored as given; a live queue's items drop out of the
ledger without `Free` (R352, entry 15). -/
def execTxInit (q capacity mtuBytes : Nat) (s : State) : Out :=
  match s.txq[q]? with
  | none => .next (s.raise .argumentInvalid)
  | some old =>
    .next (((s.setTxq q { valid := true, capacity := capacity, mtuBytes := mtuBytes, size := 0, nextSeq := 0,
                          items := [] }).setAlloc (s.allocPort.release old.objects)).respond .ok .none)

/-- The number of frames of a stream of `L` bytes in chunks of `C`: `ceil(L / C)` (R193, R14). -/
def frameCount (L C : Nat) : Nat := (L + C - 1) / C

/-- The stream of a transfer: the payload and its CRC-32C trailer (R91, R195). -/
def streamOf (payload : Bytes) : Bytes := payload ++ le32Bytes (crc32c payload)

/-- Chunk `k` (from 1) of a stream: `S[(k-1)*C .. min(k*C, L))` (R196). -/
def chunkAt (S : Bytes) (C k : Nat) : Bytes := slice S ((k - 1) * C) C

/-- What every frame of one transfer's header has in common (R197). -/
structure FrameFields where
  priority : BitVec 3
  source : Word16
  destination : Word16
  dataSpecifier : Word16
  transferId : Word64
  deriving DecidableEq, Repr

/-- Frame `k` of `n` (R80, R196, R197): its header with index `k`, `eot` on the last frame only, and its chunk. -/
def frameAt (f : FrameFields) (S : Bytes) (C n k : Nat) : Bytes :=
  headerBytes f.priority f.source f.destination f.dataSpecifier f.transferId (BitVec.ofNat 31 k) (decide (k = n))
    ++ chunkAt S C k

/-- The frames of a transfer, index 1 to `n` (R191 part 3). -/
def framesOf (f : FrameFields) (payload : Bytes) (C : Nat) : List Bytes :=
  let S := streamOf payload
  let n := frameCount S.length C
  (List.range n).map (fun j => frameAt f S C n (j + 1))

/-- One `Alloc` per frame in ascending index (R199); at the first denial the objects granted so far are freed in
ascending order (R201). `granted` are those granted so far. -/
def allocFrames (overhead : Nat) : List Bytes → List ObjId → AllocPort → Option (List ObjId) × AllocPort
  | [], granted, a => (some granted, a)
  | frame :: frames, granted, a =>
    match a.alloc (overhead + frame.length) with
    | (none, a') => (none, a'.freeEach granted)
    | (some o, a') => allocFrames overhead frames (granted ++ [o]) a'

/-- The items of a transfer: ids from `seq` on, each linked to the next (R200). -/
def itemsOf (priority : BitVec 3) (transferId deadline : Word64) (sp : Specifier) : Nat → List (Bytes × ObjId) →
    List TxItem
  | _, [] => []
  | seq, (frame, o) :: more =>
    { id := seq, priority := priority, transferId := transferId, frame := frame, deadline := deadline,
      nextInTransfer := if more = [] then none else some (seq + 1), specifier := sp, obj := o }
      :: itemsOf priority transferId deadline sp (seq + 1) more

/-- The queue with a transfer's items committed (R200). -/
def TxQueue.commit (Q : TxQueue) (items : List TxItem) : TxQueue :=
  { Q with items := insertItems items Q.items, size := Q.size + items.length, nextSeq := Q.nextSeq + items.length }

/-- `TX_PUSH` once its specifier is built (R191 from the MTU check on; order of the checks R316). -/
def pushTransfer (q : Nat) (Q : TxQueue) (nodeId remoteNodeId : Word16) (sp : Specifier) (deadline : Word64)
    (priority : BitVec 3) (transferId : Word64) (payload : Bytes) (s : State) : State :=
  let C := Q.mtuBytes - Config.headerSize
  let n := frameCount (payload.length + Config.crcSize) C
  if Q.mtuBytes ≤ Config.headerSize then s.raise .argumentInvalid
  else if Config.frameIndexMax < n then s.raise .argumentInvalid
  else if nodeId = Config.nodeIdUnset ∧ 1 < n then s.raise .argumentInvalid
  else if Q.capacity < Q.size + n then s.raise .outOfMemory
  else
    let frames := framesOf ⟨priority, nodeId, remoteNodeId, sp.dataSpecifier, transferId⟩ payload C
    match allocFrames s.params.txItemOverhead frames [] s.allocPort with
    | (none, a) => (s.setAlloc a).raise .outOfMemory
    | (some objs, a) =>
      let items := itemsOf priority transferId deadline sp Q.nextSeq (frames.zip objs)
      ((s.setTxq q (Q.commit items)).setAlloc a).respond .ok (.framesEnqueued n)

/-- `TX_PUSH q, i, deadline, priority, kind, port_id, remote_node_id, transfer_id, payload -> frames_enqueued`
(R191). The local address reaches the builder from outside the command (R191, entry 10). -/
def execTxPush (q i : Nat) (deadline : Word64) (priority : Byte) (kind : BitVec 2) (portId remoteNodeId : Word16)
    (transferId : Word64) (payload : Bytes) (s : State) : Out :=
  match s.validTxq q, s.validIns i with
  | some Q, some I =>
    match buildSpecifier I.nodeId priority kind portId remoteNodeId s.localAddress with
    | none => .next (s.raise .argumentInvalid)
    | some (_, sp) =>
      .next (pushTransfer q Q I.nodeId remoteNodeId sp deadline (priority.setWidth 3) transferId payload s)
  | _, _ => .next (s.raise .argumentInvalid)

end Sys2Proof.Machine
end

