-- ==== Sys2Proof/Machine/Dispatch.lean ====
section
/-! DEFINITION. One arm per command (R101), each one direct call of its meaning. -/

namespace Sys2Proof.Machine

open Sys2Proof

def exec (i : Instr) (s : State) : Host.Outcome State Fault Refusal :=
  match i with
  | .init a => Sys2Proof.Machine.execInit a s
  | .cfgNodeId a nodeId => Sys2Proof.Machine.execCfgNodeId a nodeId s
  | .txInit q capacity mtuBytes => Sys2Proof.Machine.execTxInit q capacity mtuBytes s
  | .txPush q a deadline priority kind portId remoteNodeId transferId payload => Sys2Proof.Machine.execTxPush q a deadline priority kind portId remoteNodeId transferId payload s
  | .txPeek q => Sys2Proof.Machine.execTxPeek q s
  | .txPop q id => Sys2Proof.Machine.execTxPop q id s
  | .rxSubscribe a kind portId extent timeout => Sys2Proof.Machine.execRxSubscribe a kind portId extent timeout s
  | .rxUnsubscribe a kind portId => Sys2Proof.Machine.execRxUnsubscribe a kind portId s
  | .rxAccept a timestamp frame rti => Sys2Proof.Machine.execRxAccept a timestamp frame rti s
  | .crc32cAdd acc bytes => Sys2Proof.Machine.execCrc32cAdd acc bytes s
  | .crc32cFin acc => Sys2Proof.Machine.execCrc32cFin acc s
  | .crc32c bytes => Sys2Proof.Machine.execCrc32c bytes s
  | .crc16Add acc bytes => Sys2Proof.Machine.execCrc16Add acc bytes s
  | .crc16 bytes => Sys2Proof.Machine.execCrc16 bytes s
  | .specBuild a priority kind portId remoteNodeId localAddress => Sys2Proof.Machine.execSpecBuild a priority kind portId remoteNodeId localAddress s
  | .hdrEncode priority source destination dataSpecifier transferId frameIndex eot => Sys2Proof.Machine.execHdrEncode priority source destination dataSpecifier transferId frameIndex eot s
  | .hdrDecode frame => Sys2Proof.Machine.execHdrDecode frame s

end Sys2Proof.Machine
end

