-- ==== Sys2Proof/Machine/Step.lean ====
section
/-! DEFINITION. One step: the engine takes the next command record of the command port, decodes it and executes it
to completion (R8, R21, R71). -/

namespace Sys2Proof.Machine

open Sys2Proof

/-- One step. With no record on the command port the engine waits and nothing changes (entry 2). -/
def step (s : State) : Host.Outcome State Fault Refusal :=
  match s.takeCommand with
  | none => .next s
  | some (record, s') =>
    match decode record with
    | .ok (i, _) => exec (received s'.params.sizeW i) s'
    | .error e => answerUndecoded e s'

/-- The machine with a table word's record placed where the next step takes its command from. -/
def State.withFetchWord (s : State) (nbits w : Nat) : State := s.issue (tableBytes nbits w)

end Sys2Proof.Machine
end

