-- ==== Sys2Proof/Safety.lean ====
section
/-! DEFINITION. The terms the claims use: the invariants of the state between commands (`10_state.md` R30, R35,
`20_memory.md` R69), which contexts a command names (R20), and sequences of received frames. A safe run is one that
keeps the invariants; no command faults, so a run is never unsafe by stopping (R310, R317). -/

namespace Sys2Proof.Machine

open Sys2Proof

/-! ### Sessions (R30) -/

/-- R30 for a session of a subscription with this extent: (a), (b), (c) `payload_size` is the stream bytes received,
cut at the extent; (d) a buffer is present just when `payload_size > 0`, and holds exactly that many bytes; (e) an Idle
session is clear. -/
abbrev Session.Inv (extent : Nat) (s : Session) : Prop :=
  s.payloadSize = min extent s.totalPayloadSize
    ∧ (match s.payload with
        | some b => 0 < s.payloadSize ∧ b.data.length = s.payloadSize ∧ b.capacity = extent
        | none => s.payloadSize = 0)
    ∧ (s.lastFrameIndex = 0#31 →
        s.totalPayloadSize = 0 ∧ s.payloadSize = 0 ∧ s.payload = none ∧ s.crc = Config.crc32cSeed)

/-- Every session of a subscription meets R30. -/
abbrev Subscription.SessionsInv (sub : Subscription) : Prop := ∀ e ∈ sub.sessions, e.2.Inv sub.extent

/-- Every session of an instance meets R30. -/
abbrev Instance.SessionsInv (I : Instance) : Prop :=
  (∀ e ∈ I.subs.message, e.2.SessionsInv) ∧ (∀ e ∈ I.subs.response, e.2.SessionsInv)
    ∧ (∀ e ∈ I.subs.request, e.2.SessionsInv)

/-- Every session of the machine meets R30. -/
abbrev State.SessionsInv (s : State) : Prop := ∀ I ∈ s.ins, I.SessionsInv

/-! ### Sizes fit SIZE_W bits (R27, R29, R33) -/

/-- The counts of a session fit the width. -/
abbrev Session.SizesFit (width : Nat) (s : Session) : Prop :=
  s.totalPayloadSize < 2 ^ width ∧ s.payloadSize < 2 ^ width

/-- The extent and the session counts of every subscription of a map fit the width. -/
abbrev sizesFit (width : Nat) (m : Map Subscription) : Prop :=
  ∀ e ∈ m, e.2.extent < 2 ^ width ∧ ∀ f ∈ e.2.sessions, f.2.SizesFit width

/-- The sizes of a queue fit the width. -/
abbrev TxQueue.SizesFit (width : Nat) (Q : TxQueue) : Prop :=
  Q.capacity < 2 ^ width ∧ Q.mtuBytes < 2 ^ width ∧ Q.size < 2 ^ width

/-- Every field of `SIZE_W` bits has a value of `SIZE_W` bits. -/
abbrev State.SizesFit (s : State) : Prop :=
  (∀ I ∈ s.ins, sizesFit s.params.sizeW I.subs.message ∧ sizesFit s.params.sizeW I.subs.response
      ∧ sizesFit s.params.sizeW I.subs.request)
    ∧ ∀ Q ∈ s.txq, Q.SizesFit s.params.sizeW

/-! ### The registry's canonical form (R26, R27, R249) -/

/-- A map of subscriptions of one kind: rising port-IDs, each in the range of the kind and equal to its record's
field, each record's session table with rising node-IDs below 65535. -/
abbrev subsWf (kind : TransferKind) (m : Map Subscription) : Prop :=
  Map.wf m = true ∧ ∀ e ∈ m, e.1 = e.2.portId.toNat ∧ e.1 ≤ portIdMax kind
    ∧ Map.wf e.2.sessions = true ∧ ∀ f ∈ e.2.sessions, f.1 < Config.sessionSlots

/-- The registry of an instance is in canonical form. -/
abbrev Registry.WF (r : Registry) : Prop :=
  subsWf .message r.message ∧ subsWf .response r.response ∧ subsWf .request r.request

/-- Every registry of the machine is in canonical form. -/
abbrev State.RegistryWF (s : State) : Prop := ∀ I ∈ s.ins, I.subs.WF

/-! ### TX queues (R34, R35) -/

/-- The frame index a frame's header carries (R81, R87). -/
def frameIndexOf (frame : Bytes) : BitVec 31 := (le32At frame 16).setWidth 31

/-- The end-of-transfer flag a frame's header carries (R81, R87). -/
def eotOf (frame : Bytes) : Bool := (le32At frame 16).getLsbD 31

/-- R34 for an item of a queue with this MTU: a whole frame with at least one stream byte, no longer than the MTU,
whose header carries the item's sort keys and an index from 1 on; the item has no link just when its frame is the last of
its transfer. -/
abbrev TxItem.Inv (mtuBytes : Nat) (m : TxItem) : Prop :=
  Config.headerSize < m.frame.length ∧ m.frame.length ≤ mtuBytes
    ∧ m.frame.getD 1 0#8 = m.priority.setWidth 8 ∧ le64At m.frame 8 = m.transferId
    ∧ 1 ≤ (frameIndexOf m.frame).toNat
    ∧ (m.nextInTransfer = none ↔ eotOf m.frame = true)

/-- Two items hold frames of one transfer: the frames of a transfer take consecutive ids in ascending frame index
(R200), so the ids lie as far apart as the indices, and no other transfer's do. -/
abbrev sameTransfer (a b : TxItem) : Prop :=
  a.id + (frameIndexOf b.frame).toNat = b.id + (frameIndexOf a.frame).toNat

/-- R35 for a queue: `size` is the number of items and within the capacity; the items are strictly increasing in
`(priority, transfer_id, id)`; ids are unique and below `next_seq`; the items of one transfer share their sort keys and
stand in ascending frame index, whichever of its frames are still queued; a link names the next id, and where the linked
item is queued it carries the next frame index of the same transfer. -/
abbrev TxQueue.Inv (Q : TxQueue) : Prop :=
  Q.size = Q.items.length ∧ Q.size ≤ Q.capacity
    ∧ Q.items.Pairwise (fun a b => a.before b = true)
    ∧ (Q.items.map (fun m => m.id)).Nodup
    ∧ (∀ m ∈ Q.items, m.id < Q.nextSeq ∧ m.Inv Q.mtuBytes)
    ∧ Q.items.Pairwise (fun a b => sameTransfer a b →
        a.priority = b.priority ∧ a.transferId = b.transferId
          ∧ (frameIndexOf a.frame).toNat < (frameIndexOf b.frame).toNat)
    ∧ (∀ m ∈ Q.items, ∀ j ∈ m.nextInTransfer, j = m.id + 1 ∧ j < Q.nextSeq)
    ∧ (∀ m ∈ Q.items, ∀ n ∈ Q.items, m.nextInTransfer = some n.id → sameTransfer m n)

/-- Every valid queue of the machine meets R35. -/
abbrev State.QueuesInv (s : State) : Prop := ∀ Q ∈ s.txq, Q.valid = true → Q.Inv

/-! ### The ownership ledger (R69) -/

/-- R69: the ledger is the set of objects the contexts hold, no object is held twice, and every name handed out is
older than the next one. -/
abbrev State.LedgerInv (s : State) : Prop :=
  s.objects.Nodup ∧ (∀ o, o ∈ s.allocPort.ledger ↔ o ∈ s.objects)
    ∧ s.allocPort.ledger.Pairwise (fun a b => a < b) ∧ ∀ o ∈ s.allocPort.ledger, o < s.allocPort.nextObj

/-! ### All of them -/

/-- The invariants of the state between commands. -/
abbrev State.Inv (s : State) : Prop :=
  s.SessionsInv ∧ s.SizesFit ∧ s.RegistryWF ∧ s.QueuesInv ∧ s.LedgerInv

/-! ### The contexts a command names (R20) -/

/-- The instance context a command names. -/
def namedIns : Instr → Option Nat
  | .init i => some i
  | .cfgNodeId i _ => some i
  | .txInit _ _ _ => none
  | .txPush _ i _ _ _ _ _ _ _ => some i
  | .txPeek _ => none
  | .txPop _ _ => none
  | .rxSubscribe i _ _ _ _ => some i
  | .rxUnsubscribe i _ _ => some i
  | .rxAccept i _ _ _ => some i
  | .crc32cAdd _ _ => none
  | .crc32cFin _ => none
  | .crc32c _ => none
  | .crc16Add _ _ => none
  | .crc16 _ => none
  | .specBuild i _ _ _ _ _ => some i
  | .hdrEncode _ _ _ _ _ _ _ => none
  | .hdrDecode _ => none

/-- The queue context a command names. -/
def namedTxq : Instr → Option Nat
  | .init _ => none
  | .cfgNodeId _ _ => none
  | .txInit q _ _ => some q
  | .txPush q _ _ _ _ _ _ _ _ => some q
  | .txPeek q => some q
  | .txPop q _ => some q
  | .rxSubscribe _ _ _ _ _ => none
  | .rxUnsubscribe _ _ _ => none
  | .rxAccept _ _ _ _ => none
  | .crc32cAdd _ _ => none
  | .crc32cFin _ => none
  | .crc32c _ => none
  | .crc16Add _ _ => none
  | .crc16 _ => none
  | .specBuild _ _ _ _ _ _ => none
  | .hdrEncode _ _ _ _ _ _ _ => none
  | .hdrDecode _ => none

/-- The command creates its context rather than needing a valid one (R344). -/
def createsContext : Instr → Bool
  | .init _ => true
  | .cfgNodeId _ _ => false
  | .txInit _ _ _ => true
  | .txPush _ _ _ _ _ _ _ _ _ => false
  | .txPeek _ => false
  | .txPop _ _ => false
  | .rxSubscribe _ _ _ _ _ => false
  | .rxUnsubscribe _ _ _ => false
  | .rxAccept _ _ _ _ => false
  | .crc32cAdd _ _ => false
  | .crc32cFin _ => false
  | .crc32c _ => false
  | .crc16Add _ _ => false
  | .crc16 _ => false
  | .specBuild _ _ _ _ _ _ => false
  | .hdrEncode _ _ _ _ _ _ _ => false
  | .hdrDecode _ => false

/-- The two commands name no context in common (R73). -/
abbrev disjointContexts (a b : Instr) : Prop :=
  (∀ i ∈ namedIns a, namedIns b ≠ some i) ∧ (∀ q ∈ namedTxq a, namedTxq b ≠ some q)

/-- The statuses a command can return (R105). -/
def statusesOf : Instr → List Status
  | .init _ => [.ok, .argumentInvalid]
  | .cfgNodeId _ _ => [.ok, .argumentInvalid]
  | .txInit _ _ _ => [.ok, .argumentInvalid]
  | .txPush _ _ _ _ _ _ _ _ _ => [.ok, .argumentInvalid, .outOfMemory]
  | .txPeek _ => [.ok, .empty, .argumentInvalid]
  | .txPop _ _ => [.ok, .empty, .argumentInvalid]
  | .rxSubscribe _ _ _ _ _ => [.created, .replaced, .argumentInvalid]
  | .rxUnsubscribe _ _ _ => [.removed, .notFound, .argumentInvalid]
  | .rxAccept _ _ _ _ => [.transferComplete, .noMatch, .rejected, .outOfMemory, .outOfOrder, .argumentInvalid]
  | .crc32cAdd _ _ => [.ok]
  | .crc32cFin _ => [.ok]
  | .crc32c _ => [.ok]
  | .crc16Add _ _ => [.ok]
  | .crc16 _ => [.ok]
  | .specBuild _ _ _ _ _ _ => [.ok, .argumentInvalid]
  | .hdrEncode _ _ _ _ _ _ _ => [.ok]
  | .hdrDecode _ => [.ok, .rejected]

/-! ### The CRC engines bit by bit (R125, R142) -/

/-- The bit-serial form of the CRC-32C accumulator (R125). -/
def crc32cBitwise (acc : Word32) (bytes : Bytes) : Word32 :=
  bytes.foldl (fun c b => iterate crc32cShift 8 (c ^^^ b.setWidth 32)) acc

/-- The bit-serial form of the CRC-16 accumulator (R142). -/
def crc16Bitwise (acc : Word16) (bytes : Bytes) : Word16 :=
  bytes.foldl (fun c b => iterate crc16Shift 8 (c ^^^ ((b.setWidth 16 : Word16) <<< 8))) acc

/-! ### The allocator's answers -/

/-- The answer to the `j`-th request from now (R66): the caller's, or a free one where the port has none. -/
def AllocPort.answer (a : AllocPort) (j : Nat) : Bool :=
  (a.answers[j]?).getD (Config.allocatorAnswer (a.requests + j))

/-! ### Received frames -/

/-- `RX_ACCEPT`'s steps 1 to 4 (R260) find subscription `sub` of instance `I` for a frame that decodes to `h` and
`chunk`. -/
abbrev State.Finds (s : State) (i : Nat) (frame : Bytes) (I : Instance) (sub : Subscription) (h : Header)
    (chunk : Bytes) : Prop :=
  s.validIns i = some I ∧ decodeFrame s.params.verifyHeaderCrc frame = some (h, chunk)
    ∧ addressed I.nodeId h = true ∧ I.findSub h.kind h.portId = some sub

/-- As `State.Finds`, for a frame from a named node whose slot holds session `x`. -/
abbrev State.FindsSession (s : State) (i : Nat) (frame : Bytes) (I : Instance) (sub : Subscription) (h : Header)
    (chunk : Bytes) (x : Session) : Prop :=
  s.Finds i frame I sub h chunk ∧ h.sourceNodeId ≠ Config.nodeIdUnset
    ∧ Map.find h.sourceNodeId.toNat sub.sessions = some x

/-- The machine with the session of the frame's sender written. -/
def State.withSession (s : State) (i : Nat) (I : Instance) (sub : Subscription) (h : Header) (x : Session) : State :=
  s.setIns i (I.putSub h.kind h.portId (sub.putSession h.sourceNodeId.toNat x))

/-- The time since the session's last accepted first frame exceeds the subscription's timeout (R265). -/
abbrev Session.exceeds (x : Session) (sub : Subscription) (ts : Word64) : Prop :=
  x.transferTimestamp.toNat + sub.transferIdTimeout.toNat < ts.toNat

/-- The frame is the next one of the transfer the session expects (R268), and no timeout restarts a transfer in
progress (R265): a restart of an Idle session that already expects the frame changes nothing. -/
abbrev Session.Expects (x : Session) (sub : Subscription) (h : Header) (ts : Word64) (rti : Byte) : Prop :=
  h.transferId = x.transferId ∧ rti = x.redundantTransportIndex
    ∧ h.frameIndex.toNat = x.lastFrameIndex.toNat + 1
    ∧ (h.sot = true → x.exceeds sub ts → x.cleared = x)

/-- The bytes a session's buffer holds. -/
def Session.stored (x : Session) : Bytes :=
  match x.payload with
  | some b => b.data
  | none => []

/-! ### Reading what a run shows -/

/-- The status on the response port. -/
def State.status (s : State) : Option Status := s.response.map (fun r => r.status)

/-- The session of a remote node in a subscription of an instance. -/
def State.session (s : State) (i : Nat) (kind : TransferKind) (portId : Word16) (node : Nat) : Option Session :=
  match s.ins[i]? with
  | none => none
  | some I =>
    match I.findSub kind portId with
    | none => none
    | some sub => Map.find node sub.sessions

/-- The payload bytes a delivered transfer hands to the caller (R39, R272). -/
def Transfer.bytes (t : Transfer) : Bytes :=
  match t.payload with
  | some b => b.data.take t.payloadSize
  | none => []

/-- `RX_ACCEPT` of each frame in order, on one instance and one transport; the machine after the last one. -/
def acceptAll (i : Nat) (rti : Byte) : List (Word64 × Bytes) → State → Option State
  | [], s => some s
  | (ts, frame) :: more, s =>
    match exec (.rxAccept i ts frame rti) s with
    | .next t => acceptAll i rti more t
    | .fault _ => none
    | .refused _ => none

end Sys2Proof.Machine
end

