-- ==== Sys2Proof/Certificates/Slice0/Obligations.lean ====
section
/-! DEFINITION. The statements for the provers. Each docstring names the rule of `spec/` (or the model's own choice
and its log entry) that the statement formalises. -/

open Sys2Proof Sys2Proof.Machine

/-! ### The command port -/

/-- Decoding the encoding of any command gives the command back and leaves the bytes after it, with every operand at
every value, whatever the implementation's `SIZE_W` (R100 to R102; the operand layout is the model's choice, entry 1). -/
def Obligations.DecodeOfEncodeIsTheCommand : Prop :=
  ∀ (i : Instr) (rest : Bytes), decode (encode i ++ rest) = .ok (i, rest)

/-- Bytes that decode are a record as long as the encoding of what they decode to, and are that encoding where the
record's spare bits are clear: one meaning per record (the operand layout is the model's choice, entry 1; an operand whose
spare bits are not clear is a free value, entry 13). -/
def Obligations.DecodedBytesAreTheEncoding : Prop :=
  ∀ (bs rest : Bytes) (i : Instr), decode bs = .ok (i, rest) →
    ∃ record, bs = record ++ rest ∧ record.length = (encode i).length
      ∧ (clearOf i.spareBits record = true → record = encode i)

/-- The opcode map has exactly the seventeen opcodes of R101 (the spec's own labels, D2): every other one is
reserved whatever follows, and none of these is. -/
def Obligations.OpcodeMapHasSeventeenOpcodes : Prop :=
  ∀ (opcode : Byte) (operands : Bytes),
    decode (opcode :: operands) = .error (.reservedOpcode opcode) ↔
      opcode.toNat ∉ [0x01, 0x02, 0x10, 0x11, 0x12, 0x13, 0x20, 0x21, 0x22, 0x40, 0x41, 0x42, 0x48, 0x49, 0x50, 0x58,
        0x59]

/-- Four command records written out by hand decode to the commands they stand for (opcodes R101, operand order
R102, the layout entry 1). -/
def Obligations.WrittenOutRecordsDecode : Prop :=
  decode [0x02, 1, 0x2A, 0x00] = .ok (.cfgNodeId 1 42, [])
    ∧ decode [0x13, 0, 0x87, 0x01] = .ok (.txPop 0 263, [])
    ∧ decode [0x41, 0x8F, 0xD5, 0x13, 0xDB] = .ok (.crc32cFin 0xDB13D58F, [])
    ∧ decode [0x21, 0, 2, 0xAE, 0x01] = .ok (.rxUnsubscribe 0 2 430, [])

/-- A step takes the next record of the command port and runs the command it decodes to, when its sizes fit `SIZE_W`
bits (R21, R71, R13; the port is the model's, entry 2). A size that does not is received as a free value of that width, and
the command runs (entry 13). -/
def Obligations.StepRunsTheDecodedCommand : Prop :=
  (∀ (s : State) (record rest : Bytes) (later : List Bytes) (i : Instr), s.commandPort = record :: later →
    decode record = .ok (i, rest) → i.fits s.params.sizeW = true → step s = exec i { s with commandPort := later })
    ∧ (∀ (s : State) (record rest : Bytes) (later : List Bytes) (q capacity mtuBytes : Nat),
        s.commandPort = record :: later → decode record = .ok (.txInit q capacity mtuBytes, rest) →
        ∃ c m, c < 2 ^ s.params.sizeW ∧ m < 2 ^ s.params.sizeW ∧ (capacity < 2 ^ s.params.sizeW → c = capacity)
          ∧ (mtuBytes < 2 ^ s.params.sizeW → m = mtuBytes)
          ∧ step s = exec (.txInit q c m) { s with commandPort := later })
    ∧ (∀ (s : State) (record rest : Bytes) (later : List Bytes) (i : Nat) (kind : BitVec 2) (portId : Word16)
          (extent : Nat) (timeout : Word64), s.commandPort = record :: later →
        decode record = .ok (.rxSubscribe i kind portId extent timeout, rest) →
        ∃ e, e < 2 ^ s.params.sizeW ∧ (extent < 2 ^ s.params.sizeW → e = extent)
          ∧ step s = exec (.rxSubscribe i kind portId e timeout) { s with commandPort := later })

/-- What a step does with anything else on the command port: nothing there, it waits (entry 2); a reserved opcode is
answered `ArgumentInvalid` with no other change (R103, D2); bytes that end before a record does stop the model
(entry 13). -/
def Obligations.StepWithNoCommandToRun : Prop :=
  (∀ s : State, s.commandPort = [] → step s = .next s)
    ∧ (∀ (s : State) (opcode op : Byte) (operands : Bytes) (later : List Bytes),
        s.commandPort = (opcode :: operands) :: later → decode (opcode :: operands) = .error (.reservedOpcode op) →
        step s = .next { s with commandPort := later, response := some ⟨.argumentInvalid, .none⟩ })
    ∧ (∀ (s : State) (record : Bytes) (later : List Bytes), s.commandPort = record :: later →
        decode record = .error .truncated → step s = .fault .truncatedCommand)

/-! ### Rules of the whole machine -/

/-- A command that names a context index at or beyond the context file's end returns `ArgumentInvalid`, performs no
allocator transaction and changes no state (R103, D2). -/
def Obligations.IndexOutOfRangeIsArgumentInvalid : Prop :=
  ∀ (i : Instr) (s : State),
    ((∃ k, namedIns i = some k ∧ s.ins.length ≤ k) ∨ (∃ q, namedTxq i = some q ∧ s.txq.length ≤ q)) →
    exec i s = .next { s with response := some ⟨.argumentInvalid, .none⟩ }

/-- A command that names a context whose `valid` bit is 0 returns `ArgumentInvalid` and changes nothing, but for
`INIT` and `TX_INIT` (R344, D12). -/
def Obligations.InvalidContextIsArgumentInvalid : Prop :=
  ∀ (i : Instr) (s : State), createsContext i = false →
    ((∃ k I, namedIns i = some k ∧ s.ins[k]? = some I ∧ I.valid = false)
      ∨ (∃ q Q, namedTxq i = some q ∧ s.txq[q]? = some Q ∧ Q.valid = false)) →
    exec i s = .next { s with response := some ⟨.argumentInvalid, .none⟩ }

/-- Every command, on every state, ends with a response on the response port whose status is one R105 lists for it;
none faults and none is refused (R105, D3; R310, D11). -/
def Obligations.EveryCommandAnswersAListedStatus : Prop :=
  ∀ (i : Instr) (s : State), ∃ t r, exec i s = .next t ∧ t.response = some r ∧ r.status ∈ statusesOf i

/-- `ArgumentInvalid` from any command leaves no state change at all: nothing but the response port differs (R312:
"For `ArgumentInvalid` that is no state change at all, in every command"). -/
def Obligations.ArgumentInvalidChangesNothing : Prop :=
  ∀ (i : Instr) (s t : State), exec i s = .next t → t.status = some .argumentInvalid →
    t = { s with response := some ⟨.argumentInvalid, .none⟩ }

/-- A command touches no context it does not name, and no command changes the command port, the local address, the
parameters or the number of contexts; `TX_PUSH` writes no instance; commands that name no context change nothing but the
response (R20, D5; R343). -/
def Obligations.CommandTouchesOnlyNamedContexts : Prop :=
  ∀ (i : Instr) (s t : State), exec i s = .next t →
    (∀ k, namedIns i ≠ some k → t.ins[k]? = s.ins[k]?) ∧ (∀ q, namedTxq i ≠ some q → t.txq[q]? = s.txq[q]?)
      ∧ t.ins.length = s.ins.length ∧ t.txq.length = s.txq.length
      ∧ t.commandPort = s.commandPort ∧ t.localAddress = s.localAddress ∧ t.params = s.params
      ∧ ((namedTxq i).isSome = true → t.ins = s.ins)
      ∧ ((namedIns i = none ∧ namedTxq i = none) → t = { s with response := t.response })

/-- Two commands that name disjoint contexts, of which at most one requests an allocation, commute (R73, derived by the
spec): either order gives the same contexts, ledger and remaining answers, each command the response it gives alone, and the
same transactions of each command, in the order of the commands. Every object held is older than the next one, as R69's
invariant has it. (Two commands that both request are not stated: the order of the requests names their objects.) -/
def Obligations.DisjointCommandsCommute : Prop :=
  ∀ (a b : Instr) (s sa sb : State), disjointContexts a b → (∀ o ∈ s.objects, o < s.allocPort.nextObj) →
    exec a s = .next sa → exec b s = .next sb → sb.allocPort.requests = s.allocPort.requests →
    ∃ t u, exec b sa = .next t ∧ exec a sb = .next u ∧ t.ins = u.ins ∧ t.txq = u.txq
      ∧ t.response = sb.response ∧ u.response = sa.response
      ∧ t.allocPort.answers = u.allocPort.answers ∧ t.allocPort.requests = u.allocPort.requests
      ∧ t.allocPort.nextObj = u.allocPort.nextObj ∧ t.allocPort.ledger = u.allocPort.ledger
      ∧ ∃ la lb, sa.allocPort.log = s.allocPort.log ++ la ∧ sb.allocPort.log = s.allocPort.log ++ lb
          ∧ t.allocPort.log = s.allocPort.log ++ la ++ lb ∧ u.allocPort.log = s.allocPort.log ++ lb ++ la

/-- What a command answers and what it does to the contexts it names depend on nothing but those contexts, the
allocator port, the parameters and the local address (R20, D5). -/
def Obligations.OutcomeDependsOnNamedContextsOnly : Prop :=
  ∀ (i : Instr) (s₁ s₂ t₁ t₂ : State), (∀ k, namedIns i = some k → s₁.ins[k]? = s₂.ins[k]?) →
    (∀ q, namedTxq i = some q → s₁.txq[q]? = s₂.txq[q]?) → s₁.allocPort = s₂.allocPort → s₁.params = s₂.params →
    s₁.localAddress = s₂.localAddress → exec i s₁ = .next t₁ → exec i s₂ = .next t₂ →
    t₁.response = t₂.response ∧ t₁.allocPort = t₂.allocPort
      ∧ (∀ k, namedIns i = some k → t₁.ins[k]? = t₂.ins[k]?)
      ∧ (∀ q, namedTxq i = some q → t₁.txq[q]? = t₂.txq[q]?)

/-! ### The CRC engines -/

/-- `CRC32C_ADD` completes on every state with the bit-serial form of the accumulator (R122; the polynomial and the
bit order are R120's, D20; the two forms agree by R125) and changes nothing else. -/
def Obligations.Crc32cAddIsBitSerial : Prop :=
  ∀ (acc : Word32) (bytes : Bytes) (s : State),
    exec (.crc32cAdd acc bytes) s =
      .next { s with response := some ⟨.ok, .word32 (crc32cBitwise acc bytes)⟩ }

/-- `CRC32C_FIN` completes on every state with the accumulator exclusive-or `0xFFFFFFFF`, changes nothing else, and is
its own inverse (R123). -/
def Obligations.Crc32cFinComplements : Prop :=
  (∀ (acc : Word32) (s : State),
    exec (.crc32cFin acc) s = .next { s with response := some ⟨.ok, .word32 (acc ^^^ 0xFFFFFFFF#32)⟩ })
    ∧ (∀ acc : Word32, crc32cFin (crc32cFin acc) = acc) ∧ crc32cFin 0xDB13D58F#32 = 0x24EC2A70#32

/-- `CRC32C` completes on every state with the accumulator from the seed over the bytes, output exclusive-or applied,
and changes nothing else; the check value and the empty sequence's value (R124, its polynomial by D20). -/
def Obligations.Crc32cOfBytes : Prop :=
  (∀ (bytes : Bytes) (s : State), exec (.crc32c bytes) s =
      .next { s with response := some ⟨.ok, .word32 (crc32cBitwise 0xFFFFFFFF#32 bytes ^^^ 0xFFFFFFFF#32)⟩ })
    ∧ crc32c [] = 0#32
    ∧ crc32c [0x31, 0x32, 0x33, 0x34, 0x35, 0x36, 0x37, 0x38, 0x39] = 0xE3069283#32

/-- `CRC16_ADD` completes on every state with the bit-serial form of the accumulator (R142; its polynomial by D21) and
changes nothing else. -/
def Obligations.Crc16AddIsBitSerial : Prop :=
  ∀ (acc : Word16) (bytes : Bytes) (s : State),
    exec (.crc16Add acc bytes) s =
      .next { s with response := some ⟨.ok, .word16 (crc16Bitwise acc bytes)⟩ }

/-- `CRC16` completes on every state with the accumulator from the seed `0xFFFF`, no output exclusive-or, and changes
nothing else; the check value (R143, its polynomial by D21). -/
def Obligations.Crc16OfBytes : Prop :=
  (∀ (bytes : Bytes) (s : State), exec (.crc16 bytes) s =
      .next { s with response := some ⟨.ok, .word16 (crc16Bitwise 0xFFFF#16 bytes)⟩ })
    ∧ crc16 [0x31, 0x32, 0x33, 0x34, 0x35, 0x36, 0x37, 0x38, 0x39] = 0x29B1#16

/-- The residue property (R126, derived by the spec, D20): a payload followed by its trailer drives the accumulator to
`0xB798B438`, and a stream of at least four bytes passes just when its last four bytes are, little-endian, the CRC of the
bytes before them. -/
def Obligations.StreamPassesIffTrailerMatches : Prop :=
  (∀ P : Bytes, crc32cAdd 0xFFFFFFFF#32 (P ++ le32Bytes (crc32c P)) = 0xB798B438#32)
    ∧ ∀ S : Bytes, 4 ≤ S.length →
        (crc32cAdd 0xFFFFFFFF#32 S = 0xB798B438#32 ↔
          le32At S (S.length - 4) = crc32c (S.take (S.length - 4)))

/-- No byte sequence shorter than four bytes drives the accumulator from the seed to the residue (R127, derived by the
spec). -/
def Obligations.NoShortStreamPasses : Prop :=
  ∀ S : Bytes, S.length < 4 → crc32cAdd 0xFFFFFFFF#32 S ≠ 0xB798B438#32

/-! ### The specifier builder and the header codec -/

/-- The data specifier codec (R85): a message's is its port-ID, a service's has bit 15 set and bit 14 for a request;
encoding a port-ID in its range and decoding gives kind and port-ID back, and every 16-bit value decodes to exactly one
pair, in range, that encodes to it. -/
def Obligations.DataSpecifierCodecIsABijection : Prop :=
  (∀ p : Word16, p.toNat ≤ 32767 → dataSpecifierOf .message p = p
      ∧ kindOfSpecifier p = .message ∧ portOfSpecifier p = p)
    ∧ (∀ p : Word16, p.toNat ≤ 16383 → dataSpecifierOf .request p = 0xC000#16 ||| p
      ∧ kindOfSpecifier (0xC000#16 ||| p) = .request ∧ portOfSpecifier (0xC000#16 ||| p) = p)
    ∧ (∀ p : Word16, p.toNat ≤ 16383 → dataSpecifierOf .response p = 0x8000#16 ||| p
      ∧ kindOfSpecifier (0x8000#16 ||| p) = .response ∧ portOfSpecifier (0x8000#16 ||| p) = p)
    ∧ (∀ ds : Word16, portInRange (kindOfSpecifier ds) (portOfSpecifier ds) = true
      ∧ dataSpecifierOf (kindOfSpecifier ds) (portOfSpecifier ds) = ds)

/-- `SPEC_BUILD` (R156): with the instance valid, the arguments are accepted just when the kind is not 3, the priority
is at most 7, the port-ID lies in its kind's range, the remote node-ID is absent on a message and present on a service
transfer, and a service transfer's local node is named; then it completes with the routes, the port and the data specifier,
else with `ArgumentInvalid`; nothing but the response changes. The kind numbers (1 response, 2 request) are R106's (D24), the
unset node-ID `0xFFFF` is R84's (D14; entry 17), and the routes and the port are opaque (D35, entry 10). -/
def Obligations.SpecBuildResult : Prop :=
  (∀ (i : Nat) (priority : Byte) (kind : BitVec 2) (portId remote : Word16) (address : Bytes) (s : State)
      (I : Instance), s.validIns i = some I →
    ((priority.toNat ≤ 7 ∧ kind = 0#2 ∧ portId.toNat ≤ 32767 ∧ remote = 0xFFFF#16) →
      exec (.specBuild i priority kind portId remote address) s =
        .next { s with response := some ⟨.ok, .specifier
          { sourceRoute := Config.routeOf .source .message portId I.nodeId remote address
            destinationRoute := Config.routeOf .destination .message portId I.nodeId remote address
            udpPort := Config.udpPort, dataSpecifier := portId }⟩ })
    ∧ ((priority.toNat ≤ 7 ∧ kind = 2#2 ∧ portId.toNat ≤ 16383 ∧ remote ≠ 0xFFFF#16 ∧ I.nodeId ≠ 0xFFFF#16) →
      exec (.specBuild i priority kind portId remote address) s =
        .next { s with response := some ⟨.ok, .specifier
          { sourceRoute := Config.routeOf .source .request portId I.nodeId remote address
            destinationRoute := Config.routeOf .destination .request portId I.nodeId remote address
            udpPort := Config.udpPort, dataSpecifier := 0x8000#16 ||| 0x4000#16 ||| portId }⟩ })
    ∧ ((priority.toNat ≤ 7 ∧ kind = 1#2 ∧ portId.toNat ≤ 16383 ∧ remote ≠ 0xFFFF#16 ∧ I.nodeId ≠ 0xFFFF#16) →
      exec (.specBuild i priority kind portId remote address) s =
        .next { s with response := some ⟨.ok, .specifier
          { sourceRoute := Config.routeOf .source .response portId I.nodeId remote address
            destinationRoute := Config.routeOf .destination .response portId I.nodeId remote address
            udpPort := Config.udpPort, dataSpecifier := 0x8000#16 ||| portId }⟩ })
    ∧ ((kind = 3#2 ∨ 7 < priority.toNat ∨ (kind = 0#2 ∧ (32767 < portId.toNat ∨ remote ≠ 0xFFFF#16))
          ∨ ((kind = 1#2 ∨ kind = 2#2)
            ∧ (16383 < portId.toNat ∨ remote = 0xFFFF#16 ∨ I.nodeId = 0xFFFF#16))) →
      exec (.specBuild i priority kind portId remote address) s =
        .next { s with response := some ⟨.argumentInvalid, .none⟩ }))
    ∧ dataSpecifierOf .message 2222#16 = 0x08AE#16

/-- `HDR_ENCODE` with a frame index in its range completes on every state with a 24-byte header whose every field
stands at its offset, little-endian, and changes nothing else; the spec's example header (R171; the version is D13's, the
CRC's polynomial D21's). -/
def Obligations.HdrEncodeLaysOutTheHeader : Prop :=
  headerBytes 6 0xFFFF 0xFFFF 0x08AE 11 1 true =
      [0x01, 0x06, 0xFF, 0xFF, 0xFF, 0xFF, 0xAE, 0x08, 0x0B, 0, 0, 0, 0, 0, 0, 0, 0x01, 0, 0, 0x80, 0, 0, 0x25, 0x3D]
  ∧ ∀ (p : BitVec 3) (src dst ds : Word16) (tid : Word64) (k : BitVec 31) (eot : Bool) (s : State), 1 ≤ k.toNat →
    ∃ h : Bytes, exec (.hdrEncode p src dst ds tid k eot) s = .next { s with response := some ⟨.ok, .header h⟩ }
      ∧ h.length = 24 ∧ h.getD 0 0#8 = 1#8 ∧ h.getD 1 0#8 = p.setWidth 8
      ∧ le16At h 2 = src ∧ le16At h 4 = dst ∧ le16At h 6 = ds ∧ le64At h 8 = tid
      ∧ (le32At h 16).toNat = k.toNat + (if eot then 2 ^ 31 else 0)
      ∧ h.getD 20 0#8 = 0#8 ∧ h.getD 21 0#8 = 0#8
      ∧ le16At h 22 = crc16Bitwise 0xFFFF#16 (h.take 22)

/-- `HDR_ENCODE` with frame index 0, outside its operand's range, still completes with `OK` and a header, and changes
nothing else; which bytes it gives is a free value (the model's choice, entry 8). -/
def Obligations.HdrEncodeOfIndexZeroCompletes : Prop :=
  ∀ (p : BitVec 3) (src dst ds : Word16) (tid : Word64) (eot : Bool) (s : State),
    ∃ h : Bytes, exec (.hdrEncode p src dst ds tid 0#31 eot) s = .next { s with response := some ⟨.ok, .header h⟩ }

/-- `HDR_DECODE` completes on every state (R175; the validity list is R176's, D37): `Rejected` for a frame shorter than
24 bytes or one that fails a check of R176, else `OK` with the fields at their offsets and the bytes from 24 on; nothing
but the response changes. -/
def Obligations.HdrDecodeResult : Prop :=
  ∀ (frame : Bytes) (s : State),
    ∃ h : Header,
      h.version = frame.getD 0 0#8 ∧ h.priority = frame.getD 1 0#8 ∧ h.sourceNodeId = le16At frame 2
      ∧ h.destinationNodeId = le16At frame 4 ∧ h.dataSpecifier = le16At frame 6 ∧ h.transferId = le64At frame 8
      ∧ h.frameIndex.toNat = (le32At frame 16).toNat % 2 ^ 31
      ∧ (h.eot = true ↔ 2 ^ 31 ≤ (le32At frame 16).toNat) ∧ h.headerCrc = le16At frame 22
      ∧ (h.sot = true ↔ h.frameIndex.toNat = 1)
      ∧ h.kind = kindOfSpecifier h.dataSpecifier ∧ h.portId = portOfSpecifier h.dataSpecifier
      ∧ ((24 ≤ frame.length ∧ h.version = 1#8 ∧ h.priority.toNat ≤ 7 ∧ 1 ≤ h.frameIndex.toNat
            ∧ (h.sourceNodeId = 0xFFFF#16 → h.sot = true ∧ h.eot = true ∧ h.kind = .message)
            ∧ (s.params.verifyHeaderCrc = true → h.headerCrc = crc16Bitwise 0xFFFF#16 (frame.take 22))) →
          exec (.hdrDecode frame) s =
            .next { s with response := some ⟨.ok, .decoded h (frame.drop 24)⟩ })
      ∧ (¬(24 ≤ frame.length ∧ h.version = 1#8 ∧ h.priority.toNat ≤ 7 ∧ 1 ≤ h.frameIndex.toNat
            ∧ (h.sourceNodeId = 0xFFFF#16 → h.sot = true ∧ h.eot = true ∧ h.kind = .message)
            ∧ (s.params.verifyHeaderCrc = true → h.headerCrc = crc16Bitwise 0xFFFF#16 (frame.take 22))) →
          exec (.hdrDecode frame) s = .next { s with response := some ⟨.rejected, .none⟩ })

/-- The header codec's round trip (R179, derived by the spec): a header the encoder writes, followed by any chunk,
decodes to its operands and the chunk, with or without header CRC verification. -/
def Obligations.HeaderRoundTrip : Prop :=
  ∀ (verify : Bool) (p : BitVec 3) (src dst ds : Word16) (tid : Word64) (k : BitVec 31) (eot : Bool) (chunk : Bytes),
    1 ≤ k.toNat → (src = 0xFFFF#16 → k.toNat = 1 ∧ eot = true ∧ kindOfSpecifier ds = .message) →
    ∃ h : Header, decodeFrame verify (headerBytes p src dst ds tid k eot ++ chunk) = some (h, chunk)
      ∧ h.priority = p.setWidth 8 ∧ h.sourceNodeId = src ∧ h.destinationNodeId = dst ∧ h.dataSpecifier = ds
      ∧ h.transferId = tid ∧ h.frameIndex = k ∧ h.eot = eot
      ∧ h.headerCrc = crc16 ((headerBytes p src dst ds tid k eot).take 22)

/-- Without `VERIFY_HEADER_CRC` the reserved field and the header CRC never matter: two frames that differ only in
bytes 20 to 23 decode alike but for the stored CRC (R177, R178, D17, D19). -/
def Obligations.ReservedAndHeaderCrcAreIgnored : Prop :=
  ∀ a x y c : Bytes, a.length = 20 → x.length = 4 → y.length = 4 →
    (decodeFrame false (a ++ x ++ c)).map (fun r => ({ r.1 with headerCrc := 0#16 }, r.2)) =
      (decodeFrame false (a ++ y ++ c)).map (fun r => ({ r.1 with headerCrc := 0#16 }, r.2))

/-! ### Instances and subscriptions -/

/-- `INIT` of an existing context completes: the context is valid, anonymous and without subscriptions; what it held
leaves the ledger with no transaction; nothing else changes (R241, D25; R352, D51). -/
def Obligations.InitResult : Prop :=
  ∀ (i : Nat) (s : State) (old : Instance), s.ins[i]? = some old →
    exec (.init i) s = .next
      { s with
        ins := s.ins.set i { valid := true, nodeId := 0xFFFF#16,
                             subs := { message := [], response := [], request := [] } }
        allocPort := { s.allocPort with ledger := s.allocPort.ledger.filter (fun o => decide (o ∉ old.objects)) }
        response := some ⟨.ok, .none⟩ }

/-- `CFG_NODE_ID` of a valid context completes: its node-ID is the operand, nothing else changes (R242, D25). -/
def Obligations.CfgNodeIdResult : Prop :=
  ∀ (i : Nat) (n : Word16) (s : State) (I : Instance), s.ins[i]? = some I → I.valid = true →
    exec (.cfgNodeId i n) s = .next
      { s with ins := s.ins.set i { I with nodeId := n }, response := some ⟨.ok, .none⟩ }

/-- `RX_SUBSCRIBE` on a valid instance with a legal kind and a port-ID in range (R243, R249 by D39, R251 by D52): over
an existing subscription it answers `Replaced`, the old one's sessions and buffers freed as one set; otherwise it answers
`Created` with no allocator transaction, or `ArgumentInvalid` where the bound is reached. The new subscription has no
sessions; nothing else changes. -/
def Obligations.SubscribeResult : Prop :=
  ∀ (i : Nat) (kind : BitVec 2) (k : TransferKind) (p : Word16) (extent : Nat) (timeout : Word64) (s : State)
      (I : Instance), s.validIns i = some I → kindOf kind = some k → portInRange k p = true →
    (∀ old, I.findSub k p = some old →
      exec (.rxSubscribe i kind p extent timeout) s = .next
        { s with
          ins := s.ins.set i (I.putSub k p ⟨p, extent, timeout, []⟩)
          allocPort := s.allocPort.freeSet old.objects
          response := some ⟨.replaced, .handle ⟨k, p⟩⟩ })
    ∧ (I.findSub k p = none →
        (s.params.maxSubscriptions = none
          ∨ ∃ m, s.params.maxSubscriptions = some m
              ∧ I.subs.message.length + I.subs.response.length + I.subs.request.length < m) →
        exec (.rxSubscribe i kind p extent timeout) s = .next
          { s with ins := s.ins.set i (I.putSub k p ⟨p, extent, timeout, []⟩)
                   response := some ⟨.created, .handle ⟨k, p⟩⟩ })
    ∧ (∀ m, I.findSub k p = none → s.params.maxSubscriptions = some m →
        m ≤ I.subs.message.length + I.subs.response.length + I.subs.request.length →
        exec (.rxSubscribe i kind p extent timeout) s = .next
          { s with response := some ⟨.argumentInvalid, .none⟩ })

/-- `RX_SUBSCRIBE` with kind 3 or with a port-ID beyond its kind's range answers `ArgumentInvalid` and changes nothing
(R106, D24; R249, D39; R243). -/
def Obligations.SubscribeArgumentErrors : Prop :=
  ∀ (i : Nat) (kind : BitVec 2) (p : Word16) (extent : Nat) (timeout : Word64) (s : State) (I : Instance),
    s.validIns i = some I →
    (kind = 3#2 ∨ (kind = 0#2 ∧ 32767 < p.toNat) ∨ ((kind = 1#2 ∨ kind = 2#2) ∧ 16383 < p.toNat)) →
    exec (.rxSubscribe i kind p extent timeout) s = .next { s with response := some ⟨.argumentInvalid, .none⟩ }

/-- `RX_UNSUBSCRIBE` (R245): `ArgumentInvalid` where the context is invalid or the kind is 3; `NotFound` with no change
where there is no such subscription, a port-ID beyond its kind's range included; else `Removed`, the subscription gone and
its sessions and buffers freed as one set; never an `Alloc`. -/
def Obligations.UnsubscribeResult : Prop :=
  ∀ (i : Nat) (kind : BitVec 2) (p : Word16) (s : State) (I : Instance), s.ins[i]? = some I →
    ((I.valid = false ∨ kind = 3#2) →
      exec (.rxUnsubscribe i kind p) s = .next { s with response := some ⟨.argumentInvalid, .none⟩ })
    ∧ ∀ k, I.valid = true → kindOf kind = some k →
      (I.findSub k p = none →
        exec (.rxUnsubscribe i kind p) s = .next { s with response := some ⟨.notFound, .none⟩ })
      ∧ (I.subs.WF → portIdMax k < p.toNat →
        exec (.rxUnsubscribe i kind p) s = .next { s with response := some ⟨.notFound, .none⟩ })
      ∧ (∀ old, I.findSub k p = some old →
        exec (.rxUnsubscribe i kind p) s = .next
          { s with
            ins := s.ins.set i (I.dropSub k p)
            allocPort := s.allocPort.freeSet old.objects
            response := some ⟨.removed, .none⟩ })

/-- After `Removed`, `Created` or `Replaced` no trace of an old subscription remains: it is gone, or has the new extent
and timeout and no session; every other subscription of the instance is as it was (R246, derived by the spec). -/
def Obligations.SubscriptionsForgetTheOldOne : Prop :=
  ∀ (i : Nat) (kind : BitVec 2) (k : TransferKind) (p : Word16) (extent : Nat) (timeout : Word64) (s t : State)
      (I : Instance), s.ins[i]? = some I → kindOf kind = some k →
    (exec (.rxUnsubscribe i kind p) s = .next t → t.status = some .removed →
      ∃ J, t.ins[i]? = some J ∧ J.findSub k p = none ∧ J.nodeId = I.nodeId ∧ J.valid = true
        ∧ ∀ k' p', (k', p') ≠ (k, p) → J.findSub k' p' = I.findSub k' p')
    ∧ (exec (.rxSubscribe i kind p extent timeout) s = .next t →
        (t.status = some .created ∨ t.status = some .replaced) →
      ∃ J, t.ins[i]? = some J ∧ J.findSub k p = some ⟨p, extent, timeout, []⟩ ∧ J.nodeId = I.nodeId ∧ J.valid = true
        ∧ ∀ k' p', (k', p') ≠ (k, p) → J.findSub k' p' = I.findSub k' p')

/-- The frees of one teardown: each object once at most as often as it is owned, the log growing by one set, in rising
order, of exactly the torn-down objects, and the ledger losing exactly these; with no objects nothing happens (R244, R70 by
D53, entry 12). -/
def Obligations.TeardownFreesExactlyTheObjects : Prop :=
  ∀ (objs : List ObjId) (a : AllocPort),
    (objs = [] → a.freeSet objs = a)
    ∧ (objs ≠ [] → ∃ set : List ObjId, (a.freeSet objs).log = a.log ++ [.freeSet set]
        ∧ set.Perm objs ∧ set.Pairwise (fun x y => x ≤ y)
        ∧ (∀ o, o ∈ (a.freeSet objs).ledger ↔ o ∈ a.ledger ∧ o ∉ objs)
        ∧ (a.freeSet objs).answers = a.answers ∧ (a.freeSet objs).requests = a.requests
        ∧ (a.freeSet objs).nextObj = a.nextObj)

/-! ### Transmission -/

/-- `TX_INIT` of an existing context completes: an empty valid queue with the operands as given; what the old one held
leaves the ledger with no transaction; nothing else changes (R190, D27, D51). -/
def Obligations.TxInitResult : Prop :=
  ∀ (q capacity mtu : Nat) (s : State) (old : TxQueue), s.txq[q]? = some old →
    exec (.txInit q capacity mtu) s = .next
      { s with
        txq := s.txq.set q { valid := true, capacity := capacity, mtuBytes := mtu, size := 0, nextSeq := 0, items := [] }
        allocPort := { s.allocPort with ledger := s.allocPort.ledger.filter (fun o => decide (o ∉ old.objects)) }
        response := some ⟨.ok, .none⟩ }

/-- The chunks of a stream, in index order, concatenate to the stream; all but the last have the chunk size, the last
has at least one byte and at most the chunk size; there is one chunk just when the stream fits it (R193, R196, derived by
the spec). -/
def Obligations.ChunksAreTheStream : Prop :=
  ∀ (S : Bytes) (C : Nat), 0 < C → 0 < S.length →
    ((List.range (frameCount S.length C)).map (fun j => chunkAt S C (j + 1))).flatten = S
      ∧ (∀ j, j + 1 < frameCount S.length C → (chunkAt S C (j + 1)).length = C)
      ∧ 1 ≤ (chunkAt S C (frameCount S.length C)).length ∧ (chunkAt S C (frameCount S.length C)).length ≤ C
      ∧ (frameCount S.length C = 1 ↔ S.length ≤ C)

/-- The frames of a transfer decode to its header fields (R197): index `k` for the `k`-th of `n`, end-of-transfer on the
last only, and its chunk. -/
def Obligations.FramesCarryTheTransfer : Prop :=
  ∀ (verify : Bool) (f : FrameFields) (payload : Bytes) (C k : Nat), 0 < C → 1 ≤ k →
    k ≤ frameCount (payload.length + 4) C → frameCount (payload.length + 4) C ≤ 2 ^ 31 - 1 →
    (f.source = 0xFFFF#16 → frameCount (payload.length + 4) C = 1 ∧ kindOfSpecifier f.dataSpecifier = .message) →
    ∃ (frame : Bytes) (h : Header), (framesOf f payload C)[k - 1]? = some frame
      ∧ decodeFrame verify frame = some (h, chunkAt (payload ++ le32Bytes (crc32c payload)) C k)
      ∧ h.priority = f.priority.setWidth 8 ∧ h.sourceNodeId = f.source ∧ h.destinationNodeId = f.destination
      ∧ h.dataSpecifier = f.dataSpecifier ∧ h.transferId = f.transferId ∧ h.frameIndex.toNat = k
      ∧ (h.eot = true ↔ k = frameCount (payload.length + 4) C)

/-- `TX_PUSH` completes (R191): valid contexts, arguments the builder accepts, an MTU above the header, a frame count in
the index's range and within the capacity, a named node or one frame, and every allocation granted. All frames are queued:
ids from `next_seq` on, linked in order, each frame its header and its slice of payload and trailer; `size` and `next_seq`
grow by the number of frames; one `Alloc` per frame in ascending index; nothing else changes. -/
def Obligations.TxPushCommitsEveryFrame : Prop :=
  ∀ (q i : Nat) (deadline : Word64) (priority : Byte) (kind : BitVec 2) (k : TransferKind) (p remote : Word16)
      (tid : Word64) (payload : Bytes) (s : State) (Q : TxQueue) (I : Instance) (C n : Nat) (S : Bytes),
    s.validTxq q = some Q → s.validIns i = some I → kindOf kind = some k → priority.toNat ≤ 7 →
    portInRange k p = true → nodesSuitKind I.nodeId k remote = true → 24 < Q.mtuBytes → C = Q.mtuBytes - 24 →
    S = payload ++ le32Bytes (crc32c payload) → n = (payload.length + 4 + C - 1) / C → n ≤ 2 ^ 31 - 1 →
    (I.nodeId = 0xFFFF#16 → n ≤ 1) → Q.size + n ≤ Q.capacity → (∀ j < n, s.allocPort.answer j = true) →
    exec (.txPush q i deadline priority kind p remote tid payload) s = .next
      { s with
        txq := s.txq.set q
          { Q with
            size := Q.size + n
            nextSeq := Q.nextSeq + n
            items := insertItems ((List.range n).map (fun j =>
              { id := Q.nextSeq + j, priority := priority.setWidth 3, transferId := tid
                frame := headerBytes (priority.setWidth 3) I.nodeId remote (dataSpecifierOf k p) tid
                  (BitVec.ofNat 31 (j + 1)) (decide (j + 1 = n)) ++ (S.drop (j * C)).take C
                deadline := deadline
                nextInTransfer := if j + 1 = n then none else some (Q.nextSeq + j + 1)
                specifier := specifierOf I.nodeId k p remote s.localAddress
                obj := s.allocPort.nextObj + j })) Q.items }
        allocPort :=
          { answers := s.allocPort.answers.drop n
            requests := s.allocPort.requests + n
            nextObj := s.allocPort.nextObj + n
            ledger := s.allocPort.ledger ++ (List.range n).map (fun j => s.allocPort.nextObj + j)
            log := s.allocPort.log ++ (List.range n).map (fun j =>
              .alloc (s.params.txItemOverhead + 24 + ((S.drop (j * C)).take C).length)
                (some (s.allocPort.nextObj + j))) }
        response := some ⟨.ok, .framesEnqueued n⟩ }

/-- `TX_PUSH` whose `Alloc` for frame `m + 1` is denied (R201): the frames allocated so far for that transfer are freed in
order, the ledger is as before, every context is unchanged, and the status is `OutOfMemory`. -/
def Obligations.TxPushDeniedIsAtomic : Prop :=
  ∀ (q i : Nat) (deadline : Word64) (priority : Byte) (kind : BitVec 2) (k : TransferKind) (p remote : Word16)
      (tid : Word64) (payload : Bytes) (s : State) (Q : TxQueue) (I : Instance) (C n m : Nat) (S : Bytes),
    s.validTxq q = some Q → s.validIns i = some I → kindOf kind = some k → priority.toNat ≤ 7 →
    portInRange k p = true → nodesSuitKind I.nodeId k remote = true → 24 < Q.mtuBytes → C = Q.mtuBytes - 24 →
    S = payload ++ le32Bytes (crc32c payload) → n = (payload.length + 4 + C - 1) / C → n ≤ 2 ^ 31 - 1 →
    (I.nodeId = 0xFFFF#16 → n ≤ 1) →
    Q.size + n ≤ Q.capacity → m < n → (∀ j < m, s.allocPort.answer j = true) → s.allocPort.answer m = false →
    (∀ o ∈ s.allocPort.ledger, o < s.allocPort.nextObj) →
    exec (.txPush q i deadline priority kind p remote tid payload) s = .next
      { s with
        allocPort :=
          { answers := s.allocPort.answers.drop (m + 1)
            requests := s.allocPort.requests + (m + 1)
            nextObj := s.allocPort.nextObj + m
            ledger := s.allocPort.ledger
            log := s.allocPort.log
              ++ (List.range m).map (fun j =>
                .alloc (s.params.txItemOverhead + 24 + ((S.drop (j * C)).take C).length)
                  (some (s.allocPort.nextObj + j)))
              ++ [.alloc (s.params.txItemOverhead + 24 + ((S.drop (m * C)).take C).length) none]
              ++ (List.range m).map (fun j => .free (s.allocPort.nextObj + j)) }
        response := some ⟨.outOfMemory, .none⟩ }

/-- `TX_PUSH` with a bad argument answers `ArgumentInvalid`, and a push beyond the capacity answers `OutOfMemory`, both
with no allocator transaction and no change (R192, R194, R193 by D27, D29, U6; R198, D28; argument tests first, R316,
D36). -/
def Obligations.TxPushTurnedAway : Prop :=
  ∀ (q i : Nat) (deadline : Word64) (priority : Byte) (kind : BitVec 2) (p remote : Word16) (tid : Word64)
      (payload : Bytes) (s : State) (Q : TxQueue) (I : Instance) (C n : Nat),
    s.validTxq q = some Q → s.validIns i = some I → C = Q.mtuBytes - 24 → n = (payload.length + 4 + C - 1) / C →
    ((kind = 3#2 ∨ 7 < priority.toNat ∨ (kind = 0#2 ∧ (32767 < p.toNat ∨ remote ≠ 0xFFFF#16))
        ∨ ((kind = 1#2 ∨ kind = 2#2) ∧ (16383 < p.toNat ∨ remote = 0xFFFF#16 ∨ I.nodeId = 0xFFFF#16))
        ∨ Q.mtuBytes ≤ 24 ∨ 2 ^ 31 - 1 < n ∨ (I.nodeId = 0xFFFF#16 ∧ 1 < n)) →
      exec (.txPush q i deadline priority kind p remote tid payload) s =
        .next { s with response := some ⟨.argumentInvalid, .none⟩ })
    ∧ (¬(kind = 3#2 ∨ 7 < priority.toNat ∨ (kind = 0#2 ∧ (32767 < p.toNat ∨ remote ≠ 0xFFFF#16))
        ∨ ((kind = 1#2 ∨ kind = 2#2) ∧ (16383 < p.toNat ∨ remote = 0xFFFF#16 ∨ I.nodeId = 0xFFFF#16))
        ∨ Q.mtuBytes ≤ 24 ∨ 2 ^ 31 - 1 < n ∨ (I.nodeId = 0xFFFF#16 ∧ 1 < n)) →
      Q.capacity < Q.size + n →
      exec (.txPush q i deadline priority kind p remote tid payload) s =
        .next { s with response := some ⟨.outOfMemory, .none⟩ })

/-- `TX_PEEK` (R222): `ArgumentInvalid` where the context is invalid, `Empty` where `size` is 0, else the first item's
values; only the response changes, so a second peek answers the same; and in a queue that meets R35 the peeked item is the
minimum of the order. -/
def Obligations.TxPeekReturnsTheMinimum : Prop :=
  ∀ (q : Nat) (s : State) (Q : TxQueue), s.txq[q]? = some Q →
    (Q.valid = false → exec (.txPeek q) s = .next { s with response := some ⟨.argumentInvalid, .none⟩ })
    ∧ (Q.valid = true → Q.size = 0 → exec (.txPeek q) s = .next { s with response := some ⟨.empty, .none⟩ })
    ∧ (∀ m rest, Q.valid = true → Q.size ≠ 0 → Q.items = m :: rest → ∃ t,
        t = { s with response := some ⟨.ok, .peeked m.id m.frame m.deadline m.nextInTransfer m.specifier⟩ }
        ∧ exec (.txPeek q) s = .next t ∧ exec (.txPeek q) t = .next t
        ∧ (Q.Inv → ∀ e ∈ rest, m.before e = true))

/-- `TX_POP` of a valid queue (R223, D33): the named item comes back whole and leaves the queue and the ledger with no
`Free`, the order of the rest unchanged and `next_seq` kept; an id not in the queue answers `Empty` with no change. -/
def Obligations.TxPopRemovesTheNamedItem : Prop :=
  ∀ (q id : Nat) (s : State) (Q : TxQueue), s.validTxq q = some Q →
    ((∀ m ∈ Q.items, m.id ≠ id) → exec (.txPop q id) s = .next { s with response := some ⟨.empty, .none⟩ })
    ∧ (∀ front m back, Q.items = front ++ m :: back → m.id = id → (∀ e ∈ front, e.id ≠ id) →
        exec (.txPop q id) s = .next
          { s with
            txq := s.txq.set q { Q with items := front ++ back, size := Q.size - 1 }
            allocPort := { s.allocPort with ledger := s.allocPort.ledger.filter (fun o => decide (o ≠ m.obj)) }
            response := some ⟨.ok, .item m⟩ })

/-- Where a new item goes (R221): before the first queued item that it precedes by lower priority value, or by equal
priority and lower transfer-ID, and after every other one, as the document's comparator says; here for a queue that meets
R35 and an item newer than all of it. -/
def Obligations.NewItemGoesBehindItsEquals : Prop :=
  ∀ (Q : TxQueue) (n : TxItem), Q.Inv → (∀ e ∈ Q.items, e.id < n.id) →
    insertItem n Q.items =
      Q.items.filter (fun e => !(decide (n.priority.toNat < e.priority.toNat)
        || (decide (n.priority = e.priority) && decide (n.transferId.toNat < e.transferId.toNat))))
      ++ n :: Q.items.filter (fun e => decide (n.priority.toNat < e.priority.toNat)
        || (decide (n.priority = e.priority) && decide (n.transferId.toNat < e.transferId.toNat)))

/-! ### Reception -/

/-- The silent outcomes of `RX_ACCEPT` that change nothing (R260 steps 2 to 4, 6, 8; R261 by D38, R263 by D49, R264 by
D40, R268 by D44): a malformed frame, a service frame for another node, no subscription, no session and not a first frame, and
a frame of another transfer or transport that restarts nothing. -/
def Obligations.AcceptIgnoresNoise : Prop :=
  ∀ (i : Nat) (ts : Word64) (frame : Bytes) (rti : Byte) (s : State) (I : Instance), s.validIns i = some I →
    (decodeFrame s.params.verifyHeaderCrc frame = none →
      exec (.rxAccept i ts frame rti) s = .next { s with response := some ⟨.rejected, .none⟩ })
    ∧ (∀ h chunk, decodeFrame s.params.verifyHeaderCrc frame = some (h, chunk) → h.kind ≠ .message →
        (I.nodeId = 0xFFFF#16 ∨ h.destinationNodeId ≠ I.nodeId) →
        exec (.rxAccept i ts frame rti) s = .next { s with response := some ⟨.noMatch, .none⟩ })
    ∧ (∀ h chunk, decodeFrame s.params.verifyHeaderCrc frame = some (h, chunk) →
        (h.kind = .message ∨ (I.nodeId ≠ 0xFFFF#16 ∧ h.destinationNodeId = I.nodeId)) →
        I.findSub h.kind h.portId = none →
        exec (.rxAccept i ts frame rti) s = .next { s with response := some ⟨.noMatch, .none⟩ })
    ∧ (∀ sub h chunk, s.Finds i frame I sub h chunk → h.sourceNodeId ≠ 0xFFFF#16 →
        Map.find h.sourceNodeId.toNat sub.sessions = none → h.frameIndex.toNat ≠ 1 →
        exec (.rxAccept i ts frame rti) s =
          .next { s with response := some ⟨.noMatch, .handle ⟨h.kind, h.portId⟩⟩ })
    ∧ (∀ sub h chunk x, s.FindsSession i frame I sub h chunk x →
        (h.transferId ≠ x.transferId ∨ rti ≠ x.redundantTransportIndex) →
        (h.sot = true → ¬x.exceeds sub ts
          ∧ (rti = x.redundantTransportIndex → (x.transferId - h.transferId).toNat ≤ 1)) →
        exec (.rxAccept i ts frame rti) s =
          .next { s with response := some ⟨.noMatch, .handle ⟨h.kind, h.portId⟩⟩ })

/-- A good anonymous transfer completes without any session (R276, D47): delivered from its one chunk, trailer stripped,
cut at the extent; no context changes. With bytes to keep, one `Alloc` of exactly that many is granted and the buffer handed
over; with none, no allocation; denied, `OutOfMemory`; a bad or short trailer is the silent `NoMatch`. -/
def Obligations.AcceptAnonymousIsStateless : Prop :=
  ∀ (i : Nat) (ts : Word64) (frame : Bytes) (rti : Byte) (s : State) (I : Instance) (sub : Subscription) (h : Header)
      (chunk : Bytes), s.Finds i frame I sub h chunk → h.sourceNodeId = 0xFFFF#16 →
    ((chunk.length < 4 ∨ crc32cAdd 0xFFFFFFFF#32 chunk ≠ 0xB798B438#32) →
      exec (.rxAccept i ts frame rti) s =
        .next { s with response := some ⟨.noMatch, .handle ⟨h.kind, h.portId⟩⟩ })
    ∧ (4 ≤ chunk.length → crc32cAdd 0xFFFFFFFF#32 chunk = 0xB798B438#32 → min sub.extent (chunk.length - 4) = 0 →
        exec (.rxAccept i ts frame rti) s = .next
          { s with response := some ⟨.transferComplete, .transfer
              { metadata := ⟨h.priority.setWidth 3, .message, h.portId, 0xFFFF#16, h.transferId⟩
                timestamp := ts, payload := none, payloadSize := 0 } ⟨h.kind, h.portId⟩⟩ })
    ∧ (4 ≤ chunk.length → crc32cAdd 0xFFFFFFFF#32 chunk = 0xB798B438#32 → 0 < min sub.extent (chunk.length - 4) →
        s.allocPort.answer 0 = true →
        exec (.rxAccept i ts frame rti) s = .next
          { s with
            allocPort := (s.allocPort.alloc (min sub.extent (chunk.length - 4))).2.release [s.allocPort.nextObj]
            response := some ⟨.transferComplete, .transfer
              { metadata := ⟨h.priority.setWidth 3, .message, h.portId, 0xFFFF#16, h.transferId⟩
                timestamp := ts
                payload := some ⟨s.allocPort.nextObj, min sub.extent (chunk.length - 4),
                  chunk.take (min sub.extent (chunk.length - 4))⟩
                payloadSize := min sub.extent (chunk.length - 4) } ⟨h.kind, h.portId⟩⟩ })
    ∧ (4 ≤ chunk.length → crc32cAdd 0xFFFFFFFF#32 chunk = 0xB798B438#32 → 0 < min sub.extent (chunk.length - 4) →
        s.allocPort.answer 0 = false →
        exec (.rxAccept i ts frame rti) s = .next
          { s with
            allocPort := (s.allocPort.alloc (min sub.extent (chunk.length - 4))).2
            response := some ⟨.outOfMemory, .handle ⟨h.kind, h.portId⟩⟩ })

/-- A first frame from a node with no session (R264, D40): with the session's allocation denied, `OutOfMemory` and no
session; granted, the outcome is that of the same frame arriving at a fresh Idle session that expects it on its transport. -/
def Obligations.AcceptCreatesASession : Prop :=
  ∀ (i : Nat) (ts : Word64) (frame : Bytes) (rti : Byte) (s : State) (I : Instance) (sub : Subscription) (h : Header)
      (chunk : Bytes), s.Finds i frame I sub h chunk → h.sourceNodeId ≠ 0xFFFF#16 →
    Map.find h.sourceNodeId.toNat sub.sessions = none → h.frameIndex.toNat = 1 →
    (s.allocPort.answer 0 = false →
      exec (.rxAccept i ts frame rti) s = .next
        { s with allocPort := (s.allocPort.alloc s.params.rxSessionSize).2
                 response := some ⟨.outOfMemory, .handle ⟨h.kind, h.portId⟩⟩ })
    ∧ (s.allocPort.answer 0 = true →
      exec (.rxAccept i ts frame rti) s =
        exec (.rxAccept i ts frame rti)
          ((s.withSession i I sub h
            { transferTimestamp := ts, totalPayloadSize := 0, payloadSize := 0, payload := none, crc := 0xFFFFFFFF#32,
              transferId := h.transferId, redundantTransportIndex := rti, lastFrameIndex := 0#31,
              obj := s.allocPort.nextObj }).setAlloc (s.allocPort.alloc s.params.rxSessionSize).2))

/-- A first frame that is timed out, on any transport, or whose transfer-ID differs by more than 1 on the session's
transport (R265 by D42, R267, R275 by D41): the outcome is that of the same frame arriving at the session with its buffer freed
and everything reset, expecting the frame's transfer-ID on the frame's transport. -/
def Obligations.AcceptRestartsToAFirstFrame : Prop :=
  ∀ (i : Nat) (ts : Word64) (frame : Bytes) (rti : Byte) (s : State) (I : Instance) (sub : Subscription) (h : Header)
      (chunk : Bytes) (x : Session), s.FindsSession i frame I sub h chunk x → h.frameIndex.toNat = 1 →
    (x.exceeds sub ts ∨ (rti = x.redundantTransportIndex ∧ 1 < (x.transferId - h.transferId).toNat)) →
    exec (.rxAccept i ts frame rti) s =
      exec (.rxAccept i ts frame rti)
        ((s.withSession i I sub h
          { x with payload := none, totalPayloadSize := 0, payloadSize := 0, crc := 0xFFFFFFFF#32,
                   lastFrameIndex := 0#31, transferId := h.transferId, redundantTransportIndex := rti }).setAlloc
          (match x.payload with
            | some b => s.allocPort.free b.obj
            | none => s.allocPort))

/-- A frame of the expected transfer on the session's transport whose index is not the last one plus one, first frames
included (R268, D44): `OutOfOrder`, the buffer freed, the session Idle and expecting the next transfer-ID (R266, D43). -/
def Obligations.AcceptOutOfSequenceResetsTheSession : Prop :=
  ∀ (i : Nat) (ts : Word64) (frame : Bytes) (rti : Byte) (s : State) (I : Instance) (sub : Subscription) (h : Header)
      (chunk : Bytes) (x : Session), s.FindsSession i frame I sub h chunk x → h.transferId = x.transferId →
    rti = x.redundantTransportIndex → h.frameIndex.toNat ≠ x.lastFrameIndex.toNat + 1 →
    (h.sot = true → ¬x.exceeds sub ts) →
    exec (.rxAccept i ts frame rti) s = .next
      { s.withSession i I sub h
          { x with payload := none, totalPayloadSize := 0, payloadSize := 0, crc := 0xFFFFFFFF#32,
                   lastFrameIndex := 0#31, transferId := x.transferId + 1#64 } with
        allocPort := match x.payload with
          | some b => s.allocPort.free b.obj
          | none => s.allocPort
        response := some ⟨.outOfOrder, .handle ⟨h.kind, h.portId⟩⟩ }

/-- A frame taken into its session that is not the last (R269, R270 by D45, R274 by D36): the CRC runs over the whole
chunk, the count grows by it (a count beyond `SIZE_W` bits is a free value within its limits, entry 7), the chunk's bytes
up to the extent join the buffer (allocated at the extent when the first byte must be stored), a first frame's timestamp is
kept, and the status is the silent `NoMatch`; nothing else changes. -/
def Obligations.AcceptAccumulates : Prop :=
  ∀ (i : Nat) (ts : Word64) (frame : Bytes) (rti : Byte) (s : State) (I : Instance) (sub : Subscription) (h : Header)
      (chunk : Bytes) (x : Session), s.FindsSession i frame I sub h chunk x → x.Inv sub.extent →
    x.Expects sub h ts rti → h.eot = false →
    (x.payload = none → 0 < min chunk.length (sub.extent - x.payloadSize) → s.allocPort.answer 0 = true) →
    ∃ y : Session,
      y.transferTimestamp = (if h.sot then ts else x.transferTimestamp)
      ∧ (x.totalPayloadSize + chunk.length < 2 ^ s.params.sizeW →
          y.totalPayloadSize = x.totalPayloadSize + chunk.length)
      ∧ (2 ^ s.params.sizeW ≤ x.totalPayloadSize + chunk.length →
          sub.extent ≤ y.totalPayloadSize ∧ 4 ≤ y.totalPayloadSize
            ∧ (sub.extent < 2 ^ s.params.sizeW → 4 < 2 ^ s.params.sizeW → y.totalPayloadSize < 2 ^ s.params.sizeW))
      ∧ y.payloadSize = min sub.extent (x.totalPayloadSize + chunk.length)
      ∧ y.stored = (x.stored ++ chunk).take sub.extent
      ∧ y.crc = crc32cAdd x.crc chunk ∧ y.transferId = x.transferId
      ∧ y.redundantTransportIndex = x.redundantTransportIndex ∧ y.lastFrameIndex = h.frameIndex ∧ y.obj = x.obj
      ∧ y.payload = (match x.payload with
          | some b => some { b with data := y.stored }
          | none => if 0 < min chunk.length (sub.extent - x.payloadSize)
            then some ⟨s.allocPort.nextObj, sub.extent, y.stored⟩ else none)
      ∧ exec (.rxAccept i ts frame rti) s = .next
          { s.withSession i I sub h y with
            allocPort := if x.payload = none ∧ 0 < min chunk.length (sub.extent - x.payloadSize)
              then (s.allocPort.alloc sub.extent).2 else s.allocPort
            response := some ⟨.noMatch, .handle ⟨h.kind, h.portId⟩⟩ }

/-- The last frame of a transfer with a good CRC (R271, R272 by D46, D48): `TransferComplete` with the completing frame's
metadata, the first frame's timestamp and the payload without its trailer, cut at the extent (where the stream count exceeds
`SIZE_W` bits, cut within the bytes stored, entry 7); the session's own buffer, or the one granted for this frame, is
handed over, out of the ledger with no `Free` (R32); the session is Idle and expects the next transfer-ID (R266, D43; the
residue is D20's); nothing else changes. -/
def Obligations.AcceptDeliversAGoodTransfer : Prop :=
  ∀ (i : Nat) (ts : Word64) (frame : Bytes) (rti : Byte) (s : State) (I : Instance) (sub : Subscription) (h : Header)
      (chunk : Bytes) (x : Session), s.FindsSession i frame I sub h chunk x → x.Inv sub.extent →
    x.Expects sub h ts rti → h.eot = true → 4 ≤ x.totalPayloadSize + chunk.length →
    crc32cAdd x.crc chunk = 0xB798B438#32 →
    (x.payload = none → 0 < min chunk.length (sub.extent - x.payloadSize) → s.allocPort.answer 0 = true) →
    ∃ tr : Transfer,
      tr.metadata = ⟨h.priority.setWidth 3, h.kind, h.portId, h.sourceNodeId, h.transferId⟩
      ∧ tr.timestamp = (if h.sot then ts else x.transferTimestamp)
      ∧ (x.totalPayloadSize + chunk.length < 2 ^ s.params.sizeW →
          tr.payloadSize = min sub.extent (x.totalPayloadSize + chunk.length - 4))
      ∧ tr.payloadSize ≤ min sub.extent (x.totalPayloadSize + chunk.length)
      ∧ tr.payload = (match x.payload with
          | some b => some { b with data := (x.stored ++ chunk).take sub.extent }
          | none => if 0 < min chunk.length (sub.extent - x.payloadSize)
            then some ⟨s.allocPort.nextObj, sub.extent, (x.stored ++ chunk).take sub.extent⟩ else none)
      ∧ tr.bytes = (x.stored ++ chunk).take tr.payloadSize
      ∧ exec (.rxAccept i ts frame rti) s = .next
          { s.withSession i I sub h
              { x with transferTimestamp := if h.sot then ts else x.transferTimestamp, payload := none,
                       totalPayloadSize := 0, payloadSize := 0, crc := 0xFFFFFFFF#32, lastFrameIndex := 0#31,
                       transferId := x.transferId + 1#64 } with
            allocPort := match x.payload with
              | some b => s.allocPort.release [b.obj]
              | none => if 0 < min chunk.length (sub.extent - x.payloadSize)
                then (s.allocPort.alloc sub.extent).2.release [s.allocPort.nextObj] else s.allocPort
            response := some ⟨.transferComplete, .transfer tr ⟨h.kind, h.portId⟩⟩ }

/-- A last frame after which the CRC residue is wrong (R273): the transfer is silently discarded, the buffer freed, the
session reset and the status the silent `NoMatch`; the session then expects the next transfer-ID (R266, D43); the residue
is D20's. -/
def Obligations.AcceptDiscardsACorruptTransfer : Prop :=
  ∀ (i : Nat) (ts : Word64) (frame : Bytes) (rti : Byte) (s : State) (I : Instance) (sub : Subscription) (h : Header)
      (chunk : Bytes) (x : Session), s.FindsSession i frame I sub h chunk x → x.Inv sub.extent →
    x.Expects sub h ts rti → h.eot = true → crc32cAdd x.crc chunk ≠ 0xB798B438#32 →
    (x.payload = none → 0 < min chunk.length (sub.extent - x.payloadSize) → s.allocPort.answer 0 = true) →
    exec (.rxAccept i ts frame rti) s = .next
      { s.withSession i I sub h
          { x with transferTimestamp := if h.sot then ts else x.transferTimestamp, payload := none,
                   totalPayloadSize := 0, payloadSize := 0, crc := 0xFFFFFFFF#32, lastFrameIndex := 0#31,
                   transferId := x.transferId + 1#64 } with
        allocPort := match x.payload with
          | some b => s.allocPort.free b.obj
          | none => if 0 < min chunk.length (sub.extent - x.payloadSize)
            then (s.allocPort.alloc sub.extent).2.free s.allocPort.nextObj else s.allocPort
        response := some ⟨.noMatch, .handle ⟨h.kind, h.portId⟩⟩ }

/-- The payload buffer's allocation denied (R270, D45): `OutOfMemory`, the session Idle and expecting the next transfer-ID,
only a first frame's timestamp kept of what the frame wrote. -/
def Obligations.AcceptDeniedBufferResetsTheSession : Prop :=
  ∀ (i : Nat) (ts : Word64) (frame : Bytes) (rti : Byte) (s : State) (I : Instance) (sub : Subscription) (h : Header)
      (chunk : Bytes) (x : Session), s.FindsSession i frame I sub h chunk x → x.Expects sub h ts rti →
    x.payload = none → 0 < min chunk.length (sub.extent - x.payloadSize) → s.allocPort.answer 0 = false →
    exec (.rxAccept i ts frame rti) s = .next
      { s.withSession i I sub h
          { x with transferTimestamp := if h.sot then ts else x.transferTimestamp, payload := none,
                   totalPayloadSize := 0, payloadSize := 0, crc := 0xFFFFFFFF#32, lastFrameIndex := 0#31,
                   transferId := x.transferId + 1#64 } with
        allocPort := (s.allocPort.alloc sub.extent).2
        response := some ⟨.outOfMemory, .handle ⟨h.kind, h.portId⟩⟩ }

/-- `RX_ACCEPT` never frees a session, removes or changes a subscription, or touches the session of another node or
another subscription, and no TX queue (R279, derived by the spec). -/
def Obligations.AcceptTouchesOneSession : Prop :=
  ∀ (i : Nat) (ts : Word64) (frame : Bytes) (rti : Byte) (s t : State),
    exec (.rxAccept i ts frame rti) s = .next t →
    t.txq = s.txq ∧ ∀ (I J : Instance), s.ins[i]? = some I → t.ins[i]? = some J →
      J.valid = I.valid ∧ J.nodeId = I.nodeId
      ∧ ∀ (k : TransferKind) (p : Word16),
        (I.findSub k p = none → J.findSub k p = none)
        ∧ (∀ sub, I.findSub k p = some sub → ∃ sub', J.findSub k p = some sub' ∧ sub'.portId = sub.portId
            ∧ sub'.extent = sub.extent ∧ sub'.transferIdTimeout = sub.transferIdTimeout
            ∧ (∀ n x, Map.find n sub.sessions = some x → ∃ y, Map.find n sub'.sessions = some y ∧ y.obj = x.obj)
            ∧ (∀ n, (n ≠ (le16At frame 2).toNat ∨ k ≠ kindOfSpecifier (le16At frame 6)
                  ∨ p ≠ portOfSpecifier (le16At frame 6)) →
                Map.find n sub'.sessions = Map.find n sub.sessions))

/-- The round trip (R280): the frames the generator makes of a transfer from a named node, accepted in order on one
transport by an instance that is subscribed and addressed, deliver the transfer: same priority, kind, port and transfer-ID,
the sender's node-ID, the first frame's timestamp, and the payload cut at the extent; every earlier frame is the silent
`NoMatch`. The session of the sender does not exist, or is Idle on this transport and expects this transfer-ID, or is on this
transport and its transfer-ID differs by more than 1; the allocations it then needs are granted; the stream's length fits
`SIZE_W` bits. -/
def Obligations.TransferRoundTrip : Prop :=
  ∀ (i : Nat) (rti : Byte) (s : State) (I : Instance) (sub : Subscription) (f : FrameFields) (payload : Bytes) (C : Nat)
      (ts : List Word64),
    s.validIns i = some I → f.source ≠ 0xFFFF#16 → 0 < C → frameCount (payload.length + 4) C ≤ 2 ^ 31 - 1 →
    payload.length + 4 < 2 ^ s.params.sizeW →
    I.findSub (kindOfSpecifier f.dataSpecifier) (portOfSpecifier f.dataSpecifier) = some sub →
    (kindOfSpecifier f.dataSpecifier = .message ∨ (I.nodeId ≠ 0xFFFF#16 ∧ f.destination = I.nodeId)) →
    s.allocPort.answer 0 = true →
    ((Map.find f.source.toNat sub.sessions = none ∧ s.allocPort.answer 1 = true)
      ∨ ∃ x, Map.find f.source.toNat sub.sessions = some x ∧ x.redundantTransportIndex = rti
          ∧ ((x.transferId = f.transferId ∧ x.lastFrameIndex = 0#31 ∧ x.Inv sub.extent)
            ∨ 1 < (x.transferId - f.transferId).toNat)) →
    ts.length = (framesOf f payload C).length →
    ∃ t tr, acceptAll i rti (ts.zip (framesOf f payload C)) s = some t
      ∧ t.response = some ⟨.transferComplete,
          .transfer tr ⟨kindOfSpecifier f.dataSpecifier, portOfSpecifier f.dataSpecifier⟩⟩
      ∧ tr.metadata = ⟨f.priority, kindOfSpecifier f.dataSpecifier, portOfSpecifier f.dataSpecifier, f.source,
          f.transferId⟩
      ∧ tr.timestamp = ts.headD 0#64
      ∧ tr.payloadSize = min sub.extent payload.length ∧ tr.bytes = payload.take sub.extent
      ∧ ∀ m u, m + 1 < (framesOf f payload C).length →
          acceptAll i rti ((ts.zip (framesOf f payload C)).take (m + 1)) s = some u → u.status = some .noMatch

/-! ### Invariants -/

/-- The machine right after reset: as many contexts as the configuration has, every `valid` bit 0, the ledger empty, no
allocator transaction made (R341, R342, D12), and every invariant holds. -/
def Obligations.ResetMeetsTheInvariants : Prop :=
  State.reset.ins.length = Config.numInstances ∧ State.reset.txq.length = Config.numTxQueues
    ∧ (∀ I ∈ State.reset.ins, I.valid = false) ∧ (∀ Q ∈ State.reset.txq, Q.valid = false)
    ∧ State.reset.allocPort.ledger = [] ∧ State.reset.allocPort.log = [] ∧ State.reset.Inv

/-- Every step keeps R30 of every session, where the sizes fit their width: `payload_size = min(extent,
total_payload_size)`, a buffer present just when it holds bytes, and an Idle session clear. -/
def Obligations.StepKeepsSessionsInvariant : Prop :=
  ∀ s t : State, s.SizesFit → s.SessionsInv → step s = .next t → t.SessionsInv

/-- Every step keeps every field of `SIZE_W` bits within `SIZE_W` bits (R27, R29, R33, D26), for any `SIZE_W` wide enough
for the length of a trailer: extents, stream counts, stored counts, capacities, MTUs and queue sizes (a count that outgrows
the width is a free value of that width, entry 7). -/
def Obligations.StepKeepsSizesWithinWidth : Prop :=
  ∀ s t : State, 4 < 2 ^ s.params.sizeW → s.SizesFit → step s = .next t → t.SizesFit

/-- Every step keeps the registries canonical (R26, R27; port-ID range by R249, D39): one record per port-ID and kind, in
range, keyed by its own port-ID, one session at most per named node. -/
def Obligations.StepKeepsRegistryCanonical : Prop :=
  ∀ s t : State, s.RegistryWF → step s = .next t → t.RegistryWF

/-- Every step keeps R35 and R34 of every queue: `size`, the strict order, unique ids below `next_seq`; of each item a
whole frame within the MTU whose header carries the sort keys, and a link just when the frame is not the last; the frames of
one transfer that are still queued share the sort keys and stand in ascending frame index; a link names the next frame. -/
def Obligations.StepKeepsQueuesInvariant : Prop :=
  ∀ s t : State, s.QueuesInv → step s = .next t → t.QueuesInv

/-- Every step keeps the ownership ledger equal to the set of objects the contexts hold (R69, derived by the spec, D8). -/
def Obligations.StepKeepsLedgerExact : Prop :=
  ∀ s t : State, s.RegistryWF → s.LedgerInv → step s = .next t → t.LedgerInv
end

