-- ==== Sys2Proof/Laws/Crc.lean ====
section
/-! SUPPORT. The two CRC shift registers as linear maps over exclusive-or, and their byte steps. -/

namespace Sys2Proof.Machine

open Sys2Proof

theorem iterate_succ_out {α : Type} (f : α → α) (n : Nat) (x : α) : iterate f (n + 1) x = f (iterate f n x) := by
  induction n generalizing x with
  | zero => rfl
  | succ n ih => exact ih (f x)

theorem iterate_add {α : Type} (f : α → α) (m n : Nat) (x : α) : iterate f (m + n) x = iterate f n (iterate f m x) := by
  induction m generalizing x with
  | zero => simp [iterate]
  | succ m ih => rw [Nat.succ_add]; exact ih (f x)

theorem xor_cancel {w : Nat} (p a b : BitVec w) : a ^^^ b = (a ^^^ p) ^^^ (b ^^^ p) := by
  rw [BitVec.xor_assoc, BitVec.xor_comm p, BitVec.xor_assoc b, BitVec.xor_self, BitVec.xor_zero]

/-! ### CRC-32C -/

theorem crc32cShift_xor (a b : Word32) : crc32cShift (a ^^^ b) = crc32cShift a ^^^ crc32cShift b := by
  simp only [crc32cShift, BitVec.getLsbD_xor]
  cases a.getLsbD 0 <;> cases b.getLsbD 0 <;>
    simp only [BitVec.ushiftRight_xor_distrib, Bool.xor_false, Bool.xor_true, Bool.not_false, Bool.not_true, if_true,
      Bool.false_eq_true, if_false]
  · ac_rfl
  · ac_rfl
  · exact xor_cancel ..

theorem iterate_crc32cShift_xor (n : Nat) (a b : Word32) :
    iterate crc32cShift n (a ^^^ b) = iterate crc32cShift n a ^^^ iterate crc32cShift n b := by
  induction n generalizing a b with
  | zero => rfl
  | succ n ih => simp only [iterate, crc32cShift_xor, ih]

/-- The register only shifts while the low bits are clear. -/
theorem iterate_crc32cShift_low {n : Nat} {x : Word32} (h : ∀ i < n, x.getLsbD i = false) :
    iterate crc32cShift n x = x >>> n := by
  induction n generalizing x with
  | zero => simp [iterate]
  | succ n ih =>
    have h0 : crc32cShift x = x >>> 1 := by
      rw [crc32cShift, if_neg (by rw [h 0 (by omega)]; decide)]
    rw [iterate, h0, ih]
    · rw [← BitVec.shiftRight_add]; congr 1; omega
    · intro i hi; simp [h (1 + i) (by omega)]

/-- The byte step by the table is eight shifts of the accumulator with the byte added. -/
theorem crc32cByte_eq (c : Word32) (b : Byte) : crc32cByte c b = iterate crc32cShift 8 (c ^^^ b.setWidth 32) := by
  have split : c ^^^ b.setWidth 32 =
      ((c >>> 8) <<< 8) ^^^ ((c ^^^ b.setWidth 32).setWidth 8).setWidth 32 := by
    apply BitVec.eq_of_getLsbD_eq
    intro i hi
    by_cases h : i < 8
    · simp [h, hi]
    · have : ¬ i < 8 := h
      simp [h, hi, BitVec.getLsbD_of_ge b i (by omega), show 8 + (i - 8) = i by omega]
  rw [split, iterate_crc32cShift_xor, iterate_crc32cShift_low]
  · simp only [crc32cByte, crc32cTable]
    congr 1
    apply BitVec.eq_of_getLsbD_eq
    intro i hi
    by_cases h : 8 + i < 32
    · simp [h]
    · simp [h, BitVec.getLsbD_of_ge c (8 + i) (by omega)]
  · intro i hi
    simp [hi]

/-- Distinct registers stay distinct: the polynomial's top bit is set. -/
theorem crc32cShift_injective {a b : Word32} (h : crc32cShift a = crc32cShift b) : a = b := by
  have z : crc32cShift (a ^^^ b) = 0#32 := by rw [crc32cShift_xor, h, BitVec.xor_self]
  have key : ∀ x : Word32, crc32cShift x = 0#32 → x = 0#32 := by
    intro x hx
    have top := congrArg (fun y => BitVec.getLsbD y 31) hx
    by_cases h0 : x.getLsbD 0 = true
    · rw [crc32cShift, if_pos h0] at top
      simp [Config.crc32cPoly] at top
    · rw [crc32cShift, if_neg h0] at hx
      apply BitVec.eq_of_getLsbD_eq
      intro i hi
      match i with
      | 0 => simpa using h0
      | i + 1 =>
        have := congrArg (fun y => BitVec.getLsbD y i) hx
        simpa [Nat.add_comm] using this
  have := key _ z
  rwa [BitVec.xor_eq_zero_iff] at this

theorem iterate_crc32cShift_injective {n : Nat} {a b : Word32}
    (h : iterate crc32cShift n a = iterate crc32cShift n b) : a = b := by
  induction n generalizing a b with
  | zero => exact h
  | succ n ih => exact crc32cShift_injective (ih h)

/-! ### CRC-16 -/

theorem crc16Shift_xor (a b : Word16) : crc16Shift (a ^^^ b) = crc16Shift a ^^^ crc16Shift b := by
  simp only [crc16Shift, BitVec.getLsbD_xor]
  cases a.getLsbD 15 <;> cases b.getLsbD 15 <;>
    simp only [BitVec.shiftLeft_xor_distrib, Bool.xor_false, Bool.xor_true, Bool.not_false, Bool.not_true, if_true,
      Bool.false_eq_true, if_false]
  · ac_rfl
  · ac_rfl
  · exact xor_cancel ..

theorem iterate_crc16Shift_xor (n : Nat) (a b : Word16) :
    iterate crc16Shift n (a ^^^ b) = iterate crc16Shift n a ^^^ iterate crc16Shift n b := by
  induction n generalizing a b with
  | zero => rfl
  | succ n ih => simp only [iterate, crc16Shift_xor, ih]

/-- The register only shifts while the high bits are clear. -/
theorem iterate_crc16Shift_high {n : Nat} {x : Word16} (h : ∀ i < n, x.getLsbD (15 - i) = false) (hn : n ≤ 16) :
    iterate crc16Shift n x = x <<< n := by
  induction n generalizing x with
  | zero => simp [iterate]
  | succ n ih =>
    have h0 : crc16Shift x = x <<< 1 := by
      rw [crc16Shift, if_neg (by rw [show 15 = 15 - 0 from rfl, h 0 (by omega)]; decide)]
    rw [iterate, h0, ih _ (by omega)]
    · rw [← BitVec.shiftLeft_add]; congr 1; omega
    · intro i hi
      have := h (i + 1) (by omega)
      rw [BitVec.getLsbD_shiftLeft]
      rw [show 15 - i - 1 = 15 - (i + 1) by omega, this]; simp

/-- The byte step by the table is eight shifts of the accumulator with the byte added at the top. -/
theorem crc16Byte_eq (c : Word16) (b : Byte) :
    crc16Byte c b = iterate crc16Shift 8 (c ^^^ ((b.setWidth 16 : Word16) <<< 8)) := by
  have split : c ^^^ ((b.setWidth 16 : Word16) <<< 8) =
      (c.setWidth 8).setWidth 16 ^^^ ((((c >>> 8) ^^^ b.setWidth 16).setWidth 8).setWidth 16 : Word16) <<< 8 := by
    apply BitVec.eq_of_getLsbD_eq
    intro i hi
    by_cases h : i < 8
    · simp [h, hi]
    · simp [h, hi, show 8 + (i - 8) = i by omega, show i - 8 < 8 by omega,
        show i - 8 < 16 by omega]
  rw [split, iterate_crc16Shift_xor, iterate_crc16Shift_high _ (by omega)]
  · simp only [crc16Byte, crc16Table]
    congr 1
    apply BitVec.eq_of_getLsbD_eq
    intro i hi
    by_cases h : i < 8
    · simp [h]
    · simp [h, hi, show i - 8 < 8 by omega, show i - 8 < 16 by omega]
  · intro i hi
    simp
    omega

end Sys2Proof.Machine
end

