-- ==== Sys2Proof/Laws/Encoding.lean ====
section
/-! SUPPORT. Byte order and the command port's readers: reading back what was put, putting back what was read, and
what a record's spare bits mean. -/

namespace Sys2Proof

open Sys2Proof.Machine

namespace Machine

/-! ### Little-endian numbers -/

@[simp] theorem leBytes_length (n v : Nat) : (leBytes n v).length = n := by
  induction n generalizing v with
  | zero => rfl
  | succ n ih => simp [leBytes, ih]

theorem leNat_leBytes (n v : Nat) : leNat (leBytes n v) = v % 256 ^ n := by
  induction n generalizing v with
  | zero => simp [leBytes, leNat, Nat.mod_one]
  | succ n ih => simp [leBytes, leNat, ih, pow_succ', Nat.mod_mul]

theorem leNat_lt (bs : Bytes) : leNat bs < 256 ^ bs.length := by
  induction bs with
  | nil => simp [leNat]
  | cons b bs ih =>
    have hb := b.isLt
    simp only [leNat, List.length_cons, pow_succ']
    omega

/-- The bits of a little-endian number, byte by byte. -/
theorem testBit_leNat_cons (b : Byte) (bs : Bytes) (j : Nat) :
    (leNat (b :: bs)).testBit j = if j < 8 then b.getLsbD j else (leNat bs).testBit (j - 8) := by
  have := Nat.testBit_two_pow_mul_add (leNat bs) b.isLt j
  rw [leNat, Nat.add_comm, show (256 : Nat) = 2 ^ 8 from rfl, this]
  rfl

theorem leBytes_leNat (bs : Bytes) : leBytes bs.length (leNat bs) = bs := by
  induction bs with
  | nil => rfl
  | cons b bs ih =>
    have hb := b.isLt
    have h1 : (b.toNat + 256 * leNat bs) / 256 = leNat bs := by omega
    have h2 : BitVec.ofNat 8 (b.toNat + 256 * leNat bs) = b :=
      BitVec.eq_of_toNat_eq (by simp only [BitVec.toNat_ofNat]; omega)
    simp [leBytes, leNat, h1, h2, ih]

@[simp] theorem le16Bytes_length (v : Word16) : (le16Bytes v).length = 2 := leBytes_length ..
@[simp] theorem le32Bytes_length (v : Word32) : (le32Bytes v).length = 4 := leBytes_length ..
@[simp] theorem le64Bytes_length (v : Word64) : (le64Bytes v).length = 8 := leBytes_length ..

theorem slice_of_append {a b c : Bytes} {k n : Nat} (hk : a.length = k) (hn : b.length = n) :
    slice (a ++ (b ++ c)) k n = b := by
  subst hk hn; simp [slice]

theorem ofNat_leNat_leBytes {w : Nat} (n : Nat) (v : BitVec w) (h : 2 ^ w ≤ 256 ^ n) :
    BitVec.ofNat w (leNat (leBytes n v.toNat)) = v := by
  rw [leNat_leBytes, Nat.mod_eq_of_lt (lt_of_lt_of_le v.isLt h)]; simp

end Machine

/-! ### Reading back what was put -/

theorem readNat_append {n : Nat} {bs : Bytes} (h : bs.length = n) (rest : Bytes) :
    readNat n (bs ++ rest) = .ok (leNat bs, rest) := by
  subst h; simp [readNat]

theorem readNat_leBytes {n v : Nat} (h : v < 256 ^ n) (rest : Bytes) :
    readNat n (leBytes n v ++ rest) = .ok (v, rest) := by
  rw [readNat_append (leBytes_length n v), leNat_leBytes, Nat.mod_eq_of_lt h]

/-- A number fits a width just when it is below the width's power of two. -/
theorem fitsSize_iff (width n : Nat) : fitsSize width n = true ↔ n < 2 ^ width := by
  cases n with
  | zero => simp [fitsSize]
  | succ n => exact decide_eq_true_iff

/-- Enough digits for a number write it the same way however many more are allowed. -/
theorem putDigits_fuel {n : Nat} : ∀ {a b : Nat}, n ≤ a → n ≤ b → putDigits a n = putDigits b n := by
  induction n using Nat.strong_induction_on with
  | _ n ih =>
    intro a b ha hb
    by_cases hn : n < 128
    · cases a <;> cases b <;> simp [putDigits, hn]
    · obtain ⟨a, rfl⟩ : ∃ k, a = k + 1 := ⟨a - 1, by omega⟩
      obtain ⟨b, rfl⟩ : ∃ k, b = k + 1 := ⟨b - 1, by omega⟩
      simp only [putDigits, hn, if_false]
      rw [ih (n / 128 - 1) (by omega) (a := a) (b := b) (by omega) (by omega)]

/-- A number's base-128 digits: one, or the lowest and then those of the rest. -/
theorem putNum_eq (n : Nat) :
    putNum n = if n < 128 then [BitVec.ofNat 8 n] else BitVec.ofNat 8 (n % 128 + 128) :: putNum (n / 128 - 1) := by
  cases n with
  | zero => rfl
  | succ n =>
    rw [putNum, putDigits]
    split_ifs
    · rfl
    · rw [putNum, putDigits_fuel (b := (n + 1) / 128 - 1) (by omega) le_rfl]

theorem readNum_putNum (v : Nat) (rest : Bytes) : readNum (putNum v ++ rest) = .ok (v, rest) := by
  induction v using Nat.strong_induction_on with
  | _ v ih =>
    rw [putNum_eq]
    split_ifs with hv
    · simp only [List.cons_append, List.nil_append, readNum, BitVec.toNat_ofNat]
      rw [Nat.mod_eq_of_lt (by omega), if_pos hv]
    · simp only [List.cons_append, readNum, BitVec.toNat_ofNat]
      rw [Nat.mod_eq_of_lt (by omega), if_neg (by omega), ih (v / 128 - 1) (by omega)]
      simp only [Except.ok.injEq, Prod.mk.injEq, and_true]
      omega

theorem readBits_putBits {w n : Nat} (v : BitVec w) (h : 2 ^ w ≤ 256 ^ n) (rest : Bytes) :
    readBits w n (putBits n v ++ rest) = .ok (v, rest) := by
  simp [readBits, putBits, readNat_leBytes (lt_of_lt_of_le v.isLt h), operandOf, v.isLt]

theorem readFlag_putBits (b : Bool) (rest : Bytes) :
    readFlag (putBits 1 (BitVec.ofBool b) ++ rest) = .ok (b, rest) := by
  simp only [readFlag, readBits_putBits (n := 1) (BitVec.ofBool b) (by norm_num)]
  cases b <;> rfl

theorem readSeq_putSeq (bs rest : Bytes) : readSeq (putSeq bs ++ rest) = .ok (bs, rest) := by
  simp [readSeq, putSeq, readNum_putNum]

/-! ### Putting back what was read -/

theorem readNat_ok {n : Nat} {bs rest : Bytes} {v : Nat} (h : readNat n bs = .ok (v, rest)) :
    bs = leBytes n v ++ rest ∧ v < 256 ^ n := by
  unfold readNat at h
  split_ifs at h with hl
  simp only [Except.ok.injEq, Prod.mk.injEq] at h
  obtain ⟨rfl, rfl⟩ := h
  have ht : (bs.take n).length = n := by simp; omega
  have := leBytes_leNat (bs.take n)
  have hlt := leNat_lt (bs.take n)
  rw [ht] at this hlt
  exact ⟨by rw [this, List.take_append_drop], hlt⟩

theorem readNum_ok {bs rest : Bytes} {v : Nat} (h : readNum bs = .ok (v, rest)) : bs = putNum v ++ rest := by
  induction bs generalizing v with
  | nil => simp [readNum] at h
  | cons b r ih =>
    have hb := b.isLt
    unfold readNum at h
    split_ifs at h with hlt
    · simp only [Except.ok.injEq, Prod.mk.injEq] at h
      obtain ⟨rfl, rfl⟩ := h
      rw [putNum_eq, if_pos hlt]
      simp
    · split at h
      · simp at h
      · rename_i w rest' hw
        simp only [Except.ok.injEq, Prod.mk.injEq] at h
        obtain ⟨rfl, rfl⟩ := h
        have h1 : (b.toNat - 128 + 128 * (w + 1)) / 128 - 1 = w := by omega
        have h2 : (b.toNat - 128 + 128 * (w + 1)) % 128 + 128 = b.toNat := by omega
        rw [putNum_eq, if_neg (by omega), h1, h2, ih hw]
        simp

/-- What a fixed-width operand's bytes can be: its field's number has the operand's bits, or the operand is free. -/
theorem readBits_ok {w n : Nat} {bs rest : Bytes} {v : BitVec w} (h : readBits w n bs = .ok (v, rest)) :
    ∃ record, bs = record ++ rest ∧ record.length = n ∧ v = operandOf w (leNat record) := by
  unfold readBits at h
  split at h
  · simp at h
  · rename_i x r hx
    simp only [Except.ok.injEq, Prod.mk.injEq] at h
    obtain ⟨rfl, rfl⟩ := h
    obtain ⟨h1, h2⟩ := readNat_ok hx
    exact ⟨leBytes n x, h1, leBytes_length .., by rw [leNat_leBytes, Nat.mod_eq_of_lt h2]⟩

/-- An operand whose field holds no more than its bits is written back as it stood. -/
theorem putBits_operandOf {w : Nat} {record : Bytes} (h : leNat record < 2 ^ w) :
    putBits record.length (operandOf w (leNat record)) = record := by
  rw [operandOf, if_pos h, putBits, BitVec.toNat_ofNat, Nat.mod_eq_of_lt h, leBytes_leNat]

theorem readFlag_ok {bs rest : Bytes} {b : Bool} (h : readFlag bs = .ok (b, rest)) :
    readBits 1 1 bs = .ok (BitVec.ofBool b, rest) := by
  unfold readFlag at h
  split at h
  · simp at h
  · rename_i v r hv
    simp only [Except.ok.injEq, Prod.mk.injEq] at h
    obtain ⟨rfl, rfl⟩ := h
    have : BitVec.ofBool (decide (v = 1#1)) = v := by
      clear hv; revert v; decide
    rw [this, hv]

theorem readSeq_ok {bs rest v : Bytes} (h : readSeq bs = .ok (v, rest)) : bs = putSeq v ++ rest := by
  unfold readSeq at h
  split at h
  · simp at h
  · rename_i len r hr
    split_ifs at h with hl
    simp only [Except.ok.injEq, Prod.mk.injEq] at h
    obtain ⟨rfl, rfl⟩ := h
    have : (r.take len).length = len := by simp; omega
    rw [readNum_ok hr, putSeq, this, List.append_assoc, List.take_append_drop]

/-! ### A number or a sequence is read just on its encoding -/

theorem readNum_ok_iff {bs rest : Bytes} {v : Nat} : readNum bs = .ok (v, rest) ↔ bs = putNum v ++ rest :=
  ⟨readNum_ok, fun h => h ▸ readNum_putNum v rest⟩

theorem readSeq_ok_iff {bs rest v : Bytes} : readSeq bs = .ok (v, rest) ↔ bs = putSeq v ++ rest :=
  ⟨readSeq_ok, fun h => h ▸ readSeq_putSeq v rest⟩

/-! ### Spare bits -/

/-- A mask is clear of a record put together from two parts just when each part is. -/
theorem clearOf_append {m₁ m₂ r₁ r₂ : Bytes} (h : m₁.length = r₁.length) :
    clearOf (m₁ ++ m₂) (r₁ ++ r₂) = (clearOf m₁ r₁ && clearOf m₂ r₂) := by
  simp only [clearOf, List.zipWith_append h, List.all_append]

theorem clearOf_cons (m b : Byte) (ms bs : Bytes) :
    clearOf (m :: ms) (b :: bs) = (decide (m &&& b = 0#8) && clearOf ms bs) := by
  simp only [clearOf, List.zipWith_cons_cons, List.all_cons]

/-- A field's mask is as long as the field. -/
@[simp] theorem Field.spare_length (f : Field) : f.spare.length = f.bytes.length := by
  cases f <;> simp [Field.spare, Field.bytes, putBits]

/-- The masked bits of bytes are those of the numbers they hold. -/
theorem clearOf_iff {mask record : Bytes} (h : mask.length = record.length) :
    clearOf mask record = true ↔ leNat mask &&& leNat record = 0 := by
  induction mask generalizing record with
  | nil => simp [clearOf, leNat]
  | cons m ms ih =>
    cases record with
    | nil => simp at h
    | cons b bs =>
      rw [clearOf_cons, Bool.and_eq_true, decide_eq_true_eq, ih (by simpa using h)]
      constructor
      · rintro ⟨h1, h2⟩
        refine Nat.eq_of_testBit_eq fun j => ?_
        rw [Nat.testBit_and, testBit_leNat_cons, testBit_leNat_cons]
        split_ifs
        · have := congrArg (fun v : Byte => v.getLsbD j) h1
          simpa using this
        · have := congrArg (fun v : Nat => v.testBit (j - 8)) h2
          simpa using this
      · intro h0
        have hb : ∀ j, ((leNat (m :: ms)).testBit j && (leNat (b :: bs)).testBit j) = false := fun j => by
          rw [← Nat.testBit_and, h0]; simp
        refine ⟨BitVec.eq_of_getLsbD_eq fun j hj => ?_, Nat.eq_of_testBit_eq fun j => ?_⟩
        · have := hb j
          rw [testBit_leNat_cons, testBit_leNat_cons, if_pos hj, if_pos hj] at this
          simpa using this
        · have := hb (j + 8)
          rw [testBit_leNat_cons, testBit_leNat_cons, if_neg (by omega), if_neg (by omega)] at this
          simpa using this

/-- A field's spare bits are clear just when it holds no more than the operand's bits. -/
theorem clearOf_spare_iff {w n : Nat} {record : Bytes} (hn : record.length = n) (v : BitVec w) :
    clearOf (Field.spare (.bits w n v)) record = true ↔ leNat record < 2 ^ w := by
  have hr := leNat_lt record
  rw [hn, show (256 : Nat) = 2 ^ 8 from rfl, ← pow_mul] at hr
  rw [Field.spare, clearOf_iff (by rw [leBytes_length, hn]), leNat_leBytes, show (256 : Nat) = 2 ^ 8 from rfl, ← pow_mul]
  constructor
  · intro h0
    refine Nat.lt_pow_two_of_testBit _ fun j hj => ?_
    by_cases hj8 : j < 8 * n
    · have := congrArg (fun v : Nat => v.testBit j) h0
      simpa [Nat.testBit_and, Nat.testBit_mod_two_pow, Nat.testBit_shiftLeft, hj, hj8,
        show j - w < 8 * n - w by omega] using this
    · exact Nat.testBit_lt_two_pow (lt_of_lt_of_le hr (Nat.pow_le_pow_right (by norm_num) (by omega)))
  · intro hlt
    refine Nat.eq_of_testBit_eq fun j => ?_
    simp only [Nat.testBit_and, Nat.testBit_mod_two_pow, Nat.testBit_shiftLeft, Nat.zero_testBit]
    by_cases hj : w ≤ j
    · simp [Nat.testBit_lt_two_pow (lt_of_lt_of_le hlt (Nat.pow_le_pow_right (by norm_num) hj))]
    · simp [hj]

/-- A fixed-width operand is read from bytes of its field's length, which are its field's where their spare bits are
clear. -/
theorem readBits_field {w n : Nat} {bs rest : Bytes} {v : BitVec w} (h : readBits w n bs = .ok (v, rest)) :
    ∃ record, bs = record ++ rest ∧ record.length = n
      ∧ (clearOf (Field.spare (.bits w n v)) record = true → record = putBits n v) := by
  obtain ⟨record, h1, h2, rfl⟩ := readBits_ok h
  refine ⟨record, h1, h2, fun hc => ?_⟩
  subst h2
  exact (putBits_operandOf ((clearOf_spare_iff rfl _).1 hc)).symm

/-! ### A reader refuses by name -/

theorem readNat_error {n : Nat} {bs : Bytes} {e : DecodeError} (h : readNat n bs = .error e) : e = .truncated := by
  unfold readNat at h
  split_ifs at h
  simpa using h.symm

theorem readBits_error {w n : Nat} {bs : Bytes} {e : DecodeError} (h : readBits w n bs = .error e) :
    e = .truncated := by
  unfold readBits at h
  split at h
  · rename_i hx
    simp only [Except.error.injEq] at h
    exact h ▸ readNat_error hx
  · simp at h

theorem readFlag_error {bs : Bytes} {e : DecodeError} (h : readFlag bs = .error e) : e = .truncated := by
  unfold readFlag at h
  split at h
  · rename_i hx
    simp only [Except.error.injEq] at h
    exact h ▸ readBits_error hx
  · simp at h

theorem readNum_error {bs : Bytes} {e : DecodeError} (h : readNum bs = .error e) : e = .truncated := by
  induction bs with
  | nil => simpa [readNum] using h.symm
  | cons b r ih =>
    unfold readNum at h
    split_ifs at h
    split at h
    · rename_i hx
      simp only [Except.error.injEq] at h
      exact ih (h ▸ hx)
    · simp at h

theorem readSeq_error {bs : Bytes} {e : DecodeError} (h : readSeq bs = .error e) : e = .truncated := by
  unfold readSeq at h
  split at h
  · rename_i hx
    simp only [Except.error.injEq] at h
    exact h ▸ readNum_error hx
  · split_ifs at h
    simpa using h.symm

/-! ### Sequencing readers -/

theorem bind_ok_iff {ε α β : Type} {x : Except ε α} {f : α → Except ε β} {b : β} :
    x >>= f = .ok b ↔ ∃ a, x = .ok a ∧ f a = .ok b := by
  cases x with
  | error e => exact ⟨fun h => (by cases h), fun ⟨a, h, _⟩ => (by cases h)⟩
  | ok a => exact ⟨fun h => ⟨a, rfl, h⟩, fun ⟨_, h, h'⟩ => (by cases h; exact h')⟩

theorem bind_error_iff {ε α β : Type} {x : Except ε α} {f : α → Except ε β} {e : ε} :
    x >>= f = .error e ↔ x = .error e ∨ ∃ a, x = .ok a ∧ f a = .error e := by
  cases x with
  | error e' =>
    refine ⟨fun h => .inl ?_, fun h => ?_⟩
    · cases h; rfl
    · rcases h with h | ⟨_, h, _⟩
      · cases h; rfl
      · cases h
  | ok a =>
    refine ⟨fun h => .inr ⟨a, rfl, h⟩, fun h => ?_⟩
    rcases h with h | ⟨_, h, h'⟩
    · cases h
    · cases h; exact h'

theorem pure_ok_iff {ε α : Type} {a b : α} : (pure a : Except ε α) = .ok b ↔ a = b := by
  simp [pure, Except.pure]

end Sys2Proof
end

