-- ==== Sys2Proof/Laws/State.lean ====
section
/-! SUPPORT. One lemma per field per record update, true by `rfl`: no later proof unfolds an update. -/

namespace Sys2Proof.Machine

open Sys2Proof

/-! ### The state -/

@[simp] theorem State_respond_ins (s : State) (st : Status) (r : Results) :
    (s.respond st r).ins = s.ins := rfl
@[simp] theorem State_respond_txq (s : State) (st : Status) (r : Results) :
    (s.respond st r).txq = s.txq := rfl
@[simp] theorem State_respond_allocPort (s : State) (st : Status) (r : Results) :
    (s.respond st r).allocPort = s.allocPort := rfl
@[simp] theorem State_respond_commandPort (s : State) (st : Status) (r : Results) :
    (s.respond st r).commandPort = s.commandPort := rfl
@[simp] theorem State_respond_response (s : State) (st : Status) (r : Results) :
    (s.respond st r).response = some { status := st, results := r } := rfl
@[simp] theorem State_respond_localAddress (s : State) (st : Status) (r : Results) :
    (s.respond st r).localAddress = s.localAddress := rfl
@[simp] theorem State_respond_params (s : State) (st : Status) (r : Results) :
    (s.respond st r).params = s.params := rfl
@[simp] theorem State_raise_ins (s : State) (e : ErrorKind) (r : Results) :
    (s.raise e r).ins = s.ins := rfl
@[simp] theorem State_raise_txq (s : State) (e : ErrorKind) (r : Results) :
    (s.raise e r).txq = s.txq := rfl
@[simp] theorem State_raise_allocPort (s : State) (e : ErrorKind) (r : Results) :
    (s.raise e r).allocPort = s.allocPort := rfl
@[simp] theorem State_raise_commandPort (s : State) (e : ErrorKind) (r : Results) :
    (s.raise e r).commandPort = s.commandPort := rfl
@[simp] theorem State_raise_response (s : State) (e : ErrorKind) (r : Results) :
    (s.raise e r).response = some { status := e.status, results := r } := rfl
@[simp] theorem State_raise_localAddress (s : State) (e : ErrorKind) (r : Results) :
    (s.raise e r).localAddress = s.localAddress := rfl
@[simp] theorem State_raise_params (s : State) (e : ErrorKind) (r : Results) :
    (s.raise e r).params = s.params := rfl
@[simp] theorem State_setIns_ins (s : State) (i : Nat) (I : Instance) :
    (s.setIns i I).ins = s.ins.set i I := rfl
@[simp] theorem State_setIns_txq (s : State) (i : Nat) (I : Instance) :
    (s.setIns i I).txq = s.txq := rfl
@[simp] theorem State_setIns_allocPort (s : State) (i : Nat) (I : Instance) :
    (s.setIns i I).allocPort = s.allocPort := rfl
@[simp] theorem State_setIns_commandPort (s : State) (i : Nat) (I : Instance) :
    (s.setIns i I).commandPort = s.commandPort := rfl
@[simp] theorem State_setIns_response (s : State) (i : Nat) (I : Instance) :
    (s.setIns i I).response = s.response := rfl
@[simp] theorem State_setIns_localAddress (s : State) (i : Nat) (I : Instance) :
    (s.setIns i I).localAddress = s.localAddress := rfl
@[simp] theorem State_setIns_params (s : State) (i : Nat) (I : Instance) :
    (s.setIns i I).params = s.params := rfl
@[simp] theorem State_setTxq_ins (s : State) (q : Nat) (Q : TxQueue) :
    (s.setTxq q Q).ins = s.ins := rfl
@[simp] theorem State_setTxq_txq (s : State) (q : Nat) (Q : TxQueue) :
    (s.setTxq q Q).txq = s.txq.set q Q := rfl
@[simp] theorem State_setTxq_allocPort (s : State) (q : Nat) (Q : TxQueue) :
    (s.setTxq q Q).allocPort = s.allocPort := rfl
@[simp] theorem State_setTxq_commandPort (s : State) (q : Nat) (Q : TxQueue) :
    (s.setTxq q Q).commandPort = s.commandPort := rfl
@[simp] theorem State_setTxq_response (s : State) (q : Nat) (Q : TxQueue) :
    (s.setTxq q Q).response = s.response := rfl
@[simp] theorem State_setTxq_localAddress (s : State) (q : Nat) (Q : TxQueue) :
    (s.setTxq q Q).localAddress = s.localAddress := rfl
@[simp] theorem State_setTxq_params (s : State) (q : Nat) (Q : TxQueue) :
    (s.setTxq q Q).params = s.params := rfl
@[simp] theorem State_setAlloc_ins (s : State) (a : AllocPort) :
    (s.setAlloc a).ins = s.ins := rfl
@[simp] theorem State_setAlloc_txq (s : State) (a : AllocPort) :
    (s.setAlloc a).txq = s.txq := rfl
@[simp] theorem State_setAlloc_allocPort (s : State) (a : AllocPort) :
    (s.setAlloc a).allocPort = a := rfl
@[simp] theorem State_setAlloc_commandPort (s : State) (a : AllocPort) :
    (s.setAlloc a).commandPort = s.commandPort := rfl
@[simp] theorem State_setAlloc_response (s : State) (a : AllocPort) :
    (s.setAlloc a).response = s.response := rfl
@[simp] theorem State_setAlloc_localAddress (s : State) (a : AllocPort) :
    (s.setAlloc a).localAddress = s.localAddress := rfl
@[simp] theorem State_setAlloc_params (s : State) (a : AllocPort) :
    (s.setAlloc a).params = s.params := rfl
@[simp] theorem State_issue_ins (s : State) (rec : Bytes) :
    (s.issue rec).ins = s.ins := rfl
@[simp] theorem State_issue_txq (s : State) (rec : Bytes) :
    (s.issue rec).txq = s.txq := rfl
@[simp] theorem State_issue_allocPort (s : State) (rec : Bytes) :
    (s.issue rec).allocPort = s.allocPort := rfl
@[simp] theorem State_issue_commandPort (s : State) (rec : Bytes) :
    (s.issue rec).commandPort = rec :: s.commandPort := rfl
@[simp] theorem State_issue_response (s : State) (rec : Bytes) :
    (s.issue rec).response = s.response := rfl
@[simp] theorem State_issue_localAddress (s : State) (rec : Bytes) :
    (s.issue rec).localAddress = s.localAddress := rfl
@[simp] theorem State_issue_params (s : State) (rec : Bytes) :
    (s.issue rec).params = s.params := rfl

/-! ### The allocator port -/

@[simp] theorem AllocPort_release_answers (a : AllocPort) (objs : List ObjId) :
    (a.release objs).answers = a.answers := rfl
@[simp] theorem AllocPort_release_requests (a : AllocPort) (objs : List ObjId) :
    (a.release objs).requests = a.requests := rfl
@[simp] theorem AllocPort_release_nextObj (a : AllocPort) (objs : List ObjId) :
    (a.release objs).nextObj = a.nextObj := rfl
@[simp] theorem AllocPort_release_ledger (a : AllocPort) (objs : List ObjId) :
    (a.release objs).ledger = a.ledger.filter (fun o => decide (o ∉ objs)) := rfl
@[simp] theorem AllocPort_release_log (a : AllocPort) (objs : List ObjId) :
    (a.release objs).log = a.log := rfl
@[simp] theorem AllocPort_free_answers (a : AllocPort) (obj : ObjId) :
    (a.free obj).answers = a.answers := rfl
@[simp] theorem AllocPort_free_requests (a : AllocPort) (obj : ObjId) :
    (a.free obj).requests = a.requests := rfl
@[simp] theorem AllocPort_free_nextObj (a : AllocPort) (obj : ObjId) :
    (a.free obj).nextObj = a.nextObj := rfl
@[simp] theorem AllocPort_free_ledger (a : AllocPort) (obj : ObjId) :
    (a.free obj).ledger = a.ledger.filter (fun o => decide (o ∉ [obj])) := rfl
@[simp] theorem AllocPort_free_log (a : AllocPort) (obj : ObjId) :
    (a.free obj).log = a.log ++ [.free obj] := rfl

/-! ### Instances, subscriptions, queues -/

@[simp] theorem Instance_setSubs_valid (I : Instance) (r : Registry) :
    (I.setSubs r).valid = I.valid := rfl
@[simp] theorem Instance_setSubs_nodeId (I : Instance) (r : Registry) :
    (I.setSubs r).nodeId = I.nodeId := rfl
@[simp] theorem Instance_setSubs_subs (I : Instance) (r : Registry) :
    (I.setSubs r).subs = r := rfl
@[simp] theorem Instance_putSub_valid (I : Instance) (k : TransferKind) (p : Word16) (sub : Subscription) :
    (I.putSub k p sub).valid = I.valid := rfl
@[simp] theorem Instance_putSub_nodeId (I : Instance) (k : TransferKind) (p : Word16) (sub : Subscription) :
    (I.putSub k p sub).nodeId = I.nodeId := rfl
@[simp] theorem Instance_putSub_subs (I : Instance) (k : TransferKind) (p : Word16) (sub : Subscription) :
    (I.putSub k p sub).subs = I.subs.put k (Map.insert p.toNat sub (I.subs.get k)) := rfl
@[simp] theorem Instance_dropSub_valid (I : Instance) (k : TransferKind) (p : Word16) :
    (I.dropSub k p).valid = I.valid := rfl
@[simp] theorem Instance_dropSub_nodeId (I : Instance) (k : TransferKind) (p : Word16) :
    (I.dropSub k p).nodeId = I.nodeId := rfl
@[simp] theorem Instance_dropSub_subs (I : Instance) (k : TransferKind) (p : Word16) :
    (I.dropSub k p).subs = I.subs.put k (Map.erase p.toNat (I.subs.get k)) := rfl
@[simp] theorem Subscription_putSession_portId (sub : Subscription) (n : Nat) (x : Session) :
    (sub.putSession n x).portId = sub.portId := rfl
@[simp] theorem Subscription_putSession_extent (sub : Subscription) (n : Nat) (x : Session) :
    (sub.putSession n x).extent = sub.extent := rfl
@[simp] theorem Subscription_putSession_transferIdTimeout (sub : Subscription) (n : Nat) (x : Session) :
    (sub.putSession n x).transferIdTimeout = sub.transferIdTimeout := rfl
@[simp] theorem Subscription_putSession_sessions (sub : Subscription) (n : Nat) (x : Session) :
    (sub.putSession n x).sessions = Map.insert n x sub.sessions := rfl
@[simp] theorem TxQueue_withoutItem_valid (Q : TxQueue) (id : Nat) :
    (Q.withoutItem id).valid = Q.valid := rfl
@[simp] theorem TxQueue_withoutItem_capacity (Q : TxQueue) (id : Nat) :
    (Q.withoutItem id).capacity = Q.capacity := rfl
@[simp] theorem TxQueue_withoutItem_mtuBytes (Q : TxQueue) (id : Nat) :
    (Q.withoutItem id).mtuBytes = Q.mtuBytes := rfl
@[simp] theorem TxQueue_withoutItem_size (Q : TxQueue) (id : Nat) :
    (Q.withoutItem id).size = Q.size - 1 := rfl
@[simp] theorem TxQueue_withoutItem_nextSeq (Q : TxQueue) (id : Nat) :
    (Q.withoutItem id).nextSeq = Q.nextSeq := rfl
@[simp] theorem TxQueue_withoutItem_items (Q : TxQueue) (id : Nat) :
    (Q.withoutItem id).items = removeItem id Q.items := rfl
@[simp] theorem TxQueue_commit_valid (Q : TxQueue) (ms : List TxItem) :
    (Q.commit ms).valid = Q.valid := rfl
@[simp] theorem TxQueue_commit_capacity (Q : TxQueue) (ms : List TxItem) :
    (Q.commit ms).capacity = Q.capacity := rfl
@[simp] theorem TxQueue_commit_mtuBytes (Q : TxQueue) (ms : List TxItem) :
    (Q.commit ms).mtuBytes = Q.mtuBytes := rfl
@[simp] theorem TxQueue_commit_size (Q : TxQueue) (ms : List TxItem) :
    (Q.commit ms).size = Q.size + ms.length := rfl
@[simp] theorem TxQueue_commit_nextSeq (Q : TxQueue) (ms : List TxItem) :
    (Q.commit ms).nextSeq = Q.nextSeq + ms.length := rfl
@[simp] theorem TxQueue_commit_items (Q : TxQueue) (ms : List TxItem) :
    (Q.commit ms).items = insertItems ms Q.items := rfl

/-! ### Sessions -/

@[simp] theorem Session_cleared_transferTimestamp (x : Session) :
    (x.cleared).transferTimestamp = x.transferTimestamp := rfl
@[simp] theorem Session_cleared_totalPayloadSize (x : Session) :
    (x.cleared).totalPayloadSize = 0 := rfl
@[simp] theorem Session_cleared_payloadSize (x : Session) :
    (x.cleared).payloadSize = 0 := rfl
@[simp] theorem Session_cleared_payload (x : Session) :
    (x.cleared).payload = none := rfl
@[simp] theorem Session_cleared_crc (x : Session) :
    (x.cleared).crc = Config.crc32cSeed := rfl
@[simp] theorem Session_cleared_transferId (x : Session) :
    (x.cleared).transferId = x.transferId := rfl
@[simp] theorem Session_cleared_redundantTransportIndex (x : Session) :
    (x.cleared).redundantTransportIndex = x.redundantTransportIndex := rfl
@[simp] theorem Session_cleared_lastFrameIndex (x : Session) :
    (x.cleared).lastFrameIndex = 0#31 := rfl
@[simp] theorem Session_cleared_obj (x : Session) :
    (x.cleared).obj = x.obj := rfl
@[simp] theorem Session_advanced_transferTimestamp (x : Session) :
    (x.advanced).transferTimestamp = x.transferTimestamp := rfl
@[simp] theorem Session_advanced_totalPayloadSize (x : Session) :
    (x.advanced).totalPayloadSize = 0 := rfl
@[simp] theorem Session_advanced_payloadSize (x : Session) :
    (x.advanced).payloadSize = 0 := rfl
@[simp] theorem Session_advanced_payload (x : Session) :
    (x.advanced).payload = none := rfl
@[simp] theorem Session_advanced_crc (x : Session) :
    (x.advanced).crc = Config.crc32cSeed := rfl
@[simp] theorem Session_advanced_transferId (x : Session) :
    (x.advanced).transferId = x.transferId + 1#64 := rfl
@[simp] theorem Session_advanced_redundantTransportIndex (x : Session) :
    (x.advanced).redundantTransportIndex = x.redundantTransportIndex := rfl
@[simp] theorem Session_advanced_lastFrameIndex (x : Session) :
    (x.advanced).lastFrameIndex = 0#31 := rfl
@[simp] theorem Session_advanced_obj (x : Session) :
    (x.advanced).obj = x.obj := rfl
@[simp] theorem Session_retargeted_transferTimestamp (x : Session) (tid : Word64) (rti : Byte) :
    (x.retargeted tid rti).transferTimestamp = x.transferTimestamp := rfl
@[simp] theorem Session_retargeted_totalPayloadSize (x : Session) (tid : Word64) (rti : Byte) :
    (x.retargeted tid rti).totalPayloadSize = 0 := rfl
@[simp] theorem Session_retargeted_payloadSize (x : Session) (tid : Word64) (rti : Byte) :
    (x.retargeted tid rti).payloadSize = 0 := rfl
@[simp] theorem Session_retargeted_payload (x : Session) (tid : Word64) (rti : Byte) :
    (x.retargeted tid rti).payload = none := rfl
@[simp] theorem Session_retargeted_crc (x : Session) (tid : Word64) (rti : Byte) :
    (x.retargeted tid rti).crc = Config.crc32cSeed := rfl
@[simp] theorem Session_retargeted_transferId (x : Session) (tid : Word64) (rti : Byte) :
    (x.retargeted tid rti).transferId = tid := rfl
@[simp] theorem Session_retargeted_redundantTransportIndex (x : Session) (tid : Word64) (rti : Byte) :
    (x.retargeted tid rti).redundantTransportIndex = rti := rfl
@[simp] theorem Session_retargeted_lastFrameIndex (x : Session) (tid : Word64) (rti : Byte) :
    (x.retargeted tid rti).lastFrameIndex = 0#31 := rfl
@[simp] theorem Session_retargeted_obj (x : Session) (tid : Word64) (rti : Byte) :
    (x.retargeted tid rti).obj = x.obj := rfl
@[simp] theorem Session_absorb_transferTimestamp (w e : Nat) (x : Session) (h : Header) (c : Bytes)
    (ts : Word64) :
    (x.absorb w e h c ts).transferTimestamp = if h.sot then ts else x.transferTimestamp := rfl
@[simp] theorem Session_absorb_totalPayloadSize (w e : Nat) (x : Session) (h : Header) (c : Bytes)
    (ts : Word64) :
    (x.absorb w e h c ts).totalPayloadSize = addCount w e x.totalPayloadSize c.length := rfl
@[simp] theorem Session_absorb_payloadSize (w e : Nat) (x : Session) (h : Header) (c : Bytes)
    (ts : Word64) :
    (x.absorb w e h c ts).payloadSize = x.payloadSize := rfl
@[simp] theorem Session_absorb_payload (w e : Nat) (x : Session) (h : Header) (c : Bytes)
    (ts : Word64) :
    (x.absorb w e h c ts).payload = x.payload := rfl
@[simp] theorem Session_absorb_crc (w e : Nat) (x : Session) (h : Header) (c : Bytes)
    (ts : Word64) :
    (x.absorb w e h c ts).crc = crc32cAdd x.crc c := rfl
@[simp] theorem Session_absorb_transferId (w e : Nat) (x : Session) (h : Header) (c : Bytes)
    (ts : Word64) :
    (x.absorb w e h c ts).transferId = x.transferId := rfl
@[simp] theorem Session_absorb_redundantTransportIndex (w e : Nat) (x : Session) (h : Header) (c : Bytes)
    (ts : Word64) :
    (x.absorb w e h c ts).redundantTransportIndex = x.redundantTransportIndex := rfl
@[simp] theorem Session_absorb_lastFrameIndex (w e : Nat) (x : Session) (h : Header) (c : Bytes)
    (ts : Word64) :
    (x.absorb w e h c ts).lastFrameIndex = x.lastFrameIndex := rfl
@[simp] theorem Session_absorb_obj (w e : Nat) (x : Session) (h : Header) (c : Bytes)
    (ts : Word64) :
    (x.absorb w e h c ts).obj = x.obj := rfl
@[simp] theorem Session_store_transferTimestamp (x : Session) (b : Buffer) (c : Bytes) :
    (x.store b c).transferTimestamp = x.transferTimestamp := rfl
@[simp] theorem Session_store_totalPayloadSize (x : Session) (b : Buffer) (c : Bytes) :
    (x.store b c).totalPayloadSize = x.totalPayloadSize := rfl
@[simp] theorem Session_store_payloadSize (x : Session) (b : Buffer) (c : Bytes) :
    (x.store b c).payloadSize = x.payloadSize + c.length := rfl
@[simp] theorem Session_store_payload (x : Session) (b : Buffer) (c : Bytes) :
    (x.store b c).payload = some { b with data := memWrite b.data x.payloadSize c } := rfl
@[simp] theorem Session_store_crc (x : Session) (b : Buffer) (c : Bytes) :
    (x.store b c).crc = x.crc := rfl
@[simp] theorem Session_store_transferId (x : Session) (b : Buffer) (c : Bytes) :
    (x.store b c).transferId = x.transferId := rfl
@[simp] theorem Session_store_redundantTransportIndex (x : Session) (b : Buffer) (c : Bytes) :
    (x.store b c).redundantTransportIndex = x.redundantTransportIndex := rfl
@[simp] theorem Session_store_lastFrameIndex (x : Session) (b : Buffer) (c : Bytes) :
    (x.store b c).lastFrameIndex = x.lastFrameIndex := rfl
@[simp] theorem Session_store_obj (x : Session) (b : Buffer) (c : Bytes) :
    (x.store b c).obj = x.obj := rfl

/-! ### Registries -/

@[simp] theorem Registry_get_put (r : Registry) (k : TransferKind) (m : Map Subscription) :
    (r.put k m).get k = m := by cases k <;> rfl

theorem Registry_get_put_other (r : Registry) (j k : TransferKind) (m : Map Subscription) (h : j ≠ k) :
    (r.put k m).get j = r.get j := by cases j <;> cases k <;> first | rfl | exact absurd rfl h

end Sys2Proof.Machine
end

