-- ==== Sys2Proof/Laws/Maps.lean ====
section
/-! SUPPORT. Finite maps: reading after writing, and that every operation keeps the canonical form. -/

namespace Sys2Proof.Machine

open Sys2Proof

variable {α : Type}

/-! ### Reading after writing, in any list of entries -/

@[simp] theorem Map.find_nil (k : Nat) : Map.find k ([] : Map α) = none := rfl

@[simp] theorem Map.find_insert_same (k : Nat) (v : α) (m : Map α) : Map.find k (Map.insert k v m) = some v := by
  induction m with
  | nil => simp [Map.insert, Map.find]
  | cons e m ih =>
    obtain ⟨k', v'⟩ := e
    by_cases h : k = k'
    · simp [Map.insert, Map.find, h]
    · by_cases h' : k < k' <;> simp [Map.insert, Map.find, h, h', ih]

theorem Map.find_insert_other {k j : Nat} (h : j ≠ k) (v : α) (m : Map α) :
    Map.find j (Map.insert k v m) = Map.find j m := by
  induction m with
  | nil => simp [Map.insert, Map.find, h]
  | cons e m ih =>
    obtain ⟨k', v'⟩ := e
    by_cases hk : k = k'
    · subst hk; simp [Map.insert, Map.find, h]
    · by_cases h' : k < k'
      · simp [Map.insert, Map.find, hk, h', h]
      · by_cases hj : j = k' <;> simp [Map.insert, Map.find, hk, h', hj, ih]

@[simp] theorem Map.find_erase_same (k : Nat) (m : Map α) : Map.find k (Map.erase k m) = none := by
  induction m with
  | nil => rfl
  | cons e m ih =>
    obtain ⟨k', v'⟩ := e
    by_cases h : k' = k
    · simpa [Map.erase, h] using ih
    · simpa [Map.erase, Map.find, h, Ne.symm h] using ih

theorem Map.find_erase_other {k j : Nat} (h : j ≠ k) (m : Map α) : Map.find j (Map.erase k m) = Map.find j m := by
  induction m with
  | nil => rfl
  | cons e m ih =>
    obtain ⟨k', v'⟩ := e
    by_cases hk : k' = k
    · subst hk; simpa [Map.erase, Map.find, h] using ih
    · by_cases hj : j = k'
      · simp [Map.erase, Map.find, hk, hj]
      · simpa [Map.erase, Map.find, hk, hj] using ih

@[simp] theorem Map.insert_insert_same (k : Nat) (v w : α) (m : Map α) :
    Map.insert k v (Map.insert k w m) = Map.insert k v m := by
  induction m with
  | nil => simp [Map.insert]
  | cons e m ih =>
    obtain ⟨k', v'⟩ := e
    by_cases h : k = k'
    · simp [Map.insert, h]
    · by_cases h' : k < k' <;> simp [Map.insert, h, h', ih]

/-! ### Which entries there are -/

theorem Map.mem_of_find {k : Nat} {v : α} {m : Map α} (h : Map.find k m = some v) : (k, v) ∈ m := by
  induction m with
  | nil => simp at h
  | cons e m ih =>
    obtain ⟨k', v'⟩ := e
    by_cases hk : k = k'
    · simp [Map.find, hk] at h; simp [hk, h]
    · simp [Map.find, hk] at h; exact List.mem_cons_of_mem _ (ih h)

theorem Map.mem_insert {k : Nat} {v : α} {m : Map α} {e : Nat × α} (h : e ∈ Map.insert k v m) :
    e = (k, v) ∨ e ∈ m := by
  induction m with
  | nil => simpa [Map.insert] using h
  | cons e' m ih =>
    obtain ⟨k', v'⟩ := e'
    unfold Map.insert at h
    split_ifs at h
    · rcases List.mem_cons.1 h with h | h
      · exact .inl h
      · exact .inr (List.mem_cons_of_mem _ h)
    · rcases List.mem_cons.1 h with h | h
      · exact .inl h
      · exact .inr h
    · rcases List.mem_cons.1 h with h | h
      · exact .inr (h ▸ List.mem_cons_self)
      · exact (ih h).imp_right (List.mem_cons_of_mem _)

theorem Map.mem_of_mem_erase {k : Nat} {m : Map α} {e : Nat × α} (h : e ∈ Map.erase k m) : e ∈ m :=
  (List.mem_filter.1 h).1

/-! ### The canonical form -/

theorem Map.wf_iff (m : Map α) : Map.wf m = true ↔ m.Pairwise (fun a b => a.1 < b.1) := by
  simp [Map.wf]

@[simp] theorem Map.wf_nil : Map.wf ([] : Map α) = true := rfl

theorem Map.wf_insert {k : Nat} {v : α} {m : Map α} (h : Map.wf m = true) : Map.wf (Map.insert k v m) = true := by
  rw [Map.wf_iff] at *
  induction m with
  | nil => simp [Map.insert]
  | cons e m ih =>
    obtain ⟨k', v'⟩ := e
    obtain ⟨h1, h2⟩ := List.pairwise_cons.1 h
    by_cases hk : k = k'
    · subst hk; simpa [Map.insert] using h
    · by_cases hk' : k < k'
      · simp only [Map.insert, hk, hk', if_true, if_false, List.pairwise_cons]
        refine ⟨fun e he => ?_, h1, h2⟩
        rcases List.mem_cons.1 he with rfl | he
        · exact hk'
        · exact lt_trans hk' (h1 e he)
      · simp only [Map.insert, hk, hk', if_false, List.pairwise_cons]
        refine ⟨fun e he => ?_, ih h2⟩
        rcases Map.mem_insert he with rfl | he
        · simp only; omega
        · exact h1 e he

theorem Map.wf_erase {k : Nat} {m : Map α} (h : Map.wf m = true) : Map.wf (Map.erase k m) = true := by
  rw [Map.wf_iff] at *
  exact h.sublist List.filter_sublist

theorem Map.find_of_mem {k : Nat} {v : α} {m : Map α} (h : Map.wf m = true) (hm : (k, v) ∈ m) :
    Map.find k m = some v := by
  rw [Map.wf_iff] at h
  induction m with
  | nil => simp at hm
  | cons e m ih =>
    obtain ⟨k', v'⟩ := e
    obtain ⟨h1, h2⟩ := List.pairwise_cons.1 h
    rcases List.mem_cons.1 hm with he | hm
    · simp only [Prod.mk.injEq] at he; simp [Map.find, he]
    · have := h1 _ hm
      simp only at this
      simp [Map.find, ih h2 hm]
      omega

/-! ### The registry and the instance -/

@[simp] theorem Registry.put_put_same (r : Registry) (k : TransferKind) (m n : Map Subscription) :
    (r.put k m).put k n = r.put k n := by cases k <;> rfl

@[simp] theorem Instance.findSub_putSub_same (I : Instance) (k : TransferKind) (p : Word16) (sub : Subscription) :
    (I.putSub k p sub).findSub k p = some sub := by
  simp [Instance.findSub, Instance.putSub, Instance.setSubs]

theorem Instance.findSub_putSub_other {k k' : TransferKind} {p p' : Word16} (h : (k', p') ≠ (k, p)) (I : Instance)
    (sub : Subscription) : (I.putSub k p sub).findSub k' p' = I.findSub k' p' := by
  by_cases hk : k' = k
  · subst hk
    have hp : p'.toNat ≠ p.toNat := fun e => h (by rw [BitVec.eq_of_toNat_eq e])
    simp [Instance.findSub, Instance.putSub, Instance.setSubs, Map.find_insert_other hp]
  · simp [Instance.findSub, Instance.putSub, Instance.setSubs, Registry_get_put_other _ _ _ _ hk]

@[simp] theorem Instance.findSub_dropSub_same (I : Instance) (k : TransferKind) (p : Word16) :
    (I.dropSub k p).findSub k p = none := by
  simp [Instance.findSub, Instance.dropSub, Instance.setSubs]

theorem Instance.findSub_dropSub_other {k k' : TransferKind} {p p' : Word16} (h : (k', p') ≠ (k, p))
    (I : Instance) : (I.dropSub k p).findSub k' p' = I.findSub k' p' := by
  by_cases hk : k' = k
  · subst hk
    have hp : p'.toNat ≠ p.toNat := fun e => h (by rw [BitVec.eq_of_toNat_eq e])
    simp [Instance.findSub, Instance.dropSub, Instance.setSubs, Map.find_erase_other hp]
  · simp [Instance.findSub, Instance.dropSub, Instance.setSubs, Registry_get_put_other _ _ _ _ hk]

@[simp] theorem Instance.putSub_putSub_same (I : Instance) (k : TransferKind) (p : Word16) (sub sub' : Subscription) :
    (I.putSub k p sub).putSub k p sub' = I.putSub k p sub' := by
  simp [Instance.putSub, Instance.setSubs]

@[simp] theorem Subscription.putSession_putSession_same (sub : Subscription) (n : Nat) (x y : Session) :
    (sub.putSession n x).putSession n y = sub.putSession n y := by
  simp [Subscription.putSession]

end Sys2Proof.Machine
end

