-- ==== Sys2Proof/Laws/Ops.lean ====
section
/-! SUPPORT. One lemma per shared operation that says everything it can do: the context files, the allocator port,
the header decoder's refusals, and what the steps of `RX_ACCEPT` can leave. -/

namespace Sys2Proof.Machine

open Sys2Proof

/-! ### The context files -/

theorem validIns_eq_some {s : State} {i : Nat} {I : Instance} :
    s.validIns i = some I ↔ s.ins[i]? = some I ∧ I.valid = true := by
  unfold State.validIns
  split
  · rename_i J hJ
    by_cases h : J.valid = true
    · simp only [h, if_true, hJ, Option.some.injEq]
      exact ⟨fun e => ⟨e, e ▸ h⟩, fun e => e.1⟩
    · simp only [h, hJ, Option.some.injEq, if_false, reduceCtorEq, false_iff]
      rintro ⟨rfl, h'⟩
      exact h h'
  · rename_i h; simp [h]

theorem validTxq_eq_some {s : State} {q : Nat} {Q : TxQueue} :
    s.validTxq q = some Q ↔ s.txq[q]? = some Q ∧ Q.valid = true := by
  unfold State.validTxq
  split
  · rename_i J hJ
    by_cases h : J.valid = true
    · simp only [h, if_true, hJ, Option.some.injEq]
      exact ⟨fun e => ⟨e, e ▸ h⟩, fun e => e.1⟩
    · simp only [h, hJ, Option.some.injEq, if_false, reduceCtorEq, false_iff]
      rintro ⟨rfl, h'⟩
      exact h h'
  · rename_i h; simp [h]

theorem validIns_outOfRange {s : State} {i : Nat} (h : s.ins.length ≤ i) : s.validIns i = none := by
  simp [State.validIns, List.getElem?_eq_none h]

theorem validTxq_outOfRange {s : State} {q : Nat} (h : s.txq.length ≤ q) : s.validTxq q = none := by
  simp [State.validTxq, List.getElem?_eq_none h]

theorem validIns_invalid {s : State} {i : Nat} {I : Instance} (h : s.ins[i]? = some I) (hv : I.valid = false) :
    s.validIns i = none := by
  simp [State.validIns, h, hv]

theorem validTxq_invalid {s : State} {q : Nat} {Q : TxQueue} (h : s.txq[q]? = some Q) (hv : Q.valid = false) :
    s.validTxq q = none := by
  simp [State.validTxq, h, hv]

theorem validIns_congr {s t : State} {i : Nat} (h : s.ins[i]? = t.ins[i]?) : s.validIns i = t.validIns i := by
  simp [State.validIns, h]

theorem validTxq_congr {s t : State} {q : Nat} (h : s.txq[q]? = t.txq[q]?) : s.validTxq q = t.validTxq q := by
  simp [State.validTxq, h]

theorem lt_of_validIns {s : State} {i : Nat} {I : Instance} (h : s.validIns i = some I) : i < s.ins.length :=
  (List.getElem?_eq_some_iff.1 (validIns_eq_some.1 h).1).1

theorem lt_of_validTxq {s : State} {q : Nat} {Q : TxQueue} (h : s.validTxq q = some Q) : q < s.txq.length :=
  (List.getElem?_eq_some_iff.1 (validTxq_eq_some.1 h).1).1

/-! ### The allocator port -/

theorem answer_zero (a : AllocPort) : a.answer 0 = a.nextAnswer := by
  unfold AllocPort.answer AllocPort.nextAnswer
  cases a.answers <;> simp

/-- `Alloc(n)` granted (R66). -/
theorem alloc_granted {a : AllocPort} (h : a.answer 0 = true) (n : Nat) :
    a.alloc n = (some a.nextObj,
      { answers := a.answers.tail, requests := a.requests + 1, nextObj := a.nextObj + 1,
        ledger := a.ledger ++ [a.nextObj], log := a.log ++ [.alloc n (some a.nextObj)] }) := by
  rw [answer_zero] at h; simp [AllocPort.alloc, h]

/-- `Alloc(n)` denied (R66). -/
theorem alloc_denied {a : AllocPort} (h : a.answer 0 = false) (n : Nat) :
    a.alloc n = (none,
      { answers := a.answers.tail, requests := a.requests + 1, nextObj := a.nextObj,
        ledger := a.ledger, log := a.log ++ [.alloc n none] }) := by
  rw [answer_zero] at h; simp [AllocPort.alloc, h]

/-- The answers after one request are those from the next on. -/
theorem answer_alloc (a : AllocPort) (n j : Nat) : (a.alloc n).2.answer j = a.answer (j + 1) := by
  have h : (a.alloc n).2.answers = a.answers.tail ∧ (a.alloc n).2.requests = a.requests + 1 := by
    unfold AllocPort.alloc; split <;> exact ⟨rfl, rfl⟩
  simp only [AllocPort.answer, h.1, h.2, List.getElem?_tail]
  congr 2
  omega

@[simp] theorem release_nil (a : AllocPort) : a.release [] = a := by
  simp [AllocPort.release]

@[simp] theorem mem_release {a : AllocPort} {objs : List ObjId} {o : ObjId} :
    o ∈ (a.release objs).ledger ↔ o ∈ a.ledger ∧ o ∉ objs := by
  simp [AllocPort.release]

@[simp] theorem mem_free {a : AllocPort} {obj o : ObjId} : o ∈ (a.free obj).ledger ↔ o ∈ a.ledger ∧ o ≠ obj := by
  simp [AllocPort.free, AllocPort.release]

@[simp] theorem freeSet_nil (a : AllocPort) : a.freeSet [] = a := rfl

theorem freeSet_of_ne {objs : List ObjId} (h : objs ≠ []) (a : AllocPort) :
    a.freeSet objs = { a.release objs with log := a.log ++ [.freeSet (sortObjs objs)] } := by
  simp [AllocPort.freeSet, h]

@[simp] theorem freeSet_ledger (objs : List ObjId) (a : AllocPort) :
    (a.freeSet objs).ledger = a.ledger.filter (fun o => decide (o ∉ objs)) := by
  by_cases h : objs = []
  · subst h; simp
  · rw [freeSet_of_ne h]; rfl

@[simp] theorem freeSet_nextObj (objs : List ObjId) (a : AllocPort) : (a.freeSet objs).nextObj = a.nextObj := by
  by_cases h : objs = []
  · subst h; simp
  · rw [freeSet_of_ne h]; rfl

theorem insertObj_perm (o : ObjId) (os : List ObjId) : (insertObj o os).Perm (o :: os) := by
  induction os with
  | nil => exact List.Perm.refl _
  | cons o' os ih =>
    unfold insertObj
    split_ifs
    · exact List.Perm.refl _
    · exact (ih.cons o').trans (List.Perm.swap ..)

theorem sortObjs_perm (os : List ObjId) : (sortObjs os).Perm os := by
  induction os with
  | nil => exact List.Perm.refl _
  | cons o os ih => exact (insertObj_perm o _).trans (ih.cons o)

theorem insertObj_sorted {o : ObjId} {os : List ObjId} (h : os.Pairwise (fun x y => x ≤ y)) :
    (insertObj o os).Pairwise (fun x y => x ≤ y) := by
  induction os with
  | nil => simp [insertObj]
  | cons o' os ih =>
    obtain ⟨h1, h2⟩ := List.pairwise_cons.1 h
    unfold insertObj
    split_ifs with ho
    · refine List.pairwise_cons.2 ⟨fun x hx => ?_, h⟩
      rcases List.mem_cons.1 hx with rfl | hx
      · exact ho
      · exact le_trans ho (h1 x hx)
    · refine List.pairwise_cons.2 ⟨fun x hx => ?_, ih h2⟩
      rcases List.mem_cons.1 ((insertObj_perm o os).mem_iff.1 hx) with rfl | hx
      · exact le_of_lt (not_le.1 ho)
      · exact h1 x hx

theorem sortObjs_sorted (os : List ObjId) : (sortObjs os).Pairwise (fun x y => x ≤ y) := by
  induction os with
  | nil => exact List.Pairwise.nil
  | cons o os ih => exact insertObj_sorted ih

/-! ### Operand checks, with their constants written out -/

theorem portInRange_iff {k : TransferKind} {p : Word16} : portInRange k p = true ↔ p.toNat ≤ portIdMax k :=
  decide_eq_true_iff

@[simp] theorem portIdMax_message : portIdMax .message = 32767 := rfl
@[simp] theorem portIdMax_response : portIdMax .response = 16383 := rfl
@[simp] theorem portIdMax_request : portIdMax .request = 16383 := rfl

theorem nodesSuitKind_message {n r : Word16} : nodesSuitKind n .message r = true ↔ r = 0xFFFF#16 :=
  decide_eq_true_iff

theorem nodesSuitKind_service {n r : Word16} {k : TransferKind} (hk : k ≠ .message) :
    nodesSuitKind n k r = true ↔ r ≠ 0xFFFF#16 ∧ n ≠ 0xFFFF#16 := by
  cases k with
  | message => exact absurd rfl hk
  | response => exact (Bool.and_eq_true_iff).trans (and_congr decide_eq_true_iff decide_eq_true_iff)
  | request => exact (Bool.and_eq_true_iff).trans (and_congr decide_eq_true_iff decide_eq_true_iff)

theorem kindOf_some {b : BitVec 2} {k : TransferKind} :
    kindOf b = some k ↔ (b = 0#2 ∧ k = .message) ∨ (b = 1#2 ∧ k = .response) ∨ (b = 2#2 ∧ k = .request) := by
  revert b k; intro b k
  cases k <;> revert b <;> decide

theorem kindOf_none {b : BitVec 2} : kindOf b = none ↔ b = 3#2 := by
  revert b; decide

theorem headerFieldsValid_iff {h : Header} :
    headerFieldsValid h = true ↔ h.version = 1#8 ∧ h.priority.toNat ≤ 7 ∧ 1 ≤ h.frameIndex.toNat
      ∧ (h.sourceNodeId = 0xFFFF#16 → h.sot = true ∧ h.eot = true ∧ h.kind = .message) := by
  simp only [headerFieldsValid, Bool.and_eq_true, Bool.or_eq_true, decide_eq_true_eq, and_assoc]
  have e : Config.nodeIdUnset = 0xFFFF#16 := rfl
  have e' : Config.headerVersion = 1#8 := rfl
  rw [e, e']
  tauto

theorem headerCrcValid_iff {verify : Bool} {frame : Bytes} {h : Header} :
    headerCrcValid verify frame h = true ↔ (verify = true → h.headerCrc = crc16 (slice frame 0 22)) := by
  cases verify <;> simp [headerCrcValid]

theorem addressed_iff {n : Word16} {h : Header} :
    addressed n h = true ↔ h.kind = .message ∨ (n ≠ 0xFFFF#16 ∧ h.destinationNodeId = n) :=
  (Bool.or_eq_true_iff).trans (or_congr decide_eq_true_iff
    ((Bool.and_eq_true_iff).trans (and_congr decide_eq_true_iff decide_eq_true_iff)))

theorem roomFor_iff {bound : Option Nat} {r : Registry} :
    roomFor bound r = true ↔
      ∀ m, bound = some m → r.message.length + r.response.length + r.request.length < m := by
  cases bound with
  | none => simp [roomFor]
  | some m => exact decide_eq_true_iff.trans ⟨fun h _ e => by cases e; exact h, fun h => h m rfl⟩

/-! ### The specifier builder -/

/-- What an accepted builder call has (R156). -/
theorem buildSpecifier_some {nodeId : Word16} {priority : Byte} {kind : BitVec 2} {portId remote : Word16}
    {address : Bytes} {k : TransferKind} {sp : Specifier} :
    buildSpecifier nodeId priority kind portId remote address = some (k, sp) ↔
      kindOf kind = some k ∧ priority.toNat ≤ 7 ∧ portInRange k portId = true ∧ nodesSuitKind nodeId k remote = true
        ∧ sp = specifierOf nodeId k portId remote address := by
  unfold buildSpecifier
  split
  · rename_i h; simp [h]
  · rename_i k' h
    split_ifs with h1 h2 h3
    · simp only [false_iff]; rintro ⟨-, h', -⟩; omega
    · simp only [false_iff, h, Option.some.injEq]
      rintro ⟨rfl, -, h', -⟩; simp [h2] at h'
    · simp only [false_iff, h, Option.some.injEq]
      rintro ⟨rfl, -, -, h', -⟩; simp [h3] at h'
    · simp only [h, Option.some.injEq, Prod.mk.injEq]
      constructor
      · rintro ⟨rfl, rfl⟩
        exact ⟨rfl, by omega, by simpa using h2, by simpa using h3, rfl⟩
      · rintro ⟨rfl, -, -, -, rfl⟩
        exact ⟨rfl, rfl⟩

/-! ### The header decoder -/

/-- What a decoded frame has (R175, R176). -/
theorem decodeFrame_some {verify : Bool} {frame chunk : Bytes} {h : Header} :
    decodeFrame verify frame = some (h, chunk) ↔
      24 ≤ frame.length ∧ headerFieldsValid h = true ∧ headerCrcValid verify frame h = true ∧ h = headerOf frame
        ∧ chunk = frame.drop 24 := by
  unfold decodeFrame
  split_ifs with h1 h2
  · simp only [Config.headerSize] at h1
    simp only [false_iff]; rintro ⟨h', -⟩; omega
  · simp only [false_iff]
    rintro ⟨-, ha, hb, rfl, -⟩
    simp [ha, hb] at h2
  · simp only [Config.headerSize] at *
    simp only [Bool.and_eq_false_iff, not_or, Bool.not_eq_false] at h2
    simp only [Option.some.injEq, Prod.mk.injEq]
    constructor
    · rintro ⟨rfl, rfl⟩; exact ⟨by omega, h2.1, h2.2, rfl, rfl⟩
    · rintro ⟨-, -, -, rfl, rfl⟩; exact ⟨rfl, rfl⟩

/-- A decoded frame's index is at least 1 (R176 (d)). -/
theorem frameIndex_pos_of_decodeFrame {verify : Bool} {frame chunk : Bytes} {h : Header}
    (hd : decodeFrame verify frame = some (h, chunk)) : 1 ≤ h.frameIndex.toNat := by
  have := (decodeFrame_some.1 hd).2.1
  simp only [headerFieldsValid, Bool.and_eq_true, decide_eq_true_eq] at this
  exact this.1.2

/-- `sot` says the frame index is 1 (R175). -/
theorem sot_iff_of_decodeFrame {verify : Bool} {frame chunk : Bytes} {h : Header}
    (hd : decodeFrame verify frame = some (h, chunk)) : h.sot = true ↔ h.frameIndex = 1#31 := by
  have := (decodeFrame_some.1 hd).2.2.2.1
  subst this
  simp [headerOf]

/-! ### The frame allocator -/

theorem freeEach_cons (o : ObjId) (os : List ObjId) (a : AllocPort) :
    a.freeEach (o :: os) = (a.free o).freeEach os := rfl

@[simp] theorem freeEach_nil (a : AllocPort) : a.freeEach [] = a := rfl

end Sys2Proof.Machine
end

