-- ==== Sys2Proof/Laws/Queue.lean ====
section
/-! SUPPORT. The queue order and insertion, the frames and items of a transfer, and the frame allocator. -/

namespace Sys2Proof.Machine

open Sys2Proof

/-! ### The queue order (R220) -/

theorem before_iff {a b : TxItem} : a.before b = true ↔
    a.priority.toNat < b.priority.toNat ∨ (a.priority.toNat = b.priority.toNat ∧
      (a.transferId.toNat < b.transferId.toNat ∨ (a.transferId.toNat = b.transferId.toNat ∧ a.id < b.id))) := by
  simp only [TxItem.before, Bool.or_eq_true, Bool.and_eq_true, decide_eq_true_eq, ← BitVec.toNat_inj]

theorem before_trans {a b c : TxItem} (h : a.before b = true) (h' : b.before c = true) : a.before c = true := by
  rw [before_iff] at *; omega

/-- Items with distinct ids are ordered one way or the other. -/
theorem before_of_not {a b : TxItem} (h : ¬a.before b = true) (hne : a.id ≠ b.id) : b.before a = true := by
  rw [before_iff] at *; omega

theorem not_before_self (a : TxItem) : ¬a.before a = true := by
  rw [before_iff]; omega

/-! ### Insertion (R221) -/

theorem insertItem_perm (n : TxItem) (l : List TxItem) : (insertItem n l).Perm (n :: l) := by
  induction l with
  | nil => exact List.Perm.refl _
  | cons e l ih =>
    unfold insertItem
    split_ifs
    · exact List.Perm.refl _
    · exact (ih.cons e).trans (List.Perm.swap ..)

theorem insertItems_perm (ns l : List TxItem) : (insertItems ns l).Perm (ns ++ l) := by
  induction ns generalizing l with
  | nil => exact List.Perm.refl _
  | cons n ns ih =>
    exact (ih (insertItem n l)).trans
      (((List.Perm.append_left ns (insertItem_perm n l))).trans List.perm_middle)

theorem mem_insertItems {ns l : List TxItem} {m : TxItem} : m ∈ insertItems ns l ↔ m ∈ ns ∨ m ∈ l := by
  rw [(insertItems_perm ns l).mem_iff, List.mem_append]

theorem insertItems_length (ns l : List TxItem) : (insertItems ns l).length = ns.length + l.length := by
  rw [(insertItems_perm ns l).length_eq, List.length_append]

/-- Inserting an item of a new id keeps the strict order. -/
theorem insertItem_sorted {n : TxItem} {l : List TxItem} (h : l.Pairwise (fun a b => a.before b = true))
    (hid : ∀ e ∈ l, n.id ≠ e.id) : (insertItem n l).Pairwise (fun a b => a.before b = true) := by
  induction l with
  | nil => exact List.pairwise_singleton ..
  | cons e l ih =>
    obtain ⟨h1, h2⟩ := List.pairwise_cons.1 h
    unfold insertItem
    split_ifs with hb
    · refine List.pairwise_cons.2 ⟨fun x hx => ?_, h⟩
      rcases List.mem_cons.1 hx with rfl | hx
      · exact hb
      · exact before_trans hb (h1 x hx)
    · refine List.pairwise_cons.2 ⟨fun x hx => ?_, ih h2 fun x hx => hid x (List.mem_cons_of_mem _ hx)⟩
      rcases List.mem_cons.1 ((insertItem_perm n l).mem_iff.1 hx) with rfl | hx
      · exact before_of_not hb (hid e List.mem_cons_self)
      · exact h1 x hx

theorem insertItems_sorted {ns l : List TxItem} (h : l.Pairwise (fun a b => a.before b = true))
    (hid : ((ns ++ l).map (fun m => m.id)).Nodup) :
    (insertItems ns l).Pairwise (fun a b => a.before b = true) := by
  induction ns generalizing l with
  | nil => exact h
  | cons n ns ih =>
    simp only [List.cons_append, List.map_cons, List.nodup_cons, List.mem_map, not_exists, not_and] at hid
    refine ih (insertItem_sorted h fun e he hne => hid.1 e (List.mem_append_right _ he) hne.symm) ?_
    refine (List.Perm.nodup_iff ((List.Perm.append_left ns (insertItem_perm n l)).map _)).2 ?_
    refine (List.Perm.nodup_iff (List.perm_middle.map _)).2 ?_
    simp only [List.map_cons, List.nodup_cons, List.mem_map, not_exists, not_and]
    exact hid

/-! ### Finding and removing -/

theorem findItem_eq_some {id : Nat} {l : List TxItem} {m : TxItem} (h : findItem id l = some m) :
    m ∈ l ∧ m.id = id :=
  ⟨List.mem_of_find?_eq_some h, by simpa using List.find?_some h⟩

theorem findItem_eq_none {id : Nat} {l : List TxItem} : findItem id l = none ↔ ∀ m ∈ l, m.id ≠ id := by
  simp [findItem]

theorem removeItem_sublist (id : Nat) (l : List TxItem) : (removeItem id l).Sublist l := List.eraseP_sublist

theorem removeItem_length {id : Nat} {l : List TxItem} {m : TxItem} (h : findItem id l = some m) :
    (removeItem id l).length = l.length - 1 := by
  obtain ⟨h1, h2⟩ := findItem_eq_some h
  exact List.length_eraseP_of_mem h1 (by simpa using h2)

/-! ### Frames (R193, R196) -/

theorem streamOf_length (payload : Bytes) : (streamOf payload).length = payload.length + 4 := by simp [streamOf]

theorem framesOf_length (f : FrameFields) (payload : Bytes) (C : Nat) :
    (framesOf f payload C).length = frameCount (payload.length + 4) C := by
  simp [framesOf, streamOf_length]

theorem frameCount_pos {L C : Nat} (hC : 0 < C) (hL : 0 < L) : 0 < frameCount L C :=
  Nat.div_pos (by omega) hC

/-- Frame `k` begins inside the stream. -/
theorem frameCount_start {L C k : Nat} (hC : 0 < C) (h1 : 1 ≤ k) (hk : k ≤ frameCount L C) : (k - 1) * C < L := by
  have := (Nat.le_div_iff_mul_le hC).1 hk
  obtain ⟨k, rfl⟩ : ∃ j, k = j + 1 := ⟨k - 1, by omega⟩
  simp only [Nat.add_mul, one_mul, Nat.add_sub_cancel] at *
  omega

theorem frameCount_end {L C : Nat} (hC : 0 < C) : L ≤ frameCount L C * C := by
  have := Nat.lt_mul_div_succ (L + C - 1) hC
  rw [frameCount, Nat.mul_comm]
  rw [Nat.mul_add] at this
  omega

theorem chunkAt_length {S : Bytes} {C k : Nat} : (chunkAt S C k).length = min C (S.length - (k - 1) * C) := by
  simp [chunkAt, slice]

/-! ### The frame allocator (R199, R201) -/

/-- Every request granted: one object per frame, in order. -/
theorem allocFrames_granted (overhead : Nat) (frames : List Bytes) (granted : List ObjId) (a : AllocPort)
    (h : ∀ j < frames.length, a.answer j = true) :
    allocFrames overhead frames granted a =
      (some (granted ++ (List.range frames.length).map (fun j => a.nextObj + j)),
        { answers := a.answers.drop frames.length, requests := a.requests + frames.length,
          nextObj := a.nextObj + frames.length,
          ledger := a.ledger ++ (List.range frames.length).map (fun j => a.nextObj + j),
          log := a.log ++ (List.range frames.length).map (fun j =>
            .alloc (overhead + (frames.getD j []).length) (some (a.nextObj + j))) }) := by
  induction frames generalizing granted a with
  | nil => simp [allocFrames]
  | cons f frames ih =>
    have h0 := h 0 (by simp)
    have hn : ∀ j < frames.length, (a.alloc (overhead + f.length)).2.answer j = true := by
      intro j hj; rw [answer_alloc]; exact h (j + 1) (by simpa using hj)
    have hg := alloc_granted h0 (overhead + f.length)
    simp only [allocFrames, hg]
    rw [ih]
    · simp [List.range_succ_eq_map, Function.comp_def, Nat.add_assoc, Nat.add_comm 1]
    · simpa only [hg] using hn

/-- The first denial after `m` grants: those objects are freed again, in order. -/
theorem allocFrames_denied (overhead : Nat) (frames : List Bytes) (granted : List ObjId) (a : AllocPort) (m : Nat)
    (hm : m < frames.length) (h : ∀ j < m, a.answer j = true) (hd : a.answer m = false) :
    allocFrames overhead frames granted a =
      (none, AllocPort.freeEach (granted ++ (List.range m).map (fun j => a.nextObj + j))
        { answers := a.answers.drop (m + 1), requests := a.requests + (m + 1), nextObj := a.nextObj + m,
          ledger := a.ledger ++ (List.range m).map (fun j => a.nextObj + j),
          log := a.log ++ (List.range m).map (fun j =>
              .alloc (overhead + (frames.getD j []).length) (some (a.nextObj + j)))
            ++ [.alloc (overhead + (frames.getD m []).length) none] }) := by
  induction frames generalizing granted a m with
  | nil => simp at hm
  | cons f frames ih =>
    cases m with
    | zero => simp [allocFrames, alloc_denied hd]
    | succ m =>
      have hg := alloc_granted (h 0 (by omega)) (overhead + f.length)
      have hn : ∀ j, (a.alloc (overhead + f.length)).2.answer j = a.answer (j + 1) := answer_alloc a _
      rw [hg] at hn
      simp only [allocFrames, hg]
      rw [ih _ _ m (by simpa using hm) (fun j hj => by rw [hn]; exact h (j + 1) (by omega)) (by rw [hn]; exact hd)]
      simp [List.range_succ_eq_map, Function.comp_def, Nat.add_assoc, Nat.add_comm 1]

/-- Freeing each of several objects. -/
theorem freeEach_eq (objs : List ObjId) (a : AllocPort) :
    a.freeEach objs =
      { a with ledger := a.ledger.filter (fun o => decide (o ∉ objs)), log := a.log ++ objs.map (fun o => .free o) } := by
  induction objs generalizing a with
  | nil => simp
  | cons o objs ih =>
    rw [freeEach_cons, ih]
    simp [AllocPort.free, AllocPort.release, List.filter_filter, Bool.and_comm]

/-! ### Items (R200) -/

/-- The items of a transfer, each by its place. -/
theorem itemsOf_eq (priority : BitVec 3) (transferId deadline : Word64) (sp : Specifier) (seq : Nat)
    (l : List (Bytes × ObjId)) :
    itemsOf priority transferId deadline sp seq l =
      (List.range l.length).map (fun j =>
        { id := seq + j, priority := priority, transferId := transferId, frame := (l.getD j ([], 0)).1,
          deadline := deadline, nextInTransfer := if j + 1 = l.length then none else some (seq + j + 1),
          specifier := sp, obj := (l.getD j ([], 0)).2 }) := by
  induction l generalizing seq with
  | nil => rfl
  | cons e l ih =>
    obtain ⟨f, o⟩ := e
    rw [itemsOf, ih]
    have : (l = []) = (l.length = 0) := by simp
    simp [List.range_succ_eq_map, Function.comp_def, Nat.add_assoc, Nat.add_comm 1, this, eq_comm]

@[simp] theorem itemsOf_length (priority : BitVec 3) (transferId deadline : Word64) (sp : Specifier) (seq : Nat)
    (l : List (Bytes × ObjId)) : (itemsOf priority transferId deadline sp seq l).length = l.length := by
  simp [itemsOf_eq]

end Sys2Proof.Machine
end

