-- ==== Sys2Proof/Laws/Session.lean ====
section
/-! SUPPORT. `RX_ACCEPT` step by step: when it finds its session, when step 7 restarts it, and what each step can
leave. -/

namespace Sys2Proof.Machine

open Sys2Proof

/-! ### Steps 1 to 6 -/

theorem exec_rxAccept_of_finds {s : State} {i : Nat} {frame : Bytes} {I : Instance} {sub : Subscription} {h : Header}
    {chunk : Bytes} (hf : s.Finds i frame I sub h chunk) (ts : Word64) (rti : Byte) :
    exec (.rxAccept i ts frame rti) s =
      .next (commitAccepted i I sub h (acceptMatched sub h chunk ts rti s.params s.allocPort) s) := by
  obtain ⟨h1, h2, h3, h4⟩ := hf
  simp [exec, execRxAccept, h1, h2, h3, h4]

theorem acceptMatched_of_session {sub : Subscription} {h : Header} {x : Session} (hs : h.sourceNodeId ≠ 0xFFFF#16)
    (hx : Map.find h.sourceNodeId.toNat sub.sessions = some x) (chunk : Bytes) (ts : Word64) (rti : Byte) (p : Params)
    (a : AllocPort) : acceptMatched sub h chunk ts rti p a = acceptInSession p.sizeW x sub h chunk ts rti a := by
  have : h.sourceNodeId ≠ Config.nodeIdUnset := hs
  simp [acceptMatched, acceptNamed, this, hx]

theorem acceptMatched_of_noSession {sub : Subscription} {h : Header} (hs : h.sourceNodeId ≠ 0xFFFF#16)
    (hx : Map.find h.sourceNodeId.toNat sub.sessions = none) (chunk : Bytes) (ts : Word64) (rti : Byte) (p : Params)
    (a : AllocPort) :
    acceptMatched sub h chunk ts rti p a =
      if h.sot = false then { session := none, port := a, status := .noMatch, transfer := none }
      else
        match a.alloc p.rxSessionSize with
        | (none, a') => { session := none, port := a', status := .outOfMemory, transfer := none }
        | (some o, a') => acceptInSession p.sizeW (Session.fresh ts h.transferId rti o) sub h chunk ts rti a' := by
  have : h.sourceNodeId ≠ Config.nodeIdUnset := hs
  simp only [acceptMatched, acceptNamed, this, hx, if_false]
  rfl

/-! ### Step 7 -/

theorem timedOut_iff {x : Session} {timeout ts : Word64} {sot : Bool} :
    timedOut x timeout ts sot = true ↔ sot = true ∧ x.transferTimestamp.toNat + timeout.toNat < ts.toNat := by
  have h1 := ts.isLt
  have h2 := x.transferTimestamp.isLt
  simp only [timedOut, Bool.and_eq_true, decide_eq_true_eq, BitVec.lt_def, BitVec.toNat_sub, and_assoc]
  refine and_congr_right fun _ => ⟨fun ⟨h3, h4⟩ => ?_, fun h3 => ⟨by omega, ?_⟩⟩
  · rw [show 2 ^ 64 - x.transferTimestamp.toNat + ts.toNat
        = ts.toNat - x.transferTimestamp.toNat + 2 ^ 64 by omega, Nat.add_mod_right, Nat.mod_eq_of_lt (by omega)] at h4
    omega
  · rw [show 2 ^ 64 - x.transferTimestamp.toNat + ts.toNat
        = ts.toNat - x.transferTimestamp.toNat + 2 ^ 64 by omega, Nat.add_mod_right, Nat.mod_eq_of_lt (by omega)]
    omega

theorem restartsToFrame_iff {x : Session} {sub : Subscription} {h : Header} {ts : Word64} {rti : Byte} :
    restartsToFrame x sub.transferIdTimeout h ts rti = true ↔
      h.sot = true ∧ (x.exceeds sub ts ∨
        (rti = x.redundantTransportIndex ∧ 1 < (x.transferId - h.transferId).toNat)) := by
  simp only [restartsToFrame, Bool.and_eq_true, Bool.or_eq_true, timedOut_iff, decide_eq_true_eq, tidDiff,
    BitVec.lt_def, Session.exceeds]
  constructor
  · rintro ⟨h1, h2 | h2⟩
    · exact ⟨h1, .inl h2.2⟩
    · exact ⟨h1, .inr h2⟩
  · rintro ⟨h1, h2 | h2⟩
    · exact ⟨h1, .inl ⟨h1, h2⟩⟩
    · exact ⟨h1, .inr h2⟩

/-! ### Steps 8 and 9 -/

/-- The 31-bit index test of step 9, on numbers. -/
theorem nextIndex_iff {a b : BitVec 31} :
    a.setWidth 32 = b.setWidth 32 + 1#32 ↔ a.toNat = b.toNat + 1 := by
  have ha := a.isLt
  have hb := b.isLt
  rw [← BitVec.toNat_inj]
  simp only [BitVec.toNat_setWidth, BitVec.toNat_add, BitVec.toNat_ofNat]
  omega

theorem matchFrame_other {x : Session} {h : Header} {rti : Byte}
    (hne : h.transferId ≠ x.transferId ∨ rti ≠ x.redundantTransportIndex) (w extent : Nat) (chunk : Bytes)
    (ts : Word64) (a : AllocPort) :
    matchFrame w x extent h chunk ts rti a = { session := none, port := a, status := .noMatch, transfer := none } := by
  simp only [matchFrame, hne, if_true]

theorem matchFrame_outOfSequence {x : Session} {h : Header} {rti : Byte} (ht : h.transferId = x.transferId)
    (hr : rti = x.redundantTransportIndex) (hi : h.frameIndex.toNat ≠ x.lastFrameIndex.toNat + 1) (w extent : Nat)
    (chunk : Bytes) (ts : Word64) (a : AllocPort) :
    matchFrame w x extent h chunk ts rti a =
      { session := some x.advanced, port := x.freePayload a, status := .outOfOrder, transfer := none } := by
  rw [matchFrame, if_neg (by tauto), if_pos (by rwa [Ne, nextIndex_iff])]
  rfl

theorem matchFrame_next {x : Session} {h : Header} {rti : Byte} (ht : h.transferId = x.transferId)
    (hr : rti = x.redundantTransportIndex) (hi : h.frameIndex.toNat = x.lastFrameIndex.toNat + 1) (w extent : Nat)
    (chunk : Bytes) (ts : Word64) (a : AllocPort) :
    matchFrame w x extent h chunk ts rti a = acceptFrame w x extent h chunk ts a := by
  rw [matchFrame, if_neg (by tauto), if_neg (by rw [Ne, nextIndex_iff]; tauto)]

/-- Steps 7 to 9 for the frame the session expects. -/
theorem acceptInSession_expected {x : Session} {sub : Subscription} {h : Header} {ts : Word64} {rti : Byte}
    (he : x.Expects sub h ts rti) (w : Nat) (chunk : Bytes) (a : AllocPort) :
    acceptInSession w x sub h chunk ts rti a = acceptFrame w x sub.extent h chunk ts a := by
  obtain ⟨ht, hr, hi, hc⟩ := he
  unfold acceptInSession
  split_ifs with hres
  · obtain ⟨hsot, hex⟩ := restartsToFrame_iff.1 hres
    have hex : x.exceeds sub ts := by
      rcases hex with hex | ⟨-, hd⟩
      · exact hex
      · simp [ht] at hd
    have hclear := hc hsot hex
    have h1 : x.retargeted h.transferId rti = x := by
      rw [ht, hr]; exact hclear
    have h2 : x.freePayload a = a := by
      have : x.payload = none := by rw [← hclear]; rfl
      simp [Session.freePayload, this]
    rw [h1, h2]
    exact matchFrame_next ht hr hi ..
  · exact matchFrame_next ht hr hi ..

/-! ### Steps 10 and 11 -/

/-- A count that fits the width is exact. -/
theorem addCount_exact {w total n : Nat} (h : total + n < 2 ^ w) (extent : Nat) :
    addCount w extent total n = total + n := if_pos h

/-- A count that does not fit the width is at least the extent and a trailer's length, and itself fits any width that
these fit. -/
theorem addCount_beyond {w total n : Nat} (h : 2 ^ w ≤ total + n) (extent : Nat) :
    extent ≤ addCount w extent total n ∧ 4 ≤ addCount w extent total n
      ∧ (extent < 2 ^ w → 4 < 2 ^ w → addCount w extent total n < 2 ^ w) := by
  rw [addCount, if_neg (by omega)]
  simp only [Config.crcSize]
  refine ⟨by omega, by omega, fun h1 h2 => ?_⟩
  have := Nat.mod_lt (Config.countBeyondWidth w extent total n) (show 0 < 2 ^ w - max extent 4 by omega)
  omega

/-- Counting reads the same up to the extent, whether the count fits the width or not (R30). -/
theorem min_addCount {w extent : Nat} (he : extent < 2 ^ w) (total n : Nat) :
    min extent (addCount w extent total n) = min extent (total + n) := by
  by_cases h : total + n < 2 ^ w
  · rw [addCount_exact h]
  · have := (addCount_beyond (not_lt.1 h) extent).1
    omega

/-- Counting keeps within the width. -/
theorem addCount_lt {w extent : Nat} (he : extent < 2 ^ w) (h4 : 4 < 2 ^ w) (total n : Nat) :
    addCount w extent total n < 2 ^ w := by
  by_cases h : total + n < 2 ^ w
  · rwa [addCount_exact h]
  · exact (addCount_beyond (not_lt.1 h) extent).2.2 he h4

/-- Nothing of the chunk is to be stored. -/
theorem acceptFrame_nothing {x : Session} {extent : Nat} {chunk : Bytes}
    (hn : min chunk.length (extent - x.payloadSize) = 0) (w : Nat) (h : Header) (ts : Word64) (a : AllocPort) :
    acceptFrame w x extent h chunk ts a = finishFrame (x.absorb w extent h chunk ts) h a := by
  simp [acceptFrame, hn]

/-- The chunk's bytes join a buffer that is there. -/
theorem acceptFrame_buffer {x : Session} {extent : Nat} {chunk : Bytes} {b : Buffer}
    (hn : 0 < min chunk.length (extent - x.payloadSize)) (hb : x.payload = some b) (w : Nat) (h : Header) (ts : Word64)
    (a : AllocPort) :
    acceptFrame w x extent h chunk ts a =
      finishFrame ((x.absorb w extent h chunk ts).store b (chunk.take (min chunk.length (extent - x.payloadSize)))) h a := by
  have : ¬(chunk.take (min chunk.length (extent - x.payloadSize))).length = 0 := by
    rw [List.length_take]; omega
  simp only [acceptFrame, this, if_false, hb]

/-- The buffer is granted at the first byte to store. -/
theorem acceptFrame_granted {x : Session} {extent : Nat} {chunk : Bytes} {a : AllocPort}
    (hn : 0 < min chunk.length (extent - x.payloadSize)) (hb : x.payload = none) (hg : a.answer 0 = true) (w : Nat)
    (h : Header) (ts : Word64) :
    acceptFrame w x extent h chunk ts a =
      finishFrame ((x.absorb w extent h chunk ts).store { obj := a.nextObj, capacity := extent, data := [] }
        (chunk.take (min chunk.length (extent - x.payloadSize)))) h (a.alloc extent).2 := by
  have : ¬(chunk.take (min chunk.length (extent - x.payloadSize))).length = 0 := by
    rw [List.length_take]; omega
  simp only [acceptFrame, this, if_false, hb, alloc_granted hg]

/-- The buffer is denied. -/
theorem acceptFrame_denied {x : Session} {extent : Nat} {chunk : Bytes} {a : AllocPort}
    (hn : 0 < min chunk.length (extent - x.payloadSize)) (hb : x.payload = none) (hg : a.answer 0 = false) (w : Nat)
    (h : Header) (ts : Word64) :
    acceptFrame w x extent h chunk ts a =
      { session := some (x.absorb w extent h chunk ts).advanced, port := (a.alloc extent).2, status := .outOfMemory,
        transfer := none } := by
  have : ¬(chunk.take (min chunk.length (extent - x.payloadSize))).length = 0 := by
    rw [List.length_take]; omega
  simp only [acceptFrame, this, if_false, hb, alloc_denied hg]
  rfl

/-! ### Step 12 -/

theorem finishFrame_good {y : Session} {h : Header} (he : h.eot = true) (h4 : 4 ≤ y.totalPayloadSize)
    (hc : y.crc = 0xB798B438#32) (a : AllocPort) :
    finishFrame y h a =
      { session := some y.advanced
        port := match y.payload with
          | some b => a.release [b.obj]
          | none => a
        status := .transferComplete
        transfer := some
          { metadata := metadataOf h h.kind h.sourceNodeId, timestamp := y.transferTimestamp, payload := y.payload,
            payloadSize := outSize y.totalPayloadSize y.payloadSize } } := by
  have : y.crc = Config.crc32cResidue := hc
  cases hp : y.payload <;> simp [finishFrame, he, h4, this, hp]

theorem finishFrame_bad {y : Session} {h : Header} (he : h.eot = true) (hc : y.crc ≠ 0xB798B438#32) (a : AllocPort) :
    finishFrame y h a =
      { session := some y.advanced, port := y.freePayload a, status := .noMatch, transfer := none } := by
  have : y.crc ≠ Config.crc32cResidue := hc
  simp [finishFrame, he, this]

theorem finishFrame_more {y : Session} {h : Header} (he : h.eot = false) (a : AllocPort) :
    finishFrame y h a =
      { session := some { y with lastFrameIndex := h.frameIndex }, port := a, status := .noMatch,
        transfer := none } := by
  simp [finishFrame, he]

/-! ### All the steps -/

/-- What steps 5 to 12 can answer. -/
theorem acceptMatched_status (sub : Subscription) (h : Header) (chunk : Bytes) (ts : Word64) (rti : Byte) (p : Params)
    (a : AllocPort) :
    (acceptMatched sub h chunk ts rti p a).status ∈
      [Status.transferComplete, Status.noMatch, Status.outOfMemory, Status.outOfOrder] := by
  have F : ∀ y h a, (finishFrame y h a).status ∈
      [Status.transferComplete, Status.noMatch, Status.outOfMemory, Status.outOfOrder] := by
    intro y h a
    unfold finishFrame
    split_ifs <;> simp
  have M : ∀ w x e h c ts rti a, (matchFrame w x e h c ts rti a).status ∈
      [Status.transferComplete, Status.noMatch, Status.outOfMemory, Status.outOfOrder] := by
    intro w x e h c ts rti a
    unfold matchFrame acceptFrame
    dsimp only
    split_ifs
    · simp
    · simp [ErrorKind.status]
    · exact F ..
    · split
      · exact F ..
      · split
        · simp [ErrorKind.status]
        · exact F ..
  unfold acceptMatched
  split
  · unfold acceptAnonymous
    dsimp only
    split_ifs
    · simp
    · simp
    · split <;> simp [ErrorKind.status]
  · unfold acceptNamed acceptInSession
    split
    · split_ifs <;> exact M ..
    · split
      · simp
      · split
        · simp [ErrorKind.status]
        · split_ifs <;> exact M ..

end Sys2Proof.Machine
end

