-- ==== Sys2Proof/Laws/Effects.lean ====
section
/-! SUPPORT. Every way a command or a step can change the contexts and the allocator port, said once: an invariant of
the machine is proved by cases on `Effect`, never by unfolding a meaning. -/

namespace Sys2Proof.Machine

open Sys2Proof

/-- What a command whose sizes fit `width` bits can do to the context files and the allocator port. -/
inductive Effect (width : Nat) (s t : State) : Prop where
  /-- Nothing: a status only, or a read-only command. -/
  | keeps (hi : t.ins = s.ins) (hq : t.txq = s.txq) (ha : t.allocPort = s.allocPort)
  /-- `INIT`. -/
  | initialises (i : Nat) (old : Instance) (h : s.ins[i]? = some old) (hi : t.ins = s.ins.set i Instance.fresh)
      (hq : t.txq = s.txq) (ha : t.allocPort = s.allocPort.release old.objects)
  /-- `CFG_NODE_ID`. -/
  | renames (i : Nat) (I : Instance) (n : Word16) (h : s.validIns i = some I)
      (hi : t.ins = s.ins.set i { I with nodeId := n }) (hq : t.txq = s.txq) (ha : t.allocPort = s.allocPort)
  /-- `RX_SUBSCRIBE`, `Created`. -/
  | subscribes (i : Nat) (I : Instance) (k : TransferKind) (p : Word16) (extent : Nat) (timeout : Word64)
      (he : extent < 2 ^ width) (h : s.validIns i = some I) (hp : portInRange k p = true) (hf : I.findSub k p = none)
      (hi : t.ins = s.ins.set i (I.putSub k p (Subscription.fresh p extent timeout))) (hq : t.txq = s.txq)
      (ha : t.allocPort = s.allocPort)
  /-- `RX_SUBSCRIBE`, `Replaced`. -/
  | replaces (i : Nat) (I : Instance) (k : TransferKind) (p : Word16) (extent : Nat) (timeout : Word64)
      (old : Subscription) (he : extent < 2 ^ width) (h : s.validIns i = some I) (hp : portInRange k p = true)
      (hf : I.findSub k p = some old)
      (hi : t.ins = s.ins.set i (I.putSub k p (Subscription.fresh p extent timeout))) (hq : t.txq = s.txq)
      (ha : t.allocPort = s.allocPort.freeSet old.objects)
  /-- `RX_UNSUBSCRIBE`, `Removed`. -/
  | unsubscribes (i : Nat) (I : Instance) (k : TransferKind) (p : Word16) (old : Subscription)
      (h : s.validIns i = some I) (hf : I.findSub k p = some old) (hi : t.ins = s.ins.set i (I.dropSub k p))
      (hq : t.txq = s.txq) (ha : t.allocPort = s.allocPort.freeSet old.objects)
  /-- `RX_ACCEPT` that found its subscription and wrote no session. -/
  | accepts (i : Nat) (ts : Word64) (frame : Bytes) (rti : Byte) (I : Instance) (sub : Subscription) (h : Header)
      (chunk : Bytes) (hf : s.Finds i frame I sub h chunk)
      (hs : (acceptMatched sub h chunk ts rti s.params s.allocPort).session = none)
      (hi : t.ins = s.ins) (hq : t.txq = s.txq)
      (ha : t.allocPort = (acceptMatched sub h chunk ts rti s.params s.allocPort).port)
  /-- `RX_ACCEPT` that wrote session `y` of the frame's sender. -/
  | acceptsInto (i : Nat) (ts : Word64) (frame : Bytes) (rti : Byte) (I : Instance) (sub : Subscription) (h : Header)
      (chunk : Bytes) (y : Session) (hf : s.Finds i frame I sub h chunk)
      (hs : (acceptMatched sub h chunk ts rti s.params s.allocPort).session = some y)
      (hi : t.ins = s.ins.set i (I.putSub h.kind h.portId (sub.putSession h.sourceNodeId.toNat y)))
      (hq : t.txq = s.txq)
      (ha : t.allocPort = (acceptMatched sub h chunk ts rti s.params s.allocPort).port)
  /-- `TX_INIT`. -/
  | opensQueue (q capacity mtuBytes : Nat) (old : TxQueue) (hc : capacity < 2 ^ width) (hm : mtuBytes < 2 ^ width)
      (h : s.txq[q]? = some old) (hi : t.ins = s.ins)
      (hq : t.txq = s.txq.set q { valid := true, capacity := capacity, mtuBytes := mtuBytes, size := 0, nextSeq := 0,
                                  items := [] })
      (ha : t.allocPort = s.allocPort.release old.objects)
  /-- `TX_PUSH` denied an allocation. -/
  | pushDenied (frames : List Bytes) (a : AllocPort) (hf : allocFrames s.params.txItemOverhead frames [] s.allocPort
      = (none, a)) (hi : t.ins = s.ins) (hq : t.txq = s.txq) (ha : t.allocPort = a)
  /-- `TX_PUSH` granted. -/
  | pushes (q : Nat) (Q : TxQueue) (f : FrameFields) (payload : Bytes) (deadline : Word64) (sp : Specifier)
      (objs : List ObjId) (a : AllocPort) (h : s.validTxq q = some Q) (hm : 24 < Q.mtuBytes)
      (hn : frameCount (payload.length + 4) (Q.mtuBytes - 24) ≤ 2 ^ 31 - 1)
      (hc : Q.size + frameCount (payload.length + 4) (Q.mtuBytes - 24) ≤ Q.capacity)
      (hf : allocFrames s.params.txItemOverhead (framesOf f payload (Q.mtuBytes - 24)) [] s.allocPort
        = (some objs, a)) (hi : t.ins = s.ins)
      (hq : t.txq = s.txq.set q (Q.commit (itemsOf f.priority f.transferId deadline sp Q.nextSeq
        ((framesOf f payload (Q.mtuBytes - 24)).zip objs)))) (ha : t.allocPort = a)
  /-- `TX_POP`. -/
  | pops (q id : Nat) (Q : TxQueue) (m : TxItem) (h : s.validTxq q = some Q) (hf : findItem id Q.items = some m)
      (hi : t.ins = s.ins) (hq : t.txq = s.txq.set q (Q.withoutItem id))
      (ha : t.allocPort = s.allocPort.release [m.obj])

theorem execInit_effect {w i : Nat} {s t : State} (h : execInit i s = .next t) : Effect w s t := by
  unfold execInit at h
  split at h
  · cases h; exact .keeps rfl rfl rfl
  · rename_i old ho; cases h; exact .initialises i old ho rfl rfl rfl

theorem execCfgNodeId_effect {w i : Nat} {n : Word16} {s t : State} (h : execCfgNodeId i n s = .next t) :
    Effect w s t := by
  unfold execCfgNodeId at h
  split at h
  · cases h; exact .keeps rfl rfl rfl
  · rename_i I hI; cases h; exact .renames i I n hI rfl rfl rfl

theorem execRxSubscribe_effect {w i : Nat} {kind : BitVec 2} {p : Word16} {extent : Nat} {timeout : Word64}
    {s t : State} (he : extent < 2 ^ w) (h : execRxSubscribe i kind p extent timeout s = .next t) : Effect w s t := by
  unfold execRxSubscribe at h
  split at h
  · cases h; exact .keeps rfl rfl rfl
  · rename_i I hI
    split at h
    · cases h; exact .keeps rfl rfl rfl
    · rename_i k hk
      split at h
      · cases h; exact .keeps rfl rfl rfl
      · rename_i hp
        have hp : portInRange k p = true := by simpa using hp
        split at h
        · rename_i old ho
          cases h; exact .replaces i I k p extent timeout old he hI hp ho rfl rfl rfl
        · rename_i ho
          split at h
          · cases h; exact .keeps rfl rfl rfl
          · cases h; exact .subscribes i I k p extent timeout he hI hp ho rfl rfl rfl

theorem execRxUnsubscribe_effect {w i : Nat} {kind : BitVec 2} {p : Word16} {s t : State}
    (h : execRxUnsubscribe i kind p s = .next t) : Effect w s t := by
  unfold execRxUnsubscribe at h
  split at h
  · cases h; exact .keeps rfl rfl rfl
  · rename_i I hI
    split at h
    · cases h; exact .keeps rfl rfl rfl
    · rename_i k hk
      split at h
      · cases h; exact .keeps rfl rfl rfl
      · rename_i old ho
        cases h; exact .unsubscribes i I k p old hI ho rfl rfl rfl

/-- `RX_ACCEPT` only answers, or commits what steps 5 to 12 decide about a subscription it found. -/
theorem execRxAccept_next {i : Nat} {ts : Word64} {frame : Bytes} {rti : Byte} {s t : State}
    (h : execRxAccept i ts frame rti s = .next t) :
    (t.ins = s.ins ∧ t.txq = s.txq ∧ t.allocPort = s.allocPort)
      ∨ ∃ I sub hd chunk, s.Finds i frame I sub hd chunk
          ∧ t = commitAccepted i I sub hd
              (acceptMatched sub hd chunk ts rti s.params s.allocPort) s := by
  unfold execRxAccept at h
  split at h
  · cases h; exact .inl ⟨rfl, rfl, rfl⟩
  · rename_i I hI
    split at h
    · cases h; exact .inl ⟨rfl, rfl, rfl⟩
    · rename_i hd chunk hdec
      split at h
      · cases h; exact .inl ⟨rfl, rfl, rfl⟩
      · rename_i hadd
        have hadd : addressed I.nodeId hd = true := by simpa using hadd
        split at h
        · cases h; exact .inl ⟨rfl, rfl, rfl⟩
        · rename_i sub hsub
          cases h
          exact .inr ⟨I, sub, hd, chunk, ⟨hI, hdec, hadd, hsub⟩, rfl⟩

theorem execRxAccept_effect {w i : Nat} {ts : Word64} {frame : Bytes} {rti : Byte} {s t : State}
    (h : execRxAccept i ts frame rti s = .next t) : Effect w s t := by
  rcases execRxAccept_next h with ⟨h1, h2, h3⟩ | ⟨I, sub, hd, chunk, hF, rfl⟩
  · exact .keeps h1 h2 h3
  · cases hr : (acceptMatched sub hd chunk ts rti s.params s.allocPort).session with
    | none =>
      exact .accepts i ts frame rti I sub hd chunk hF hr (by simp [commitAccepted, hr])
        (by simp [commitAccepted, hr]) (by simp [commitAccepted])
    | some y =>
      exact .acceptsInto i ts frame rti I sub hd chunk y hF hr (by simp [commitAccepted, hr])
        (by simp [commitAccepted, hr]) (by simp [commitAccepted])

theorem execTxInit_effect {w q capacity mtuBytes : Nat} {s t : State} (hc : capacity < 2 ^ w)
    (hm : mtuBytes < 2 ^ w) (h : execTxInit q capacity mtuBytes s = .next t) :
    Effect w s t := by
  unfold execTxInit at h
  split at h
  · cases h; exact .keeps rfl rfl rfl
  · rename_i old ho; cases h; exact .opensQueue q capacity mtuBytes old hc hm ho rfl rfl rfl

theorem execTxPush_effect {w q i : Nat} {deadline : Word64} {priority : Byte} {kind : BitVec 2} {p r : Word16}
    {tid : Word64} {payload : Bytes} {s t : State}
    (h : execTxPush q i deadline priority kind p r tid payload s = .next t) : Effect w s t := by
  unfold execTxPush at h
  split at h
  · rename_i Q I hQ hI
    split at h
    · cases h; exact .keeps rfl rfl rfl
    · rename_i k sp hb
      unfold pushTransfer at h
      dsimp only at h
      split_ifs at h with c1 c2 c3 c4
      · cases h; exact .keeps rfl rfl rfl
      · cases h; exact .keeps rfl rfl rfl
      · cases h; exact .keeps rfl rfl rfl
      · cases h; exact .keeps rfl rfl rfl
      · split at h
        · rename_i a ha
          cases h; exact .pushDenied _ a ha rfl rfl rfl
        · rename_i objs a ha
          cases h
          exact .pushes q Q ⟨priority.setWidth 3, I.nodeId, r, sp.dataSpecifier, tid⟩ payload deadline sp objs a hQ
            (not_le.1 c1) (not_lt.1 c2) (not_lt.1 c4) ha rfl rfl rfl
  · cases h; exact .keeps rfl rfl rfl

theorem execTxPop_effect {w q id : Nat} {s t : State} (h : execTxPop q id s = .next t) : Effect w s t := by
  unfold execTxPop at h
  split at h
  · cases h; exact .keeps rfl rfl rfl
  · rename_i Q hQ
    split at h
    · cases h; exact .keeps rfl rfl rfl
    · rename_i m hm
      cases h; exact .pops q id Q m hQ hm rfl rfl rfl

theorem execTxPeek_effect {w q : Nat} {s t : State} (h : execTxPeek q s = .next t) : Effect w s t := by
  unfold execTxPeek at h
  repeat' split at h
  all_goals cases h; exact .keeps rfl rfl rfl

theorem execSpecBuild_effect {w i : Nat} {pr : Byte} {kd : BitVec 2} {p r : Word16} {ad : Bytes} {s t : State}
    (h : execSpecBuild i pr kd p r ad s = .next t) : Effect w s t := by
  unfold execSpecBuild at h
  repeat' split at h
  all_goals cases h; exact .keeps rfl rfl rfl

theorem execHdrEncode_effect {w : Nat} {p : BitVec 3} {src dst ds : Word16} {tid : Word64} {k : BitVec 31} {eot : Bool}
    {s t : State} (h : execHdrEncode p src dst ds tid k eot s = .next t) : Effect w s t := by
  unfold execHdrEncode at h
  split at h <;> cases h <;> exact .keeps rfl rfl rfl

theorem execHdrDecode_effect {w : Nat} {frame : Bytes} {s t : State} (h : execHdrDecode frame s = .next t) :
    Effect w s t := by
  unfold execHdrDecode at h
  split at h <;> cases h <;> exact .keeps rfl rfl rfl

/-- Every command whose sizes fit has one of the effects. -/
theorem exec_effect {w : Nat} {i : Instr} {s t : State} (hw : i.fits w = true) (h : exec i s = .next t) :
    Effect w s t := by
  cases i with
  | init => exact execInit_effect h
  | cfgNodeId => exact execCfgNodeId_effect h
  | txInit =>
    simp only [Instr.fits, Bool.and_eq_true, fitsSize_iff] at hw
    exact execTxInit_effect hw.1 hw.2 h
  | txPush => exact execTxPush_effect h
  | txPeek => exact execTxPeek_effect h
  | txPop => exact execTxPop_effect h
  | rxSubscribe => exact execRxSubscribe_effect ((fitsSize_iff ..).1 hw) h
  | rxUnsubscribe => exact execRxUnsubscribe_effect h
  | rxAccept => exact execRxAccept_effect h
  | crc32cAdd => cases h; exact .keeps rfl rfl rfl
  | crc32cFin => cases h; exact .keeps rfl rfl rfl
  | crc32c => cases h; exact .keeps rfl rfl rfl
  | crc16Add => cases h; exact .keeps rfl rfl rfl
  | crc16 => cases h; exact .keeps rfl rfl rfl
  | specBuild => exact execSpecBuild_effect h
  | hdrEncode => exact execHdrEncode_effect h
  | hdrDecode => exact execHdrDecode_effect h

/-- An operand of `SIZE_W` bits has that many bits. -/
theorem sizeOperand_lt (width n : Nat) : sizeOperand width n < 2 ^ width := by
  unfold sizeOperand
  split_ifs with h
  · exact (fitsSize_iff ..).1 h
  · exact Nat.mod_lt _ (Nat.two_pow_pos _)

theorem sizeOperand_of_lt {width n : Nat} (h : n < 2 ^ width) : sizeOperand width n = n := if_pos ((fitsSize_iff ..).2 h)

/-- The sizes of the command an engine receives fit its width. -/
theorem received_fits (width : Nat) (i : Instr) : (received width i).fits width = true := by
  cases i <;> simp [received, Instr.fits, fitsSize_iff, sizeOperand_lt]

/-- A command whose sizes fit is received as it is. -/
theorem received_of_fits {width : Nat} {i : Instr} (h : i.fits width = true) : received width i = i := by
  cases i <;> simp_all [received, Instr.fits, fitsSize_iff, sizeOperand_of_lt]

/-- A step waits, answers a reserved opcode, or runs a decoded command. -/
theorem step_next {s t : State} (h : step s = .next t) :
    t = s ∨ (∃ later r, t = { s with commandPort := later, response := r })
      ∨ ∃ record later i rest, s.commandPort = record :: later ∧ decode record = .ok (i, rest)
          ∧ exec (received s.params.sizeW i) { s with commandPort := later } = .next t := by
  unfold step State.takeCommand at h
  cases hc : s.commandPort with
  | nil => rw [hc] at h; cases h; exact .inl rfl
  | cons record later =>
    rw [hc] at h
    dsimp only at h
    cases hd : decode record with
    | ok x =>
      obtain ⟨i, rest⟩ := x
      rw [hd] at h
      dsimp only at h
      exact .inr (.inr ⟨record, later, i, rest, rfl, hd, h⟩)
    | error e =>
      rw [hd] at h
      cases e with
      | truncated => cases h
      | reservedOpcode op => cases h; exact .inr (.inl ⟨later, _, rfl⟩)

/-- Every step has one of the effects, with sizes that fit `SIZE_W` bits. -/
theorem step_effect {s t : State} (h : step s = .next t) : Effect s.params.sizeW s t := by
  rcases step_next h with rfl | ⟨later, r, rfl⟩ | ⟨record, later, i, rest, hc, hd, he⟩
  · exact .keeps rfl rfl rfl
  · exact .keeps rfl rfl rfl
  · have := exec_effect (received_fits ..) he
    cases this with
    | keeps a b c => exact .keeps a b c
    | initialises i o h a b c => exact .initialises i o h a b c
    | renames i I n h a b c => exact .renames i I n h a b c
    | subscribes i I k p e m he h x y a b c => exact .subscribes i I k p e m he h x y a b c
    | replaces i I k p e m o he h x y a b c => exact .replaces i I k p e m o he h x y a b c
    | unsubscribes i I k p o h x a b c => exact .unsubscribes i I k p o h x a b c
    | accepts i u f r I sub h k x y a b c => exact .accepts i u f r I sub h k x y a b c
    | acceptsInto i u f r I sub h k z x y a b c => exact .acceptsInto i u f r I sub h k z x y a b c
    | opensQueue q c m o hc hm h a b d => exact .opensQueue q c m o hc hm h a b d
    | pushDenied f a x y z w => exact .pushDenied f a x y z w
    | pushes q Q f p d sp o a h1 h2 h3 h4 h5 x y z => exact .pushes q Q f p d sp o a h1 h2 h3 h4 h5 x y z
    | pops q id Q m h x a b c => exact .pops q id Q m h x a b c

end Sys2Proof.Machine
end

