-- ==== Sys2Proof/Laws/Header.lean ====
section
/-! SUPPORT. The fields of an encoded frame header (R81, R171): lengths, and each field of a frame that begins with
one. -/

namespace Sys2Proof.Machine

open Sys2Proof

@[simp] theorem headerBody_length (p : BitVec 3) (src dst ds : Word16) (tid : Word64) (k : BitVec 31) (eot : Bool) :
    (headerBody p src dst ds tid k eot).length = 22 := by simp [headerBody]

@[simp] theorem headerBytes_length (p : BitVec 3) (src dst ds : Word16) (tid : Word64) (k : BitVec 31) (eot : Bool) :
    (headerBytes p src dst ds tid k eot).length = 24 := by simp [headerBytes]

/-- The index word of a header (R87): the index in bits 30 to 0, end-of-transfer in bit 31. -/
abbrev indexWord (k : BitVec 31) (eot : Bool) : Word32 := ((BitVec.ofBool eot).setWidth 32 <<< 31) ||| k.setWidth 32

theorem indexWord_toNat (k : BitVec 31) (eot : Bool) :
    (indexWord k eot).toNat = k.toNat + (if eot then 2 ^ 31 else 0) := by
  have hk := k.isLt
  rw [indexWord, BitVec.toNat_or]
  cases eot
  · simp; omega
  · simp
    have := Nat.shiftLeft_add_eq_or_of_lt (b := k.toNat) (i := 31) (by omega) 1
    rw [Nat.mod_eq_of_lt (by omega)]
    simp [Nat.shiftLeft_eq] at this ⊢
    omega

/-- What the fixed offsets of a frame read (R81). -/
structure HeaderFields (B : Bytes) (p : BitVec 3) (src dst ds : Word16) (tid : Word64) (k : BitVec 31) (eot : Bool)
    (c : Word16) : Prop where
  version : B.getD 0 0#8 = 1#8
  priority : B.getD 1 0#8 = p.setWidth 8
  source : le16At B 2 = src
  destination : le16At B 4 = dst
  dataSpecifier : le16At B 6 = ds
  transferId : le64At B 8 = tid
  index : le32At B 16 = indexWord k eot
  reserved0 : B.getD 20 0#8 = 0#8
  reserved1 : B.getD 21 0#8 = 0#8
  headerCrc : le16At B 22 = c

/-- A frame that begins with an encoded header reads back every field at its offset. -/
theorem headerFields (p : BitVec 3) (src dst ds : Word16) (tid : Word64) (k : BitVec 31) (eot : Bool) (rest : Bytes) :
    HeaderFields (headerBytes p src dst ds tid k eot ++ rest) p src dst ds tid k eot
      (crc16 (headerBody p src dst ds tid k eot)) := by
  generalize hc : crc16 (headerBody p src dst ds tid k eot) = c
  have e : headerBytes p src dst ds tid k eot ++ rest =
      [1#8, p.setWidth 8] ++ (le16Bytes src ++ (le16Bytes dst ++ (le16Bytes ds ++ (le64Bytes tid ++
        (le32Bytes (indexWord k eot) ++ ([0#8, 0#8] ++ (le16Bytes c ++ rest))))))) := by
    simp [headerBytes, headerBody, ← hc, Config.headerVersion]
  constructor
  · rw [e]; rfl
  · rw [e]; rfl
  · rw [le16At, e, slice_of_append (k := 2) rfl (le16Bytes_length _)]
    exact ofNat_leNat_leBytes 2 _ (by norm_num)
  · rw [le16At, e, ← List.append_assoc, slice_of_append (by simp) (by simp)]
    exact ofNat_leNat_leBytes 2 _ (by norm_num)
  · rw [le16At, e, ← List.append_assoc, ← List.append_assoc, slice_of_append (by simp) (by simp)]
    exact ofNat_leNat_leBytes 2 _ (by norm_num)
  · rw [le64At, e, ← List.append_assoc, ← List.append_assoc, ← List.append_assoc,
      slice_of_append (by simp) (by simp)]
    exact ofNat_leNat_leBytes 8 _ (by norm_num)
  · rw [le32At, e, ← List.append_assoc, ← List.append_assoc, ← List.append_assoc, ← List.append_assoc,
      slice_of_append (by simp) (by simp)]
    exact ofNat_leNat_leBytes 4 _ (by norm_num)
  · rw [e]; simp [le16Bytes, le64Bytes, le32Bytes, leBytes]
  · rw [e]; simp [le16Bytes, le64Bytes, le32Bytes, leBytes]
  · rw [le16At, e, ← List.append_assoc, ← List.append_assoc, ← List.append_assoc, ← List.append_assoc,
      ← List.append_assoc, ← List.append_assoc, slice_of_append (by simp) (by simp)]
    exact ofNat_leNat_leBytes 2 _ (by norm_num)

end Sys2Proof.Machine
end

