-- ==== Sys2Proof/Laws/PerInstr.lean ====
section
/-! SUPPORT. What is proved of every command as syntax, one lemma per constructor. -/

namespace Sys2Proof.Laws

open Sys2Proof

/-- A command's record begins with its opcode, and the opcode is one of the seventeen of R101. -/
def OpcodeFirst.Statement (i : Instr) : Prop :=
  (encode i).head? = some i.opcode
    ∧ i.opcode ∈ ([0x01, 0x02, 0x10, 0x11, 0x12, 0x13, 0x20, 0x21, 0x22, 0x40, 0x41, 0x42, 0x48, 0x49, 0x50, 0x58,
        0x59] : List Byte)

theorem OpcodeFirst.init (i : Nat) :
    OpcodeFirst.Statement (.init i) :=
  ⟨rfl, of_decide_eq_true rfl⟩

theorem OpcodeFirst.cfgNodeId (i : Nat) (nodeId : Word16) :
    OpcodeFirst.Statement (.cfgNodeId i nodeId) :=
  ⟨rfl, of_decide_eq_true rfl⟩

theorem OpcodeFirst.txInit (q capacity mtuBytes : Nat) :
    OpcodeFirst.Statement (.txInit q capacity mtuBytes) :=
  ⟨rfl, of_decide_eq_true rfl⟩

theorem OpcodeFirst.txPush (q i : Nat) (deadline : Word64) (priority : Byte) (kind : BitVec 2)
    (portId remoteNodeId : Word16) (transferId : Word64) (payload : Bytes) :
    OpcodeFirst.Statement (.txPush q i deadline priority kind portId remoteNodeId transferId payload) :=
  ⟨rfl, of_decide_eq_true rfl⟩

theorem OpcodeFirst.txPeek (q : Nat) :
    OpcodeFirst.Statement (.txPeek q) :=
  ⟨rfl, of_decide_eq_true rfl⟩

theorem OpcodeFirst.txPop (q id : Nat) :
    OpcodeFirst.Statement (.txPop q id) :=
  ⟨rfl, of_decide_eq_true rfl⟩

theorem OpcodeFirst.rxSubscribe (i : Nat) (kind : BitVec 2) (portId : Word16) (extent : Nat) (timeout : Word64) :
    OpcodeFirst.Statement (.rxSubscribe i kind portId extent timeout) :=
  ⟨rfl, of_decide_eq_true rfl⟩

theorem OpcodeFirst.rxUnsubscribe (i : Nat) (kind : BitVec 2) (portId : Word16) :
    OpcodeFirst.Statement (.rxUnsubscribe i kind portId) :=
  ⟨rfl, of_decide_eq_true rfl⟩

theorem OpcodeFirst.rxAccept (i : Nat) (timestamp : Word64) (frame : Bytes) (rti : Byte) :
    OpcodeFirst.Statement (.rxAccept i timestamp frame rti) :=
  ⟨rfl, of_decide_eq_true rfl⟩

theorem OpcodeFirst.crc32cAdd (acc : Word32) (bytes : Bytes) :
    OpcodeFirst.Statement (.crc32cAdd acc bytes) :=
  ⟨rfl, of_decide_eq_true rfl⟩

theorem OpcodeFirst.crc32cFin (acc : Word32) :
    OpcodeFirst.Statement (.crc32cFin acc) :=
  ⟨rfl, of_decide_eq_true rfl⟩

theorem OpcodeFirst.crc32c (bytes : Bytes) :
    OpcodeFirst.Statement (.crc32c bytes) :=
  ⟨rfl, of_decide_eq_true rfl⟩

theorem OpcodeFirst.crc16Add (acc : Word16) (bytes : Bytes) :
    OpcodeFirst.Statement (.crc16Add acc bytes) :=
  ⟨rfl, of_decide_eq_true rfl⟩

theorem OpcodeFirst.crc16 (bytes : Bytes) :
    OpcodeFirst.Statement (.crc16 bytes) :=
  ⟨rfl, of_decide_eq_true rfl⟩

theorem OpcodeFirst.specBuild (i : Nat) (priority : Byte) (kind : BitVec 2) (portId remoteNodeId : Word16)
    (localAddress : Bytes) :
    OpcodeFirst.Statement (.specBuild i priority kind portId remoteNodeId localAddress) :=
  ⟨rfl, of_decide_eq_true rfl⟩

theorem OpcodeFirst.hdrEncode (priority : BitVec 3) (source destination dataSpecifier : Word16)
    (transferId : Word64) (frameIndex : BitVec 31) (eot : Bool) :
    OpcodeFirst.Statement (.hdrEncode priority source destination dataSpecifier transferId frameIndex eot) :=
  ⟨rfl, of_decide_eq_true rfl⟩

theorem OpcodeFirst.hdrDecode (frame : Bytes) :
    OpcodeFirst.Statement (.hdrDecode frame) :=
  ⟨rfl, of_decide_eq_true rfl⟩

end Sys2Proof.Laws
end

