-- ==== Sys2Proof/Tests/Slice0.lean ====
section
/-! SUPPORT. The model's own tests. Expected values come from `95_test_vectors.md` (named in each docstring) or are
written out by hand from the encoding of R100 to R102 and entry 1. Below them, for each statement of the obligations,
a concrete state and operands that meet its hypotheses. -/

namespace Sys2Proof.Tests

open Sys2Proof Sys2Proof.Machine

set_option Elab.async false

/-! ### Small states and the spec's frames -/

/-- The defaults of `95_test_vectors.md`: header CRC not verified, no bound, overhead and session size 0, sizes of 64
bits. -/
def params : Params := ⟨false, none, 0, 0, 64⟩

/-- A machine with these contexts, allocator answers and ledger; the next object is number 10. -/
def machine (ins : List Instance) (txq : List TxQueue) (answers : List Bool) (ledger : List Nat) : State :=
  { ins := ins, txq := txq, allocPort := ⟨answers, 0, 10, ledger, []⟩, commandPort := [], response := none,
    localAddress := [], params := params }

/-- A valid instance with this node-ID and these message subscriptions. -/
def node (n : Word16) (message : Map Subscription) : Instance := ⟨true, n, ⟨message, [], []⟩⟩

/-- A valid empty queue. -/
def queue (capacity mtu : Nat) : TxQueue := ⟨true, capacity, mtu, 0, 0, []⟩

/-- The state after a command; the same state where there is none. -/
def after (i : Instr) (s : State) : State :=
  match exec i s with
  | .next t => t
  | .fault _ => s
  | .refused _ => s

/-- The status after a command. -/
def statusAfter (i : Instr) (s : State) : Option Status := (after i s).status

/-- The transfer on the response port. -/
def delivered (s : State) : Option Transfer :=
  match s.response with
  | some ⟨_, .transfer tr _⟩ => some tr
  | _ => none

/-- The data specifier on the response port. -/
def builtSpecifier (s : State) : Option Word16 :=
  match s.response with
  | some ⟨_, .specifier sp⟩ => some sp.dataSpecifier
  | _ => none

/-- The bytes `10 .. 19` of V-TX1. -/
def payload10 : Bytes := [0x10, 0x11, 0x12, 0x13, 0x14, 0x15, 0x16, 0x17, 0x18, 0x19]

/-- The string "123456789". -/
def digits : Bytes := [0x31, 0x32, 0x33, 0x34, 0x35, 0x36, 0x37, 0x38, 0x39]

/-- The frame of P1. -/
def frameP1 : Bytes :=
  [0x01, 0x06, 0x2A, 0, 0xFF, 0xFF, 0xAE, 0x08, 0x0B, 0, 0, 0, 0, 0, 0, 0, 0x01, 0, 0, 0x80, 0, 0, 0xE4, 0xCB, 1, 1, 1,
    0x70, 0x2A, 0xEC, 0x24]

/-- The frame of P2, from an anonymous node. -/
def frameP2 : Bytes :=
  [0x01, 0x06, 0xFF, 0xFF, 0xFF, 0xFF, 0xAE, 0x08, 0x0B, 0, 0, 0, 0, 0, 0, 0, 0x01, 0, 0, 0x80, 0, 0, 0x25, 0x3D, 1, 1,
    1, 0x70, 0x2A, 0xEC, 0x24]

/-- F1, F2, F3 of V-TX1. -/
def frame1 : Bytes :=
  [0x01, 0x04, 0x2A, 0, 0xFF, 0xFF, 0x64, 0, 7, 0, 0, 0, 0, 0, 0, 0, 0x01, 0, 0, 0, 0, 0, 0x4D, 0xAF, 0x10, 0x11, 0x12,
    0x13, 0x14, 0x15]
def frame2 : Bytes :=
  [0x01, 0x04, 0x2A, 0, 0xFF, 0xFF, 0x64, 0, 7, 0, 0, 0, 0, 0, 0, 0, 0x02, 0, 0, 0, 0, 0, 0xAD, 0x61, 0x16, 0x17, 0x18,
    0x19, 0x54, 0x3C]
def frame3 : Bytes :=
  [0x01, 0x04, 0x2A, 0, 0xFF, 0xFF, 0x64, 0, 7, 0, 0, 0, 0, 0, 0, 0, 0x03, 0, 0, 0x80, 0, 0, 0x57, 0x1F, 0xCC, 0x1B]

/-- The frame of V-RX3: transfer-ID 9, one payload byte wrong. -/
def frameBad : Bytes :=
  [0x01, 0x04, 0x2A, 0, 0xFF, 0xFF, 0x64, 0, 9, 0, 0, 0, 0, 0, 0, 0, 0x01, 0, 0, 0x80, 0, 0, 0x1B, 0x74, 0x54, 0x9E,
    0x9D, 0xA9, 0x36]

/-- The last frame of P4: transfer-ID 8, payload `55`. -/
def frameG : Bytes :=
  [0x01, 0x04, 0x2A, 0, 0xFF, 0xFF, 0x64, 0, 8, 0, 0, 0, 0, 0, 0, 0, 0x01, 0, 0, 0x80, 0, 0, 0x7A, 0x0F, 0x55, 0x9E,
    0x9D, 0xA9, 0x36]

/-- The request frame of V-RX8, to node 123. -/
def frameRequest : Bytes :=
  [0x01, 0x02, 0x2A, 0, 0x7B, 0, 0xAE, 0xC1, 0x4D, 0, 0, 0, 0, 0, 0, 0, 0x01, 0, 0, 0x80, 0, 0, 0x2C, 0x33, 0xAA, 0xBB,
    0x8D, 0x44, 0xE4, 0xE4]

/-- The sessions of V-RX1: Idle expecting 7, after F1, after F2. -/
def idle : Session := ⟨100#64, 0, 0, none, 0xFFFFFFFF#32, 7#64, 0#8, 0#31, 3⟩
def after1 : Session :=
  ⟨100#64, 6, 6, some ⟨4, 16, [0x10, 0x11, 0x12, 0x13, 0x14, 0x15]⟩, 0x4785D15F#32, 7#64, 0#8, 1#31, 3⟩
def after2 : Session :=
  ⟨100#64, 12, 12, some ⟨4, 16, [0x10, 0x11, 0x12, 0x13, 0x14, 0x15, 0x16, 0x17, 0x18, 0x19, 0x54, 0x3C]⟩,
    0x0E9E93E1#32, 7#64, 0#8, 2#31, 3⟩

/-- The subscription (message, 100) of V-RX1 with these sessions. -/
def sub100 (sessions : Map Session) : Subscription := ⟨100#16, 16, 2000000#64, sessions⟩

/-- The subscription (message, 2222) of P1 and P2. -/
def sub2222 : Subscription := ⟨2222#16, 16, 1000000#64, []⟩

/-- The receiver of V-RX1 with this session of node 42. -/
def receiver (x : Session) : Instance := node 1 [(100, sub100 [(42, x)])]

/-- The machine of V-RX1 with this session of node 42. -/
def receiving (x : Session) (answers : List Bool) (ledger : List Nat) : State :=
  machine [receiver x, node 42 []] [queue 8 30] answers ledger

/-- The machine of P1 and P2 before its `RX_ACCEPT`. -/
def listening (answers : List Bool) : State := machine [node 42 [(2222, sub2222)]] [queue 8 64] answers []

/-- A queue item of priority 4. -/
def item (id : Nat) (transferId : Word64) (obj : Nat) : TxItem :=
  ⟨id, 4, transferId,
    [1, 4, 0, 0, 0, 0, 0, 0] ++ le64Bytes transferId ++ [1, 0, 0, 0x80, 0, 0, 0, 0, 0x55], 0, none, ⟨[], [], 0, 0⟩, obj⟩

/-- A queue with two items. -/
def queue2 : TxQueue := ⟨true, 8, 64, 2, 2, [item 1 3 6, item 0 5 5]⟩

/-- The queue of V-TX1 once its middle frame has been popped. -/
def queue13 : TxQueue :=
  ⟨true, 8, 30, 2, 3, [⟨0, 4, 7, frame1, 0, some 1, ⟨[], [], 0, 0⟩, 5⟩, ⟨2, 4, 7, frame3, 0, none, ⟨[], [], 0, 0⟩, 6⟩]⟩

/-! ### Well-formedness: each check refuses an ill-formed term -/

theorem test_wellFormed_capacity : (Instr.txInit 0 (2 ^ 64) 64).wellFormed 64 = false := by decide
theorem test_wellFormed_mtu : (Instr.txInit 0 8 256).wellFormed 8 = false := by decide
theorem test_wellFormed_extent : (Instr.rxSubscribe 0 0 0 (2 ^ 64) 0).wellFormed 64 = false := by decide
theorem test_wellFormed_index : (Instr.hdrEncode 0 0 0 0 0 0 true).wellFormed 64 = false := by decide
theorem test_wellFormed_payload (payload : Bytes) (h : payload.length = 2 ^ 64) :
    (Instr.txPush 0 0 0 0 0 0 0 0 payload).wellFormed 64 = false := by
  simp [Instr.wellFormed, Instr.inRange, fitsSize, h]
theorem test_wellFormed_limits :
    (Instr.txInit 0 255 0).wellFormed 8 = true ∧ (Instr.txInit 0 (2 ^ 64 - 1) 64).wellFormed 64 = true := by decide

/-! ### Decoding: records written out by hand (opcode R101, operand order R102, entry 1) -/

theorem test_decode_init : decode [0x01, 3] = .ok (.init 3, []) := rfl
theorem test_decode_cfgNodeId : decode [0x02, 1, 0x2A, 0x01] = .ok (.cfgNodeId 1 298, []) := rfl
theorem test_decode_txInit : decode [0x10, 1, 8, 0x80, 0x01] = .ok (.txInit 1 8 256, []) := rfl
theorem test_decode_txPush :
    decode [0x11, 1, 2, 5, 0, 0, 0, 0, 0, 0, 0, 6, 2, 0xAE, 0x01, 0x7B, 0x00, 11, 0, 0, 0, 0, 0, 0, 1, 2, 0xAA, 0xBB,
        0x99]
      = .ok (.txPush 1 2 5 6 2 430 123 0x010000000000000B [0xAA, 0xBB], [0x99]) := rfl
theorem test_decode_txPeek : decode [0x12, 2] = .ok (.txPeek 2, []) := rfl
theorem test_decode_txPop : decode [0x13, 2, 0x87, 0x81, 0x00] = .ok (.txPop 2 16647, []) := rfl
theorem test_decode_rxSubscribe :
    decode [0x20, 1, 1, 0xAE, 0x08, 16, 0x40, 0x42, 0x0F, 0, 0, 0, 0, 0] = .ok (.rxSubscribe 1 1 2222 16 1000000, []) :=
  rfl
theorem test_decode_rxUnsubscribe : decode [0x21, 1, 2, 0xAE, 0x01] = .ok (.rxUnsubscribe 1 2 430, []) := rfl
theorem test_decode_rxAccept :
    decode [0x22, 1, 0xF4, 1, 0, 0, 0, 0, 0, 0, 3, 0xA, 0xB, 0xC, 9] = .ok (.rxAccept 1 500 [0xA, 0xB, 0xC] 9, []) := rfl
theorem test_decode_crc32cAdd :
    decode [0x40, 4, 3, 2, 1, 2, 0x31, 0x32] = .ok (.crc32cAdd 0x01020304 [0x31, 0x32], []) := rfl
theorem test_decode_crc32cFin : decode [0x41, 4, 3, 2, 1] = .ok (.crc32cFin 0x01020304, []) := rfl
theorem test_decode_crc32c : decode [0x42, 1, 0x55] = .ok (.crc32c [0x55], []) := rfl
theorem test_decode_crc16Add : decode [0x48, 2, 1, 1, 0x55] = .ok (.crc16Add 0x0102 [0x55], []) := rfl
theorem test_decode_crc16 : decode [0x49, 0] = .ok (.crc16 [], []) := rfl
theorem test_decode_specBuild :
    decode [0x50, 1, 8, 3, 1, 2, 3, 4, 1, 0x7F] = .ok (.specBuild 1 8 3 0x0201 0x0403 [0x7F], []) := rfl
theorem test_decode_hdrEncode :
    decode [0x58, 6, 1, 2, 3, 4, 5, 6, 11, 0, 0, 0, 0, 0, 0, 0, 2, 0, 0, 0x40, 1]
      = .ok (.hdrEncode 6 0x0201 0x0403 0x0605 11 0x40000002 true, []) := rfl
theorem test_decode_hdrDecode : decode [0x59, 2, 0xAA, 0xBB] = .ok (.hdrDecode [0xAA, 0xBB], []) := rfl
/-- A number of three digits, and the largest of 64 bits, of ten. -/
theorem test_encode_numbers :
    encode (.txPop 2 16647) = [0x13, 2, 0x87, 0x81, 0x00]
      ∧ encode (.init (2 ^ 64 - 1)) = [0x01, 0xFF, 0xFE, 0xFE, 0xFE, 0xFE, 0xFE, 0xFE, 0xFE, 0xFE, 0x00] := by
  decide +kernel
/-- Bytes that are no record: a reserved opcode (R101), cut records. -/
theorem test_decode_errors :
    decode [0x03, 0] = .error (.reservedOpcode 0x03) ∧ decode [0x12, 0x82] = .error .truncated
      ∧ decode [0x42, 2, 0x55] = .error .truncated := ⟨rfl, rfl, rfl⟩
/-- A kind operand of more than two bits: the command decodes, its kind free (entry 13). -/
theorem test_decode_spareBits : ∃ kind, decode [0x21, 1, 4, 0xAE, 0x01] = .ok (.rxUnsubscribe 1 kind 430, []) := ⟨_, rfl⟩
/-- A table word is its opcode with operands of zeros (`opcode_table.json`), and the next step runs it. -/
theorem test_tableWord : decodeTableWord 8 0x59 = some (.hdrDecode []) ∧ decodeTableWord 8 0x03 = none := ⟨rfl, rfl⟩
theorem test_withFetchWord :
    step (State.reset.withFetchWord 8 0x41) = exec (.crc32cFin 0) State.reset
      ∧ step (State.reset.withFetchWord 8 0x10) = exec (.txInit 0 0 0) State.reset := ⟨rfl, rfl⟩

/-! ### The commands, from `95_test_vectors.md` -/

/-- P1, R352: `INIT` makes a fresh anonymous instance and drops the old one's objects. -/
theorem test_init :
    after (.init 0) (receiving after1 [] [3, 4, 6]) =
      { receiving after1 [] [6] with ins := [node 0xFFFF [], node 42 []], response := some ⟨.ok, .none⟩ } := by
  decide +kernel
/-- P1. -/
theorem test_cfgNodeId : (after (.cfgNodeId 1 7) (receiving idle [] [])).ins = [receiver idle, node 7 []] := by
  decide +kernel
/-- P1; an index at the end of the file is out of range (R103). -/
theorem test_txInit :
    (after (.txInit 0 8 64) (machine [] [TxQueue.reset] [] [])).txq = [queue 8 64]
      ∧ statusAfter (.txInit 1 8 64) (machine [] [TxQueue.reset] [] []) = some .argumentInvalid := by decide +kernel
/-- V-TX1: three frames, three allocations, links in order. -/
theorem test_txPush :
    let t := after (.txPush 0 1 1000 4 0 100 0xFFFF 7 payload10) (receiving idle [true, true, true] [])
    t.txq.map (fun Q => Q.items.map (fun m => (m.id, m.frame, m.nextInTransfer)))
        = [[(0, frame1, some 1), (1, frame2, some 2), (2, frame3, none)]]
      ∧ t.allocPort.log = [.alloc 30 (some 10), .alloc 30 (some 11), .alloc 26 (some 12)] := by decide +kernel
/-- V-TX5: the third allocation denied. -/
theorem test_txPush_denied :
    let t := after (.txPush 0 1 1000 4 0 100 0xFFFF 7 payload10) (receiving idle [true, true, false] [])
    t.status = some .outOfMemory ∧ t.txq = [queue 8 30] ∧ t.allocPort.ledger = []
      ∧ t.allocPort.log = [.alloc 30 (some 10), .alloc 30 (some 11), .alloc 26 none, .free 10, .free 11] := by
  decide +kernel
/-- V-Q2, and the first item of a queue. -/
theorem test_txPeek :
    statusAfter (.txPeek 0) (machine [] [queue 8 64] [] []) = some .empty
      ∧ (after (.txPeek 0) (machine [] [queue2] [] [])).response
        = some ⟨.ok, .peeked 1 (item 1 3 6).frame 0 none ⟨[], [], 0, 0⟩⟩ := by decide +kernel
/-- V-Q1: the named item leaves, not the head; an id that is not there is `Empty`. -/
theorem test_txPop :
    (after (.txPop 0 0) (machine [] [queue2] [] [5, 6])).txq = [{ queue2 with items := [item 1 3 6], size := 1 }]
      ∧ (after (.txPop 0 0) (machine [] [queue2] [] [5, 6])).allocPort = ⟨[], 0, 10, [6], []⟩
      ∧ statusAfter (.txPop 0 99) (machine [] [queue2] [] [5, 6]) = some .empty := by decide +kernel
/-- V-REG: `Replaced`, with the frees of session and buffer as one set. -/
theorem test_rxSubscribe :
    let t := after (.rxSubscribe 0 0 100 4 1000) (receiving after1 [] [3, 4])
    t.status = some .replaced ∧ t.allocPort.log = [.freeSet [3, 4]] ∧ t.allocPort.ledger = []
      ∧ t.ins = [node 1 [(100, ⟨100, 4, 1000, []⟩)], node 42 []] := by decide +kernel
/-- V-REG: a separate name space per kind; kind 3 and out-of-range port-IDs. -/
theorem test_rxSubscribe_arguments :
    [Instr.rxSubscribe 0 2 100 16 1000, .rxSubscribe 0 3 100 16 1000, .rxSubscribe 0 0 32768 16 1000,
        .rxSubscribe 0 1 16384 16 1000, .rxSubscribe 0 0 32767 0 0].map
          (fun i => statusAfter i (receiving idle [] [3]))
      = [some .created, some .argumentInvalid, some .argumentInvalid, some .argumentInvalid, some .created] := by
  decide +kernel
/-- V-REG. -/
theorem test_rxUnsubscribe :
    [Instr.rxUnsubscribe 0 0 100, .rxUnsubscribe 0 1 100, .rxUnsubscribe 0 3 100, .rxUnsubscribe 0 1 40000].map
        (fun i => statusAfter i (receiving idle [] [3]))
      = [some .removed, some .notFound, some .argumentInvalid, some .notFound] := by decide +kernel
/-- V-RX1, the last frame: the transfer, the buffer handed over, the session Idle and expecting 8. -/
theorem test_rxAccept :
    let t := after (.rxAccept 0 120 frame3 0) (receiving after2 [] [3, 4])
    t.status = some .transferComplete ∧ t.allocPort.ledger = [3] ∧ t.allocPort.log = []
      ∧ t.session 0 .message 100 42 = some { idle with transferId := 8 }
      ∧ (delivered t).map (fun tr => (tr.bytes, tr.timestamp, tr.metadata))
        = some (payload10, 100, ⟨4, .message, 100, 42, 7⟩) := by decide +kernel
/-- P4: index 3 after index 1. -/
theorem test_rxAccept_outOfOrder :
    let t := after (.rxAccept 0 110 frame3 0) (receiving after1 [] [3, 4])
    t.status = some .outOfOrder ∧ t.allocPort.log = [.free 4]
      ∧ t.session 0 .message 100 42 = some { idle with transferId := 8 } := by decide +kernel
/-- V-C32: the check value, and the incremental values. -/
theorem test_crc32c :
    (after (.crc32c digits) (machine [] [] [] [])).response = some ⟨.ok, .word32 0xE3069283⟩
      ∧ (after (.crc32cAdd 0xFFFFFFFF (digits.take 4)) (machine [] [] [] [])).response
        = some ⟨.ok, .word32 0x09C50B11⟩
      ∧ (after (.crc32cAdd 0x09C50B11 (digits.drop 4)) (machine [] [] [] [])).response
        = some ⟨.ok, .word32 0x1CF96D7C⟩
      ∧ (after (.crc32cFin 0x1CF96D7C) (machine [] [] [] [])).response = some ⟨.ok, .word32 0xE3069283⟩ := by
  decide +kernel
/-- V-C32: samples of the table. -/
theorem test_crc32c_table :
    crc32cTable 1 = 0xF26B8303 ∧ crc32cTable 3 = 0x1350F3F4 ∧ crc32cTable 255 = 0xAD7D5351 := by decide +kernel
/-- V-C16: the check value, the incremental value, and samples of the table. -/
theorem test_crc16 :
    (after (.crc16 digits) (machine [] [] [] [])).response = some ⟨.ok, .word16 0x29B1⟩
      ∧ (after (.crc16Add 0x4560 (digits.drop 5)) (machine [] [] [] [])).response = some ⟨.ok, .word16 0x29B1⟩
      ∧ crc16 [] = 0xFFFF ∧ crc16Table 3 = 0x3063 ∧ crc16Table 255 = 0x1EF0 := by decide +kernel
/-- V-SP: a request's data specifier. -/
theorem test_specBuild :
    builtSpecifier (after (.specBuild 1 2 2 430 123 []) (receiving idle [] [])) = some 0xC1AE := by decide +kernel
/-- V-SP: refused arguments. -/
theorem test_specBuild_arguments :
    [Instr.specBuild 1 4 0 32768 0xFFFF [], .specBuild 1 8 0 1 0xFFFF [], .specBuild 1 4 0 1 5 [],
        .specBuild 1 4 2 16384 0 [], .specBuild 1 4 1 1 0xFFFF [], .specBuild 1 4 3 1 0xFFFF []].all
          (fun i => statusAfter i (receiving idle [] []) = some .argumentInvalid) = true := by decide +kernel
/-- V-H, the fourth row of the encode table. -/
theorem test_hdrEncode :
    (after (.hdrEncode 7 65534 65534 0xFFFF 0xFFFFFFFFFFFFFFFF 0x7FFFFFFF true) (machine [] [] [] [])).response
      = some ⟨.ok, .header [0x01, 0x07, 0xFE, 0xFF, 0xFE, 0xFF, 0xFF, 0xFF, 0xFF, 0xFF, 0xFF, 0xFF, 0xFF, 0xFF, 0xFF, 0xFF,
        0xFF, 0xFF, 0xFF, 0xFF, 0, 0, 0x33, 0x90]⟩ := by decide +kernel
/-- V-H, decoding: the header of the request of V-RX8 and its chunk. -/
theorem test_hdrDecode :
    (after (.hdrDecode frameRequest) (machine [] [] [] [])).response
      = some ⟨.ok, .decoded ⟨1, 2, 42, 123, 0xC1AE, 77, 1, true, 0x332C, true, .request, 430⟩
        [0xAA, 0xBB, 0x8D, 0x44, 0xE4, 0xE4]⟩ := by decide +kernel
/-- V-H: version, priority and index are checked, the header CRC only when asked. -/
theorem test_hdrDecode_rejects :
    [frame1.set 0 2, frame1.set 1 8, frame1.set 16 0, frame1.take 23, frameP2.set 19 0, frameP2.set 7 0x80].all
        (fun f => statusAfter (.hdrDecode f) (machine [] [] [] []) = some .rejected) = true
      ∧ decodeFrame true (frame1.set 22 0) = none
      ∧ statusAfter (.hdrDecode (frame1.set 22 0)) (machine [] [] [] []) = some .ok := by decide +kernel

/-! ### Witnesses: for each statement with hypotheses, a state and operands that meet them -/

/-! The command port. -/

/-- A record followed by more bytes; spare bits clear, and one of them set. -/
theorem witness_DecodedBytesAreTheEncoding :
    decode [0x42, 1, 0x55, 9] = .ok (.crc32c [0x55], [9])
      ∧ (decode [0x21, 1, 3, 0xAE, 0x01] = .ok (.rxUnsubscribe 1 3 430, [])
        ∧ clearOf (Instr.rxUnsubscribe 1 3 430).spareBits [0x21, 1, 3, 0xAE, 0x01] = true)
      ∧ clearOf (Instr.rxUnsubscribe 1 3 430).spareBits [0x21, 1, 4, 0xAE, 0x01] = false :=
  ⟨rfl, ⟨rfl, by decide⟩, by decide⟩
/-- A size of exactly as many bits as the width allows, and one of one more. -/
theorem witness_StepRunsTheDecodedCommand :
    let s := { receiving idle [] [] with commandPort := [[0x10, 0, 0xFF, 0, 0], [0x03]], params := ⟨false, none, 0, 0, 8⟩ }
    s.commandPort = [0x10, 0, 0xFF, 0, 0] :: [[0x03]] ∧ decode [0x10, 0, 0xFF, 0, 0] = .ok (.txInit 0 255 0, [])
      ∧ (Instr.txInit 0 255 0).fits s.params.sizeW = true
      ∧ (decode [0x10, 0, 0x80, 1, 0] = .ok (.txInit 0 256 0, []) ∧ (Instr.txInit 0 256 0).fits 8 = false)
      ∧ decode [0x20, 1, 0, 0xAE, 0x08, 0x80, 1, 0x40, 0x42, 0x0F, 0, 0, 0, 0, 0]
        = .ok (.rxSubscribe 1 0 2222 256 1000000, []) :=
  ⟨rfl, rfl, by decide, ⟨rfl, by decide⟩, rfl⟩
/-- On 8 bits, `TX_INIT` of 256 items takes an MTU of 64 as it is and a free capacity below 256. -/
theorem test_step_sizeBeyondWidth :
    let s := { machine [] [TxQueue.reset] [] [] with
      commandPort := [[0x10, 0, 0x80, 1, 64]], params := ⟨false, none, 0, 0, 8⟩ }
    ∃ c, c < 256 ∧ step s = exec (.txInit 0 c 64) { s with commandPort := [] } :=
  ⟨sizeOperand 8 256, sizeOperand_lt 8 256, rfl⟩
theorem witness_StepWithNoCommandToRun :
    (receiving idle [] []).commandPort = []
      ∧ (decode [0x00] = .error (.reservedOpcode 0x00) ∧ decode [0xFF, 1] = .error (.reservedOpcode 0xFF))
      ∧ (decode [] = .error .truncated ∧ decode [0x41, 4, 3, 2] = .error .truncated) :=
  ⟨rfl, ⟨rfl, rfl⟩, ⟨rfl, rfl⟩⟩

/-! Rules of the whole machine. -/

theorem witness_IndexOutOfRangeIsArgumentInvalid :
    (namedIns (.init 2) = some 2 ∧ (receiving idle [] []).ins.length ≤ 2)
      ∧ (namedTxq (.txPeek 1) = some 1 ∧ (receiving idle [] []).txq.length ≤ 1) := by decide
theorem witness_InvalidContextIsArgumentInvalid :
    let s := machine [Instance.reset] [TxQueue.reset] [] []
    (createsContext (.cfgNodeId 0 5) = false ∧ namedIns (.cfgNodeId 0 5) = some 0 ∧ s.ins[0]? = some Instance.reset
        ∧ Instance.reset.valid = false)
      ∧ (createsContext (.txPeek 0) = false ∧ namedTxq (.txPeek 0) = some 0 ∧ s.txq[0]? = some TxQueue.reset
        ∧ TxQueue.reset.valid = false) := by decide
theorem witness_ArgumentInvalidChangesNothing :
    exec (.rxSubscribe 0 3 100 16 0) (receiving after1 [] [3, 4])
        = .next (after (.rxSubscribe 0 3 100 16 0) (receiving after1 [] [3, 4]))
      ∧ statusAfter (.rxSubscribe 0 3 100 16 0) (receiving after1 [] [3, 4]) = some .argumentInvalid := by
  exact ⟨rfl, by decide +kernel⟩
theorem witness_CommandTouchesOnlyNamedContexts :
    exec (.txPop 0 0) (machine [node 1 []] [queue2] [] [5, 6])
        = .next (after (.txPop 0 0) (machine [node 1 []] [queue2] [] [5, 6]))
      ∧ namedTxq (.txPop 0 0) = some 0 ∧ namedIns (.txPop 0 0) = none
      ∧ exec (.crc32cFin 0) (machine [] [] [] []) = .next (after (.crc32cFin 0) (machine [] [] [] [])) :=
  ⟨rfl, rfl, rfl, rfl⟩
/-- A delivery, which takes a buffer out of the ledger, and a push that requests three allocations; and two commands that
request none, `TX_POP` of a queued item and `INIT` of a context that holds objects. -/
theorem witness_DisjointCommandsCommute :
    let s := { receiving after2 [true, true, true] [3, 4, 5, 6] with txq := [queue 8 30, queue2] }
    let a := Instr.txPush 0 1 0 4 0 100 0xFFFF 7 payload10
    let b := Instr.rxAccept 0 120 frame3 0
    (disjointContexts a b ∧ (∀ o ∈ s.objects, o < s.allocPort.nextObj)
        ∧ (after b s).allocPort.requests = s.allocPort.requests ∧ (after b s).status = some .transferComplete
        ∧ (after a s).status = some .ok)
      ∧ disjointContexts (.txPop 1 0) (.init 0) ∧ (after (.init 0) s).allocPort.requests = s.allocPort.requests
      ∧ (after (.txPop 1 0) s).allocPort.ledger = [3, 4, 6] := by decide +kernel
/-- The two pairs of commands above, run either way round. -/
theorem test_commute :
    let s := { receiving after2 [true, true, true] [3, 4, 5, 6] with txq := [queue 8 30, queue2] }
    let a := Instr.txPush 0 1 0 4 0 100 0xFFFF 7 payload10
    let b := Instr.rxAccept 0 120 frame3 0
    (after b (after a s)).allocPort = (after a (after b s)).allocPort
      ∧ (after (.init 0) (after (.txPop 1 0) s)).allocPort = (after (.txPop 1 0) (after (.init 0) s)).allocPort := by
  decide +kernel
theorem witness_OutcomeDependsOnNamedContextsOnly :
    let i := Instr.cfgNodeId 0 7
    let s₁ := machine [receiver idle, node 1 []] [queue 8 30] [] [3]
    let s₂ := machine [receiver idle, node 2 []] [queue 9 31] [] [3]
    (∀ k, namedIns i = some k → s₁.ins[k]? = s₂.ins[k]?) ∧ (∀ q, namedTxq i = some q → s₁.txq[q]? = s₂.txq[q]?)
      ∧ s₁.allocPort = s₂.allocPort ∧ s₁.params = s₂.params ∧ s₁.localAddress = s₂.localAddress
      ∧ exec i s₁ = .next (after i s₁) ∧ exec i s₂ = .next (after i s₂) := by
  refine ⟨?_, ?_, rfl, rfl, rfl, rfl, rfl⟩
  · rintro k ⟨⟩; rfl
  · rintro q ⟨⟩

/-! The CRC engines, the specifier builder, the header codec. -/

theorem witness_StreamPassesIffTrailerMatches :
    4 ≤ ([0, 0, 0, 0] : Bytes).length ∧ crc32cAdd 0xFFFFFFFF [0, 0, 0, 0] = 0xB798B438
      ∧ 4 ≤ ([1, 1, 1, 0x70, 0x2A, 0xEC, 0x24] : Bytes).length := by decide +kernel
theorem witness_NoShortStreamPasses : ([] : Bytes).length < 4 ∧ ([0, 0, 0] : Bytes).length < 4 := by decide
theorem witness_DataSpecifierCodecIsABijection :
    (0x7FFF#16).toNat ≤ 32767 ∧ (0x3FFF#16).toNat ≤ 16383 ∧ (0#16).toNat ≤ 16383 := by decide
theorem witness_SpecBuildResult :
    let s := receiving idle [] []
    (s.validIns 1 = some (node 42 []) ∧ (7#8).toNat ≤ 7)
      ∧ ((32767#16).toNat ≤ 32767 ∧ (0xFFFF#16 : Word16) = 0xFFFF#16)
      ∧ ((16383#16).toNat ≤ 16383 ∧ (0xFFFE#16 : Word16) ≠ 0xFFFF#16 ∧ (node 42 []).nodeId ≠ 0xFFFF#16)
      ∧ ((3#2 : BitVec 2) = 3#2 ∧ 7 < (8#8).toNat ∧ 32767 < (32768#16).toNat ∧ 16383 < (16384#16).toNat)
      ∧ (machine [node 0xFFFF []] [] [] []).validIns 0 = some (node 0xFFFF []) := by decide
theorem witness_HdrEncodeLaysOutTheHeader : 1 ≤ (1#31).toNat ∧ 1 ≤ (0x7FFFFFFF#31).toNat := by decide
/-- Frames at the edges of `valid(hdr)`: exactly 24 bytes, an anonymous single frame, and refused ones. -/
theorem witness_HdrDecodeResult :
    (24 ≤ (frame1.take 24).length ∧ (frame1.take 24).getD 0 0 = 1 ∧ ((frame1.take 24).getD 1 0).toNat ≤ 7
        ∧ 1 ≤ (le32At (frame1.take 24) 16).toNat % 2 ^ 31 ∧ le16At (frame1.take 24) 2 ≠ 0xFFFF
        ∧ le16At (frame1.take 24) 22 = crc16Bitwise 0xFFFF (frame1.take 22))
      ∧ (le16At frameP2 2 = 0xFFFF ∧ (le32At frameP2 16).toNat = 2 ^ 31 + 1
        ∧ kindOfSpecifier (le16At frameP2 6) = .message)
      ∧ (¬24 ≤ (frame1.take 23).length ∧ ¬((frame1.set 1 8).getD 1 0).toNat ≤ 7) := by decide +kernel
theorem witness_HeaderRoundTrip :
    (1 ≤ (3#31).toNat ∧ (42#16 : Word16) ≠ 0xFFFF#16)
      ∧ ((1#31).toNat = 1 ∧ kindOfSpecifier 0x7FFF#16 = .message) := by decide
theorem witness_ReservedAndHeaderCrcAreIgnored :
    (frame1.take 20).length = 20 ∧ ([0, 0, 0x4D, 0xAF] : Bytes).length = 4 ∧ ([0xAB, 0xCD, 0, 0] : Bytes).length = 4
      ∧ (decodeFrame false (frame1.take 20 ++ [0xAB, 0xCD, 0, 0] ++ frame1.drop 24)).isSome = true := by decide +kernel

/-! Instances and subscriptions. -/

theorem witness_InitResult : (receiving after1 [] [3, 4]).ins[0]? = some (receiver after1) := by decide
theorem witness_CfgNodeIdResult :
    (receiving idle [] [3]).ins[1]? = some (node 42 []) ∧ (node 42 []).valid = true := by decide
theorem witness_SubscribeResult :
    let s := receiving after1 [] [3, 4]
    s.validIns 0 = some (receiver after1)
      ∧ (kindOf 0 = some .message ∧ portInRange .message 100 = true
        ∧ (receiver after1).findSub .message 100 = some (sub100 [(42, after1)]))
      ∧ (kindOf 1 = some .response ∧ portInRange .response 16383 = true
        ∧ (receiver after1).findSub .response 16383 = none ∧ s.params.maxSubscriptions = none)
      ∧ (({ s with params := ⟨false, some 1, 0, 0, 64⟩ } : State).params.maxSubscriptions = some 1
        ∧ 1 ≤ (receiver after1).subs.message.length + (receiver after1).subs.response.length
            + (receiver after1).subs.request.length) := by decide
theorem witness_SubscribeArgumentErrors :
    (receiving idle [] [3]).validIns 0 = some (receiver idle)
      ∧ 32767 < (32768#16).toNat ∧ 16383 < (16384#16).toNat := by decide
theorem witness_UnsubscribeResult :
    ((receiving idle [] [3]).ins[0]? = some (receiver idle) ∧ (receiver idle).valid = true
        ∧ kindOf 0 = some .message ∧ (receiver idle).findSub .message 100 = some (sub100 [(42, idle)])
        ∧ (receiver idle).findSub .message 101 = none)
      ∧ ((receiver idle).subs.WF ∧ kindOf 2 = some .request ∧ portIdMax .request < (16384#16).toNat)
      ∧ ((machine [Instance.reset] [] [] []).ins[0]? = some Instance.reset ∧ Instance.reset.valid = false) := by
  decide
theorem witness_SubscriptionsForgetTheOldOne :
    let s := receiving after1 [] [3, 4]
    s.ins[0]? = some (receiver after1) ∧ kindOf 0 = some .message
      ∧ exec (.rxUnsubscribe 0 0 100) s = .next (after (.rxUnsubscribe 0 0 100) s)
      ∧ statusAfter (.rxUnsubscribe 0 0 100) s = some .removed
      ∧ exec (.rxSubscribe 0 0 100 4 0) s = .next (after (.rxSubscribe 0 0 100 4 0) s)
      ∧ statusAfter (.rxSubscribe 0 0 100 4 0) s = some .replaced
      ∧ exec (.rxSubscribe 0 0 101 4 0) s = .next (after (.rxSubscribe 0 0 101 4 0) s)
      ∧ statusAfter (.rxSubscribe 0 0 101 4 0) s = some .created := by
  exact ⟨rfl, rfl, rfl, by decide +kernel, rfl, by decide +kernel, rfl, by decide +kernel⟩
theorem witness_TeardownFreesExactlyTheObjects : (sub100 [(42, after1)]).objects ≠ [] ∧ (sub100 []).objects = [] := by
  decide

/-! Transmission. -/

theorem witness_TxInitResult : (machine [] [queue2] [] [5, 6]).txq[0]? = some queue2 := by decide
theorem witness_ChunksAreTheStream : 0 < 6 ∧ 0 < payload10.length ∧ 0 + 1 < frameCount payload10.length 6 := by decide
theorem witness_FramesCarryTheTransfer :
    0 < 6 ∧ 1 ≤ 3 ∧ 3 ≤ frameCount (payload10.length + 4) 6 ∧ frameCount (payload10.length + 4) 6 ≤ 2 ^ 31 - 1
      ∧ (42#16 : Word16) ≠ 0xFFFF#16
      ∧ frameCount (([] : Bytes).length + 4) 4 = 1 ∧ kindOfSpecifier 100#16 = .message := by decide
/-- V-TX1: capacity just enough. -/
theorem witness_TxPushCommitsEveryFrame :
    let s := machine [node 42 []] [queue 3 30] [true, true, true] []
    s.validTxq 0 = some (queue 3 30) ∧ s.validIns 0 = some (node 42 []) ∧ kindOf 0 = some .message ∧ (7#8).toNat ≤ 7
      ∧ portInRange .message 32767 = true ∧ nodesSuitKind 42 .message 0xFFFF = true ∧ 24 < (queue 3 30).mtuBytes
      ∧ 6 = (queue 3 30).mtuBytes - 24 ∧ 3 = (payload10.length + 4 + 6 - 1) / 6 ∧ 3 ≤ 2 ^ 31 - 1
      ∧ (node 42 []).nodeId ≠ 0xFFFF ∧ (queue 3 30).size + 3 ≤ (queue 3 30).capacity
      ∧ (∀ j < 3, s.allocPort.answer j = true) := by decide +kernel
/-- V-TX5. -/
theorem witness_TxPushDeniedIsAtomic :
    let s := machine [node 42 []] [queue 8 30] [true, true, false] [6]
    s.validTxq 0 = some (queue 8 30) ∧ s.validIns 0 = some (node 42 []) ∧ kindOf 2 = some .request ∧ (0#8).toNat ≤ 7
      ∧ portInRange .request 16383 = true ∧ nodesSuitKind 42 .request 123 = true ∧ 24 < (queue 8 30).mtuBytes
      ∧ 6 = (queue 8 30).mtuBytes - 24 ∧ 3 = (payload10.length + 4 + 6 - 1) / 6 ∧ 3 ≤ 2 ^ 31 - 1
      ∧ (node 42 []).nodeId ≠ 0xFFFF ∧ (queue 8 30).size + 3 ≤ (queue 8 30).capacity ∧ 2 < 3
      ∧ (∀ j < 2, s.allocPort.answer j = true) ∧ s.allocPort.answer 2 = false
      ∧ ∀ o ∈ s.allocPort.ledger, o < s.allocPort.nextObj := by decide +kernel
/-- V-TX4: a push of V-TX1 with no bad argument into a queue one item too small. V-TX6: an MTU of 24, an anonymous push of
two frames, priority 8. -/
theorem witness_TxPushTurnedAway :
    let s := machine [node 42 [], node 0xFFFF []] [queue 2 30, queue 8 24, queue 8 64] [] []
    (s.validTxq 0 = some (queue 2 30) ∧ s.validIns 0 = some (node 42 []) ∧ 6 = (queue 2 30).mtuBytes - 24
        ∧ 3 = (payload10.length + 4 + 6 - 1) / 6
        ∧ ¬((0#2 : BitVec 2) = 3#2 ∨ 7 < (7#8).toNat
          ∨ ((0#2 : BitVec 2) = 0#2 ∧ (32767 < (32767#16).toNat ∨ (0xFFFF#16 : Word16) ≠ 0xFFFF#16))
          ∨ (((0#2 : BitVec 2) = 1#2 ∨ (0#2 : BitVec 2) = 2#2)
            ∧ (16383 < (32767#16).toNat ∨ (0xFFFF#16 : Word16) = 0xFFFF#16 ∨ (node 42 []).nodeId = 0xFFFF#16))
          ∨ (queue 2 30).mtuBytes ≤ 24 ∨ 2 ^ 31 - 1 < 3 ∨ ((node 42 []).nodeId = 0xFFFF#16 ∧ 1 < 3))
        ∧ (queue 2 30).capacity < (queue 2 30).size + 3)
      ∧ (s.validTxq 1 = some (queue 8 24) ∧ (queue 8 24).mtuBytes ≤ 24)
      ∧ (s.validTxq 2 = some (queue 8 64) ∧ s.validIns 1 = some (node 0xFFFF [])
        ∧ 1 < ((List.replicate 37 0#8).length + 4 + 40 - 1) / 40) ∧ 7 < (8#8).toNat := by decide +kernel
theorem witness_TxPeekReturnsTheMinimum :
    ((machine [] [queue2] [] []).txq[0]? = some queue2 ∧ queue2.valid = true ∧ queue2.size ≠ 0
        ∧ queue2.items = item 1 3 6 :: [item 0 5 5])
      ∧ ((queue 8 64).valid = true ∧ (queue 8 64).size = 0) ∧ TxQueue.reset.valid = false := by decide +kernel
theorem inv_queue2 : queue2.Inv := by
  refine ⟨by decide, by decide, by decide +kernel, by decide, by decide +kernel, by decide +kernel, ?_, ?_⟩ <;>
    decide +kernel
theorem inv_queue13 : queue13.Inv := by
  refine ⟨by decide, by decide, by decide +kernel, by decide, by decide +kernel, by decide +kernel, ?_, ?_⟩ <;>
    decide +kernel
/-- Frames 1 and 3 are of one transfer; the invariant fails where they stand the wrong way round or the last one has a
link. -/
theorem test_queue_inv :
    (match queue13.items with | [m, n] => sameTransfer m n | _ => False)
      ∧ ¬({ queue13 with items := queue13.items.map (fun m => { m with nextInTransfer := some (m.id + 1) }),
                         nextSeq := 9 } : TxQueue).Inv := by
  refine ⟨by change sameTransfer _ _; decide +kernel, fun h => ?_⟩
  have := h.2.2.2.2.1
  revert this
  decide +kernel
theorem witness_TxPopRemovesTheNamedItem :
    (machine [] [queue2] [] []).validTxq 0 = some queue2 ∧ (∀ m ∈ queue2.items, m.id ≠ 7)
      ∧ queue2.items = [item 1 3 6] ++ item 0 5 5 :: [] ∧ (item 0 5 5).id = 0 ∧ (∀ e ∈ [item 1 3 6], e.id ≠ 0) := by
  decide +kernel
theorem witness_NewItemGoesBehindItsEquals : queue2.Inv ∧ ∀ e ∈ queue2.items, e.id < (item 2 3 7).id :=
  ⟨inv_queue2, by decide⟩

/-! Reception. -/

theorem inv_idle : idle.Inv 16 := by simp [Session.Inv, idle]
theorem inv_after1 : after1.Inv 16 := by simp [Session.Inv, after1]
theorem inv_after2 : after2.Inv 16 := by simp [Session.Inv, after2]

theorem finds_receiving (x : Session) (answers : List Bool) (ledger : List Nat) (frame : Bytes) (chunk : Bytes)
    (hd : decodeFrame false frame = some (headerOf frame, chunk)) (hk : (headerOf frame).kind = .message)
    (hp : (headerOf frame).portId = 100) (hs : (headerOf frame).sourceNodeId = 42) :
    (receiving x answers ledger).FindsSession 0 frame (receiver x) (sub100 [(42, x)]) (headerOf frame) chunk x := by
  refine ⟨⟨rfl, hd, ?_, ?_⟩, ?_, ?_⟩
  · simp [addressed, hk]
  · rw [hk, hp]; rfl
  · rw [hs]; decide
  · rw [hs]; rfl

theorem finds_frame1 (x : Session) (answers : List Bool) (ledger : List Nat) :
    (receiving x answers ledger).FindsSession 0 frame1 (receiver x) (sub100 [(42, x)]) (headerOf frame1)
      (frame1.drop 24) x :=
  finds_receiving x answers ledger frame1 _ (by decide +kernel) (by decide) (by decide) (by decide)
theorem finds_frame2 (x : Session) (answers : List Bool) (ledger : List Nat) :
    (receiving x answers ledger).FindsSession 0 frame2 (receiver x) (sub100 [(42, x)]) (headerOf frame2)
      (frame2.drop 24) x :=
  finds_receiving x answers ledger frame2 _ (by decide +kernel) (by decide) (by decide) (by decide)
theorem finds_frame3 (x : Session) (answers : List Bool) (ledger : List Nat) :
    (receiving x answers ledger).FindsSession 0 frame3 (receiver x) (sub100 [(42, x)]) (headerOf frame3)
      (frame3.drop 24) x :=
  finds_receiving x answers ledger frame3 _ (by decide +kernel) (by decide) (by decide) (by decide)
theorem finds_frameBad (x : Session) (answers : List Bool) (ledger : List Nat) :
    (receiving x answers ledger).FindsSession 0 frameBad (receiver x) (sub100 [(42, x)]) (headerOf frameBad)
      (frameBad.drop 24) x :=
  finds_receiving x answers ledger frameBad _ (by decide +kernel) (by decide) (by decide) (by decide)

/-- The session of V-RX1 after its transfer: Idle, expecting 8. -/
def expects8 : Session := { idle with transferId := 8 }

/-- One witness per clause: a short frame, a request for another node, no subscription, no session and a second frame,
and a first frame of the transfer before the expected one, at the latest time that restarts nothing. -/
theorem witness_AcceptIgnoresNoise :
    ((receiving idle [] []).validIns 0 = some (receiver idle) ∧ decodeFrame false (frame1.take 23) = none)
      ∧ (decodeFrame false frameRequest = some (headerOf frameRequest, frameRequest.drop 24)
        ∧ (headerOf frameRequest).kind ≠ .message ∧ (headerOf frameRequest).destinationNodeId ≠ (receiver idle).nodeId)
      ∧ (decodeFrame false frameP1 = some (headerOf frameP1, frameP1.drop 24) ∧ (headerOf frameP1).kind = .message
        ∧ (receiver idle).findSub .message (headerOf frameP1).portId = none)
      ∧ ((machine [node 1 [(100, sub100 [])]] [] [] []).Finds 0 frame2 (node 1 [(100, sub100 [])]) (sub100 [])
          (headerOf frame2) (frame2.drop 24) ∧ (headerOf frame2).sourceNodeId ≠ 0xFFFF
        ∧ Map.find (headerOf frame2).sourceNodeId.toNat (sub100 []).sessions = none
        ∧ (headerOf frame2).frameIndex.toNat ≠ 1)
      ∧ ((receiving expects8 [] [3]).FindsSession 0 frame1 (receiver expects8) (sub100 [(42, expects8)])
          (headerOf frame1) (frame1.drop 24) expects8
        ∧ (headerOf frame1).transferId ≠ expects8.transferId ∧ (headerOf frame1).sot = true
        ∧ ¬expects8.exceeds (sub100 []) 2000100
        ∧ (expects8.transferId - (headerOf frame1).transferId).toNat ≤ 1) := by decide +kernel
/-- P2, with the trailer whole, cut, and bad; an extent of 0. -/
theorem witness_AcceptAnonymousIsStateless :
    ((listening [true]).Finds 0 frameP2 (node 42 [(2222, sub2222)]) sub2222 (headerOf frameP2) (frameP2.drop 24)
        ∧ (headerOf frameP2).sourceNodeId = 0xFFFF ∧ 4 ≤ (frameP2.drop 24).length
        ∧ crc32cAdd 0xFFFFFFFF (frameP2.drop 24) = 0xB798B438 ∧ 0 < min sub2222.extent ((frameP2.drop 24).length - 4)
        ∧ (listening [true]).allocPort.answer 0 = true ∧ (listening [false]).allocPort.answer 0 = false)
      ∧ ((listening []).Finds 0 (frameP2.take 27) (node 42 [(2222, sub2222)]) sub2222 (headerOf frameP2)
          ((frameP2.take 27).drop 24) ∧ ((frameP2.take 27).drop 24).length < 4)
      ∧ ((listening []).Finds 0 (frameP2.set 24 0) (node 42 [(2222, sub2222)]) sub2222 (headerOf frameP2)
          ((frameP2.set 24 0).drop 24) ∧ crc32cAdd 0xFFFFFFFF ((frameP2.set 24 0).drop 24) ≠ 0xB798B438)
      ∧ ((machine [node 42 [(2222, { sub2222 with extent := 0 })]] [] [] []).Finds 0 frameP2
          (node 42 [(2222, { sub2222 with extent := 0 })]) { sub2222 with extent := 0 } (headerOf frameP2)
          (frameP2.drop 24) ∧ min 0 ((frameP2.drop 24).length - 4) = 0) := by decide +kernel
theorem witness_AcceptCreatesASession :
    (listening [true, true]).Finds 0 frameP1 (node 42 [(2222, sub2222)]) sub2222 (headerOf frameP1) (frameP1.drop 24)
      ∧ (headerOf frameP1).sourceNodeId ≠ 0xFFFF
      ∧ Map.find (headerOf frameP1).sourceNodeId.toNat sub2222.sessions = none
      ∧ (headerOf frameP1).frameIndex.toNat = 1 ∧ (listening [true, true]).allocPort.answer 0 = true
      ∧ (listening [false]).allocPort.answer 0 = false := by decide +kernel
/-- An Idle session that expects 9. -/
def expects9 : Session := { idle with transferId := 9 }

/-- A restart at the least time and the least difference that restart. -/
theorem witness_AcceptRestartsToAFirstFrame :
    (receiving after1 [true] [3, 4]).FindsSession 0 frame1 (receiver after1) (sub100 [(42, after1)]) (headerOf frame1)
        (frame1.drop 24) after1
      ∧ (headerOf frame1).frameIndex.toNat = 1 ∧ after1.exceeds (sub100 [(42, after1)]) 2000101
      ∧ (receiving expects9 [true] [3]).FindsSession 0 frame1 (receiver expects9) (sub100 [(42, expects9)])
        (headerOf frame1) (frame1.drop 24) expects9
      ∧ 0 = expects9.redundantTransportIndex ∧ 1 < (expects9.transferId - (headerOf frame1).transferId).toNat :=
  ⟨finds_frame1 .., by decide +kernel, by decide +kernel, finds_frame1 .., by decide +kernel⟩
/-- P4, and a repeated first frame. -/
theorem witness_AcceptOutOfSequenceResetsTheSession :
    ((receiving after1 [] [3, 4]).FindsSession 0 frame3 (receiver after1) (sub100 [(42, after1)]) (headerOf frame3)
        (frame3.drop 24) after1
      ∧ (headerOf frame3).transferId = after1.transferId ∧ 0 = after1.redundantTransportIndex
      ∧ (headerOf frame3).frameIndex.toNat ≠ after1.lastFrameIndex.toNat + 1 ∧ (headerOf frame3).sot = false)
      ∧ ((receiving after1 [] [3, 4]).FindsSession 0 frame1 (receiver after1) (sub100 [(42, after1)])
          (headerOf frame1) (frame1.drop 24) after1
        ∧ (headerOf frame1).transferId = after1.transferId
        ∧ (headerOf frame1).frameIndex.toNat ≠ after1.lastFrameIndex.toNat + 1
        ∧ ¬after1.exceeds (sub100 [(42, after1)]) 2000100) :=
  ⟨⟨finds_frame3 .., by decide +kernel⟩, finds_frame1 .., by decide +kernel⟩
/-- F2 where sizes have 3 bits, too few for its count of 12, and where they have 64. -/
theorem witness_AcceptAccumulates_beyondWidth :
    let s := { receiving after1 [] [3, 4] with params := ⟨false, none, 0, 0, 3⟩ }
    2 ^ s.params.sizeW ≤ after1.totalPayloadSize + (frame2.drop 24).length
      ∧ after1.totalPayloadSize + (frame2.drop 24).length < 2 ^ (receiving after1 [] [3, 4]).params.sizeW := by
  decide +kernel
/-- V-RX1: F1 on the Idle session with its buffer granted, F2 on the session after F1. -/
theorem witness_AcceptAccumulates :
    ((receiving idle [true] [3]).FindsSession 0 frame1 (receiver idle) (sub100 [(42, idle)]) (headerOf frame1)
        (frame1.drop 24) idle ∧ idle.Inv 16 ∧ idle.Expects (sub100 [(42, idle)]) (headerOf frame1) 100 0
        ∧ (headerOf frame1).eot = false ∧ (receiving idle [true] [3]).allocPort.answer 0 = true)
      ∧ ((receiving after1 [] [3, 4]).FindsSession 0 frame2 (receiver after1) (sub100 [(42, after1)])
          (headerOf frame2) (frame2.drop 24) after1 ∧ after1.Inv 16
        ∧ after1.Expects (sub100 [(42, after1)]) (headerOf frame2) 110 0 ∧ (headerOf frame2).eot = false) :=
  ⟨⟨finds_frame1 .., inv_idle, by decide +kernel⟩, finds_frame2 .., inv_after1, by decide +kernel⟩
/-- V-RX1: F3, into the buffer that is there; P4's last frame, whose buffer is granted. -/
theorem witness_AcceptDeliversAGoodTransfer :
    ((receiving after2 [] [3, 4]).FindsSession 0 frame3 (receiver after2) (sub100 [(42, after2)]) (headerOf frame3)
        (frame3.drop 24) after2
      ∧ after2.Inv 16 ∧ after2.Expects (sub100 [(42, after2)]) (headerOf frame3) 120 0
      ∧ (headerOf frame3).eot = true ∧ 4 ≤ after2.totalPayloadSize + (frame3.drop 24).length
      ∧ crc32cAdd after2.crc (frame3.drop 24) = 0xB798B438 ∧ after2.payload ≠ none)
      ∧ (let x := expects8
        (receiving x [true] [3]).FindsSession 0 frameG (receiver x) (sub100 [(42, x)]) (headerOf frameG)
          (frameG.drop 24) x
        ∧ x.Inv 16 ∧ x.Expects (sub100 [(42, x)]) (headerOf frameG) 130 0 ∧ (headerOf frameG).eot = true
        ∧ 4 ≤ x.totalPayloadSize + (frameG.drop 24).length ∧ crc32cAdd x.crc (frameG.drop 24) = 0xB798B438
        ∧ x.payload = none ∧ 0 < min (frameG.drop 24).length ((sub100 [(42, x)]).extent - x.payloadSize)
        ∧ (receiving x [true] [3]).allocPort.answer 0 = true) :=
  ⟨⟨finds_frame3 .., inv_after2, by decide +kernel⟩,
    finds_receiving _ _ _ frameG _ (by decide +kernel) (by decide) (by decide) (by decide),
    by simp [Session.Inv, expects8, idle], by decide +kernel⟩
/-- V-RX3; and F3 with its last byte wrong, into the buffer that is there. -/
theorem witness_AcceptDiscardsACorruptTransfer :
    let x := expects9
    ((receiving x [true] [3]).FindsSession 0 frameBad (receiver x) (sub100 [(42, x)]) (headerOf frameBad)
        (frameBad.drop 24) x
      ∧ x.Inv 16 ∧ x.Expects (sub100 [(42, x)]) (headerOf frameBad) 10 0 ∧ (headerOf frameBad).eot = true
      ∧ crc32cAdd x.crc (frameBad.drop 24) ≠ 0xB798B438 ∧ (receiving x [true] [3]).allocPort.answer 0 = true)
      ∧ ((receiving after2 [] [3, 4]).FindsSession 0 (frame3.set 25 0) (receiver after2) (sub100 [(42, after2)])
          (headerOf (frame3.set 25 0)) ((frame3.set 25 0).drop 24) after2
        ∧ after2.Inv 16 ∧ after2.Expects (sub100 [(42, after2)]) (headerOf (frame3.set 25 0)) 120 0
        ∧ (headerOf (frame3.set 25 0)).eot = true ∧ crc32cAdd after2.crc ((frame3.set 25 0).drop 24) ≠ 0xB798B438
        ∧ after2.payload ≠ none) :=
  ⟨⟨finds_frameBad .., by simp [Session.Inv, expects9, idle], by decide +kernel⟩,
    finds_receiving _ _ _ (frame3.set 25 0) _ (by decide +kernel) (by decide) (by decide) (by decide), inv_after2,
    by decide +kernel⟩
/-- V-RX7: the buffer denied. -/
theorem witness_AcceptDeniedBufferResetsTheSession :
    (receiving idle [false] [3]).FindsSession 0 frame1 (receiver idle) (sub100 [(42, idle)]) (headerOf frame1)
        (frame1.drop 24) idle
      ∧ idle.Expects (sub100 [(42, idle)]) (headerOf frame1) 100 0 ∧ idle.payload = none
      ∧ 0 < min (frame1.drop 24).length ((sub100 [(42, idle)]).extent - idle.payloadSize)
      ∧ (receiving idle [false] [3]).allocPort.answer 0 = false :=
  ⟨finds_frame1 .., by decide +kernel⟩
theorem witness_AcceptTouchesOneSession :
    let s := receiving after1 [] [3, 4]
    exec (.rxAccept 0 110 frame2 0) s = .next (after (.rxAccept 0 110 frame2 0) s) ∧ s.ins[0]? = some (receiver after1)
      ∧ (after (.rxAccept 0 110 frame2 0) s).ins[0]? = some (receiver after2) := by
  refine ⟨?_, rfl, by decide +kernel⟩
  obtain ⟨t, ht⟩ : ∃ t, exec (.rxAccept 0 110 frame2 0) (receiving after1 [] [3, 4]) = .next t := by
    rw [show exec (.rxAccept 0 110 frame2 0) (receiving after1 [] [3, 4])
      = execRxAccept 0 110 frame2 0 (receiving after1 [] [3, 4]) from rfl]
    unfold execRxAccept
    split
    · exact ⟨_, rfl⟩
    · split
      · exact ⟨_, rfl⟩
      · split
        · exact ⟨_, rfl⟩
        · split <;> exact ⟨_, rfl⟩
  simp only [after, ht]
/-- V-RX1. -/
theorem witness_TransferRoundTrip :
    let f : FrameFields := ⟨4, 42, 0xFFFF, 100, 7⟩
    let s := machine [node 1 [(100, sub100 [])]] [] [true, true] []
    let x := { after2 with transferId := 9 }
    s.validIns 0 = some (node 1 [(100, sub100 [])]) ∧ f.source ≠ 0xFFFF ∧ 0 < 6
      ∧ frameCount (payload10.length + 4) 6 ≤ 2 ^ 31 - 1
      ∧ (node 1 [(100, sub100 [])]).findSub (kindOfSpecifier f.dataSpecifier) (portOfSpecifier f.dataSpecifier)
        = some (sub100 []) ∧ kindOfSpecifier f.dataSpecifier = .message
      ∧ Map.find f.source.toNat (sub100 []).sessions = none ∧ s.allocPort.answer 0 = true
      ∧ s.allocPort.answer 1 = true ∧ payload10.length + 4 < 2 ^ s.params.sizeW
      ∧ (idle.transferId = f.transferId ∧ idle.lastFrameIndex = 0 ∧ idle.redundantTransportIndex = 0)
      ∧ (1 < (x.transferId - f.transferId).toNat ∧ x.redundantTransportIndex = 0)
      ∧ ([100, 110, 120] : List Word64).length = (framesOf f payload10 6).length := by
  decide +kernel

/-! Invariants. -/

/-- A machine with a session and its buffer, the queue of V-TX1 with its middle frame popped, and a command to
run. -/
def busy : State :=
  { machine [receiver after1] [queue13] [] [3, 4, 5, 6] with
    commandPort := [[0x02, 0, 0x2A, 0]] }

theorem step_busy : step busy = exec (.cfgNodeId 0 42) { busy with commandPort := [] } := rfl
theorem next_busy : ∃ t, step busy = .next t := ⟨_, rfl⟩

theorem witness_StepKeepsSessionsInvariant : busy.SizesFit ∧ busy.SessionsInv ∧ ∃ t, step busy = .next t := by
  refine ⟨by decide +kernel, ?_, next_busy⟩
  simp [State.SessionsInv, Instance.SessionsInv, Subscription.SessionsInv, Session.Inv, busy, machine, receiver, node,
    sub100, after1]
theorem witness_StepKeepsSizesWithinWidth :
    4 < 2 ^ busy.params.sizeW ∧ busy.SizesFit ∧ (∃ t, step busy = .next t)
      ∧ 4 < 2 ^ 3 ∧ Session.SizesFit 3 { after1 with totalPayloadSize := 7 } :=
  ⟨by decide, by decide +kernel, next_busy, by decide, by decide⟩
theorem witness_StepKeepsRegistryCanonical : busy.RegistryWF ∧ ∃ t, step busy = .next t :=
  ⟨by decide +kernel, next_busy⟩
theorem witness_StepKeepsQueuesInvariant : busy.QueuesInv ∧ ∃ t, step busy = .next t := by
  refine ⟨?_, next_busy⟩
  intro Q hQ _
  rw [show Q = queue13 from List.mem_singleton.1 hQ]
  exact inv_queue13
theorem witness_StepKeepsLedgerExact :
    busy.RegistryWF ∧ busy.LedgerInv ∧ ∃ t, step busy = .next t := by
  have ho : busy.objects = [3, 4, 5, 6] := by decide +kernel
  refine ⟨by decide +kernel, ⟨by decide +kernel, ?_, by decide +kernel, by decide +kernel⟩, next_busy⟩
  intro o
  rw [ho]
  exact Iff.rfl

end Sys2Proof.Tests
end

section
/-! SUPPORT. R30 of every session, kept by every step. The idea: of R30's clauses, (a) to (d) speak of what a session
holds and survive counting and storing a chunk (`Session.HoldsStream`), while (e) is met either by a session that is clear
or by one whose frame index is not 0. Every session `RX_ACCEPT` writes is of one of these two forms. -/

namespace Sys2Proof.Machine

open Sys2Proof

/-! ### One session -/

/-- R30 (a) to (d), without the clause (e) about an Idle session: it also holds in the middle of `RX_ACCEPT`, before step
12 records the frame's index. -/
structure Session.HoldsStream (extent : Nat) (x : Session) : Prop where
  size : x.payloadSize = min extent x.totalPayloadSize
  buffer : ∀ b, x.payload = some b → 0 < x.payloadSize ∧ b.data.length = x.payloadSize ∧ b.capacity = extent
  empty : x.payload = none → x.payloadSize = 0

theorem Session.inv_iff {extent : Nat} {x : Session} :
    x.Inv extent ↔ x.HoldsStream extent ∧ (x.lastFrameIndex = 0#31 →
      x.totalPayloadSize = 0 ∧ x.payloadSize = 0 ∧ x.payload = none ∧ x.crc = Config.crc32cSeed) := by
  unfold Session.Inv
  cases hp : x.payload with
  | none => exact ⟨fun ⟨a, b, c⟩ => ⟨⟨a, by simp [hp], fun _ => b⟩, c⟩, fun ⟨a, c⟩ => ⟨a.size, a.empty hp, c⟩⟩
  | some b =>
    exact ⟨fun ⟨a, d, c⟩ => ⟨⟨a, fun _ hb => Option.some.inj (hp.symm.trans hb) ▸ d, by simp [hp]⟩, c⟩,
      fun ⟨a, c⟩ => ⟨a.size, a.buffer b hp, c⟩⟩

theorem Session.inv_of_clear {x : Session} (ht : x.totalPayloadSize = 0) (hs : x.payloadSize = 0)
    (hp : x.payload = none) (hc : x.crc = Config.crc32cSeed) (extent : Nat) : x.Inv extent :=
  Session.inv_iff.2 ⟨⟨by simp [ht, hs], by simp [hp], fun _ => hs⟩, fun _ => ⟨ht, hs, hp, hc⟩⟩

theorem Session.inv_advanced (extent : Nat) (x : Session) : x.advanced.Inv extent :=
  Session.inv_of_clear rfl rfl rfl rfl extent

theorem Session.inv_retargeted (extent : Nat) (x : Session) (tid : Word64) (rti : Byte) :
    (x.retargeted tid rti).Inv extent :=
  Session.inv_of_clear rfl rfl rfl rfl extent

theorem Session.inv_fresh (extent : Nat) (ts tid : Word64) (rti : Byte) (o : ObjId) :
    (Session.fresh ts tid rti o).Inv extent :=
  Session.inv_of_clear rfl rfl rfl rfl extent

/-- A session that has recorded a frame is not Idle. -/
theorem Session.HoldsStream.inv_recorded {extent : Nat} {y : Session} (hy : y.HoldsStream extent) {k : BitVec 31}
    (hk : k ≠ 0#31) : Session.Inv extent { y with lastFrameIndex := k } :=
  Session.inv_iff.2 ⟨⟨hy.size, hy.buffer, hy.empty⟩, fun h => absurd h hk⟩

/-! ### Steps 10 and 11 -/

theorem memWrite_at_end (buf part : Bytes) : memWrite buf buf.length part = buf ++ part := by
  simp [memWrite]

/-- A chunk of which nothing is to be stored is empty, or finds the extent reached. -/
theorem Session.HoldsStream.absorb {w extent : Nat} {x : Session} {chunk : Bytes} (he : extent < 2 ^ w)
    (hx : x.HoldsStream extent) (hn : min chunk.length (extent - x.payloadSize) = 0) (h : Header) (ts : Word64) :
    (x.absorb w extent h chunk ts).HoldsStream extent where
  size := by
    have hs := hx.size
    simp only [Session_absorb_payloadSize, Session_absorb_totalPayloadSize, min_addCount he]
    omega
  buffer := hx.buffer
  empty := hx.empty

/-- Storing the chunk up to the extent after the bytes that are there. -/
theorem Session.HoldsStream.absorb_store {w extent : Nat} {x : Session} {chunk : Bytes} {b : Buffer}
    (he : extent < 2 ^ w) (hx : x.HoldsStream extent) (hn : 0 < min chunk.length (extent - x.payloadSize))
    (hb : b.data.length = x.payloadSize) (hc : b.capacity = extent) (h : Header) (ts : Word64) :
    ((x.absorb w extent h chunk ts).store b
      (chunk.take (min chunk.length (extent - x.payloadSize)))).HoldsStream extent where
  size := by
    have hs := hx.size
    simp only [Session_store_payloadSize, Session_store_totalPayloadSize, Session_absorb_payloadSize,
      Session_absorb_totalPayloadSize, min_addCount he, List.length_take]
    omega
  buffer := by
    intro b' hb'
    simp only [Session_store_payload, Session_absorb_payloadSize, ← hb, memWrite_at_end, Option.some.injEq] at hb'
    subst hb'
    simp only [Session_store_payloadSize, Session_absorb_payloadSize, List.length_append, List.length_take]
    exact ⟨by omega, by omega, hc⟩
  empty := by simp

/-! ### Steps 5 to 12 -/

/-- The session these steps write, if any, meets R30. -/
abbrev Accepted.SessionInv (extent : Nat) (r : Accepted) : Prop := ∀ y, r.session = some y → y.Inv extent

theorem finishFrame_sessionInv {extent : Nat} {y : Session} {h : Header} (hy : y.HoldsStream extent)
    (hi : h.frameIndex ≠ 0#31) (a : AllocPort) : (finishFrame y h a).SessionInv extent := by
  unfold finishFrame
  split_ifs <;> rintro z ⟨⟩
  · exact y.inv_advanced extent
  · exact y.inv_advanced extent
  · exact hy.inv_recorded hi

theorem acceptFrame_sessionInv {w extent : Nat} {x : Session} {h : Header} (he : extent < 2 ^ w) (hx : x.Inv extent)
    (hi : h.frameIndex ≠ 0#31) (chunk : Bytes) (ts : Word64) (a : AllocPort) :
    (acceptFrame w x extent h chunk ts a).SessionInv extent := by
  have hx := (Session.inv_iff.1 hx).1
  rcases Nat.eq_zero_or_pos (min chunk.length (extent - x.payloadSize)) with hn | hn
  · rw [acceptFrame_nothing hn]
    exact finishFrame_sessionInv (hx.absorb he hn h ts) hi a
  · cases hb : x.payload with
    | some b =>
      obtain ⟨-, hd, hc⟩ := hx.buffer b hb
      rw [acceptFrame_buffer hn hb]
      exact finishFrame_sessionInv (hx.absorb_store he hn hd hc h ts) hi a
    | none =>
      cases hg : a.answer 0 with
      | true =>
        rw [acceptFrame_granted hn hb hg]
        exact finishFrame_sessionInv (hx.absorb_store (b := ⟨a.nextObj, extent, []⟩) he hn (hx.empty hb).symm rfl h ts) hi _
      | false =>
        rw [acceptFrame_denied hn hb hg]
        rintro z ⟨⟩
        exact Session.inv_advanced extent _

theorem matchFrame_sessionInv {w extent : Nat} {x : Session} {h : Header} (he : extent < 2 ^ w) (hx : x.Inv extent)
    (hi : h.frameIndex ≠ 0#31) (chunk : Bytes) (ts : Word64) (rti : Byte) (a : AllocPort) :
    (matchFrame w x extent h chunk ts rti a).SessionInv extent := by
  unfold matchFrame
  split_ifs
  · rintro z ⟨⟩
  · rintro z ⟨⟩
    exact x.inv_advanced extent
  · exact acceptFrame_sessionInv he hx hi chunk ts a

theorem acceptInSession_sessionInv {w : Nat} {x : Session} {sub : Subscription} {h : Header}
    (he : sub.extent < 2 ^ w) (hx : x.Inv sub.extent) (hi : h.frameIndex ≠ 0#31) (chunk : Bytes) (ts : Word64)
    (rti : Byte) (a : AllocPort) : (acceptInSession w x sub h chunk ts rti a).SessionInv sub.extent := by
  unfold acceptInSession
  split_ifs
  · exact matchFrame_sessionInv he (x.inv_retargeted ..) hi chunk ts rti _
  · exact matchFrame_sessionInv he hx hi chunk ts rti a

/-- An anonymous frame writes no session (R276). -/
theorem acceptAnonymous_session (sub : Subscription) (h : Header) (chunk : Bytes) (ts : Word64) (a : AllocPort) :
    (acceptAnonymous sub h chunk ts a).session = none := by
  unfold acceptAnonymous
  dsimp only
  split_ifs
  · rfl
  · rfl
  · split <;> rfl

theorem acceptMatched_sessionInv {sub : Subscription} {h : Header} {p : Params} (he : sub.extent < 2 ^ p.sizeW)
    (hsub : sub.SessionsInv) (hi : h.frameIndex ≠ 0#31) (chunk : Bytes) (ts : Word64) (rti : Byte) (a : AllocPort) :
    (acceptMatched sub h chunk ts rti p a).SessionInv sub.extent := by
  by_cases hs : h.sourceNodeId = 0xFFFF#16
  · rw [acceptMatched, if_pos hs]
    intro y hy
    simp [acceptAnonymous_session] at hy
  · cases hx : Map.find h.sourceNodeId.toNat sub.sessions with
    | some x =>
      rw [acceptMatched_of_session hs hx]
      exact acceptInSession_sessionInv he (hsub _ (Map.mem_of_find hx)) hi chunk ts rti a
    | none =>
      rw [acceptMatched_of_noSession hs hx]
      split_ifs
      · rintro y ⟨⟩
      · split
        · rintro y ⟨⟩
        · exact acceptInSession_sessionInv he (Session.inv_fresh ..) hi chunk ts rti _

/-! ### Subscriptions and registries -/

theorem Subscription.sessionsInv_fresh (p : Word16) (extent : Nat) (timeout : Word64) :
    (Subscription.fresh p extent timeout).SessionsInv := by
  simp [Subscription.fresh]

theorem Subscription.sessionsInv_putSession {sub : Subscription} (hsub : sub.SessionsInv) {y : Session}
    (hy : y.Inv sub.extent) (node : Nat) : (sub.putSession node y).SessionsInv := by
  intro e he
  rcases Map.mem_insert he with rfl | he
  · exact hy
  · exact hsub e he

/-- The invariant of the three registries at once, with the kind as a variable. -/
theorem Instance.sessionsInv_iff {I : Instance} :
    I.SessionsInv ↔ ∀ k, ∀ e ∈ I.subs.get k, e.2.SessionsInv := by
  refine ⟨fun ⟨hm, hr, hq⟩ k => ?_, fun h => ⟨h .message, h .response, h .request⟩⟩
  cases k with
  | message => exact hm
  | response => exact hr
  | request => exact hq

theorem Instance.sessionsInv_fresh : Instance.fresh.SessionsInv := by
  simp [Instance.fresh]

theorem Instance.sessionsInv_rename {I : Instance} (hI : I.SessionsInv) (n : Word16) :
    Instance.SessionsInv { I with nodeId := n } := hI

theorem Instance.sessionsInv_of_findSub {I : Instance} (hI : I.SessionsInv) {k : TransferKind} {p : Word16}
    {sub : Subscription} (hf : I.findSub k p = some sub) : sub.SessionsInv :=
  Instance.sessionsInv_iff.1 hI k _ (Map.mem_of_find hf)

/-- Replacing the subscriptions of one kind by ones that meet the invariant. -/
theorem Instance.sessionsInv_put {I : Instance} (hI : I.SessionsInv) (k : TransferKind) {m : Map Subscription}
    (hm : ∀ e ∈ m, e.2.SessionsInv) : (I.setSubs (I.subs.put k m)).SessionsInv := by
  refine Instance.sessionsInv_iff.2 fun j => ?_
  rw [Instance_setSubs_subs]
  by_cases hj : j = k
  · rwa [hj, Registry_get_put]
  · rw [Registry_get_put_other _ _ _ _ hj]
    exact Instance.sessionsInv_iff.1 hI j

theorem Instance.sessionsInv_putSub {I : Instance} (hI : I.SessionsInv) (k : TransferKind) (p : Word16)
    {sub : Subscription} (hsub : sub.SessionsInv) : (I.putSub k p sub).SessionsInv := by
  refine Instance.sessionsInv_put hI k fun e he => ?_
  rcases Map.mem_insert he with rfl | he
  · exact hsub
  · exact Instance.sessionsInv_iff.1 hI k e he

theorem Instance.sessionsInv_dropSub {I : Instance} (hI : I.SessionsInv) (k : TransferKind) (p : Word16) :
    (I.dropSub k p).SessionsInv :=
  Instance.sessionsInv_put hI k fun e he => Instance.sessionsInv_iff.1 hI k e (Map.mem_of_mem_erase he)

/-! ### The machine -/

theorem mem_ins_of_validIns {s : State} {i : Nat} {I : Instance} (h : s.validIns i = some I) : I ∈ s.ins :=
  List.mem_of_getElem? (validIns_eq_some.1 h).1

theorem State.SizesFit.extent_lt {s : State} (hs : s.SizesFit) {I : Instance} (hI : I ∈ s.ins) {k : TransferKind}
    {p : Word16} {sub : Subscription} (hf : I.findSub k p = some sub) : sub.extent < 2 ^ s.params.sizeW := by
  obtain ⟨hm, hr, hq⟩ := hs.1 I hI
  cases k with
  | message => exact (hm _ (Map.mem_of_find hf)).1
  | response => exact (hr _ (Map.mem_of_find hf)).1
  | request => exact (hq _ (Map.mem_of_find hf)).1

theorem State.SessionsInv.of_set {s t : State} (hs : s.SessionsInv) {i : Nat} {J : Instance} (hJ : J.SessionsInv)
    (ht : t.ins = s.ins.set i J) : t.SessionsInv := by
  intro I hI
  rw [ht] at hI
  rcases List.mem_or_eq_of_mem_set hI with hI | rfl
  · exact hs I hI
  · exact hJ

theorem State.SessionsInv.of_ins_eq {s t : State} (hs : s.SessionsInv) (ht : t.ins = s.ins) : t.SessionsInv := by
  intro I hI
  exact hs I (ht ▸ hI)

/-- `RX_ACCEPT` writes a session that meets R30 into the subscription it found. -/
theorem sessionsInv_acceptsInto {s : State} (hfit : s.SizesFit) (hs : s.SessionsInv) {i : Nat} {frame : Bytes}
    {I : Instance} {sub : Subscription} {h : Header} {chunk : Bytes} (hf : s.Finds i frame I sub h chunk)
    {ts : Word64} {rti : Byte} {y : Session}
    (hy : (acceptMatched sub h chunk ts rti s.params s.allocPort).session = some y) :
    (I.putSub h.kind h.portId (sub.putSession h.sourceNodeId.toNat y)).SessionsInv := by
  obtain ⟨hI, hdec, -, hsub⟩ := hf
  have hmem := mem_ins_of_validIns hI
  have hindex : h.frameIndex ≠ 0#31 := by
    have hpos := frameIndex_pos_of_decodeFrame hdec
    intro h0
    simp [h0] at hpos
  have hsessions := Instance.sessionsInv_of_findSub (hs I hmem) hsub
  have hyInv := acceptMatched_sessionInv (hfit.extent_lt hmem hsub) hsessions hindex chunk ts rti s.allocPort y hy
  exact Instance.sessionsInv_putSub (hs I hmem) _ _ (Subscription.sessionsInv_putSession hsessions hyInv _)

/-- Settles O56, by cases on what a step can do: only `INIT`, `CFG_NODE_ID`, the registry's commands and a frame that
writes its session change a receive context. -/
theorem stepKeepsSessionsInvariant : Obligations.StepKeepsSessionsInvariant := by
  intro s t hfit hs hstep
  have hvalid : ∀ {i I}, s.validIns i = some I → I.SessionsInv := fun h => hs _ (mem_ins_of_validIns h)
  cases step_effect hstep with
  | keeps hi => exact hs.of_ins_eq hi
  | initialises _ _ _ hi => exact hs.of_set Instance.sessionsInv_fresh hi
  | renames _ _ n h hi => exact hs.of_set (Instance.sessionsInv_rename (hvalid h) n) hi
  | subscribes _ _ k p e m _ h _ _ hi =>
    exact hs.of_set (Instance.sessionsInv_putSub (hvalid h) k p (Subscription.sessionsInv_fresh p e m)) hi
  | replaces _ _ k p e m _ _ h _ _ hi =>
    exact hs.of_set (Instance.sessionsInv_putSub (hvalid h) k p (Subscription.sessionsInv_fresh p e m)) hi
  | unsubscribes _ _ k p _ h _ hi => exact hs.of_set (Instance.sessionsInv_dropSub (hvalid h) k p) hi
  | accepts _ _ _ _ _ _ _ _ _ _ hi => exact hs.of_ins_eq hi
  | acceptsInto _ _ _ _ _ _ _ _ _ hf hy hi => exact hs.of_set (sessionsInv_acceptsInto hfit hs hf hy) hi
  | opensQueue _ _ _ _ _ _ _ hi => exact hs.of_ins_eq hi
  | pushDenied _ _ _ hi => exact hs.of_ins_eq hi
  | pushes _ _ _ _ _ _ _ _ _ _ _ _ _ hi => exact hs.of_ins_eq hi
  | pops _ _ _ _ _ _ hi => exact hs.of_ins_eq hi

end Sys2Proof.Machine
end

section
/-! SUPPORT. The data specifier codec (R85). The idea: a 16-bit word is two high bits, which give the kind, and 14 low
bits, which `0x3FFF` masks; a service's mark `0xC000` or `0x8000` has none of the low ones. A message keeps bit 14 in
its port-ID, and its bit 15 is clear just when it lies in the range of a subject-ID. -/

namespace Sys2Proof.Machine

open Sys2Proof

/-! ### Decoding by the two high bits -/

theorem ofSpecifier_message {ds : Word16} (h15 : ds.getLsbD 15 = false) :
    kindOfSpecifier ds = .message ∧ portOfSpecifier ds = ds &&& 0x7FFF#16 := by
  simp only [kindOfSpecifier, portOfSpecifier, h15, ↓reduceIte, and_self]

theorem ofSpecifier_request {ds : Word16} (h15 : ds.getLsbD 15 = true) (h14 : ds.getLsbD 14 = true) :
    kindOfSpecifier ds = .request ∧ portOfSpecifier ds = ds &&& 0x3FFF#16 := by
  simp only [kindOfSpecifier, portOfSpecifier, h15, h14, Bool.true_eq_false, ↓reduceIte, and_self]

theorem ofSpecifier_response {ds : Word16} (h15 : ds.getLsbD 15 = true) (h14 : ds.getLsbD 14 = false) :
    kindOfSpecifier ds = .response ∧ portOfSpecifier ds = ds &&& 0x3FFF#16 := by
  simp only [kindOfSpecifier, portOfSpecifier, h15, h14, Bool.false_eq_true, Bool.true_eq_false, ↓reduceIte, and_self]

/-! ### Ranges and bits -/

theorem getLsbD_15_eq_false_iff {p : Word16} : p.getLsbD 15 = false ↔ p.toNat ≤ 32767 := by
  have hmsb : p.msb = p.getLsbD 15 := BitVec.msb_eq_getLsbD_last p
  rw [← hmsb, BitVec.msb_eq_false_iff_two_mul_lt]
  omega

theorem getLsbD_14_of_le {p : Word16} (h : p.toNat ≤ 16383) : p.getLsbD 14 = false :=
  Nat.testBit_lt_two_pow (by omega)

theorem getLsbD_0x3FFF {i : Nat} (hi : i < 16) : (0x3FFF#16).getLsbD i = decide (i < 14) := by
  revert i
  decide

theorem and_0x7FFF_of_le {p : Word16} (h : p.toNat ≤ 32767) : p &&& 0x7FFF#16 = p :=
  BitVec.eq_of_toNat_eq (Nat.and_two_pow_sub_one_of_lt_two_pow (n := 15) (by omega))

theorem and_0x3FFF_of_le {p : Word16} (h : p.toNat ≤ 16383) : p &&& 0x3FFF#16 = p :=
  BitVec.eq_of_toNat_eq (Nat.and_two_pow_sub_one_of_lt_two_pow (n := 14) (by omega))

theorem and_0x3FFF_le (ds : Word16) : (ds &&& 0x3FFF#16).toNat ≤ 16383 := Nat.and_le_right

/-- Masking drops a service's mark again. -/
theorem mark_or_and_0x3FFF {mark p : Word16} (hmark : mark &&& 0x3FFF#16 = 0#16) (h : p.toNat ≤ 16383) :
    (mark ||| p) &&& 0x3FFF#16 = p := by
  rw [BitVec.and_or_distrib_right, hmark, and_0x3FFF_of_le h, BitVec.zero_or]

/-- A word is put together again from its two high bits and its 14 low ones. -/
theorem mark_or_low_eq {mark ds : Word16} (hmark : mark &&& 0x3FFF#16 = 0#16)
    (h15 : ds.getLsbD 15 = mark.getLsbD 15) (h14 : ds.getLsbD 14 = mark.getLsbD 14) :
    mark ||| (ds &&& 0x3FFF#16) = ds := by
  refine BitVec.eq_of_getLsbD_eq fun i hi => ?_
  rw [BitVec.getLsbD_or, BitVec.getLsbD_and, getLsbD_0x3FFF hi]
  obtain hlow | rfl | rfl : i < 14 ∨ i = 14 ∨ i = 15 := by omega
  · have hbit := congrArg (·.getLsbD i) hmark
    simp only [BitVec.getLsbD_and, getLsbD_0x3FFF hi, hlow, decide_true, Bool.and_true, BitVec.getLsbD_zero] at hbit
    simp [hbit, hlow]
  · rw [h14]; simp
  · rw [h15]; simp

/-! ### The two round trips -/

theorem ofSpecifier_dataSpecifierOf {k : TransferKind} {p : Word16} (h : portInRange k p = true) :
    kindOfSpecifier (dataSpecifierOf k p) = k ∧ portOfSpecifier (dataSpecifierOf k p) = p := by
  have hle := portInRange_iff.1 h
  cases k with
  | message =>
    have hdec := ofSpecifier_message (getLsbD_15_eq_false_iff.2 hle)
    rwa [and_0x7FFF_of_le hle] at hdec
  | request =>
    have hdec := ofSpecifier_request (ds := 0xC000#16 ||| p) (by simp) (by simp)
    rwa [mark_or_and_0x3FFF rfl hle] at hdec
  | response =>
    have hdec := ofSpecifier_response (ds := 0x8000#16 ||| p) (by simp)
      (by rw [BitVec.getLsbD_or, getLsbD_14_of_le hle]; rfl)
    rwa [mark_or_and_0x3FFF rfl hle] at hdec

theorem dataSpecifierOf_ofSpecifier (ds : Word16) :
    portInRange (kindOfSpecifier ds) (portOfSpecifier ds) = true
      ∧ dataSpecifierOf (kindOfSpecifier ds) (portOfSpecifier ds) = ds := by
  rw [portInRange_iff]
  cases h15 : ds.getLsbD 15 with
  | false =>
    obtain ⟨hkind, hport⟩ := ofSpecifier_message h15
    have hle := getLsbD_15_eq_false_iff.1 h15
    rw [hkind, hport, and_0x7FFF_of_le hle]
    exact ⟨hle, rfl⟩
  | true =>
    cases h14 : ds.getLsbD 14 with
    | false =>
      obtain ⟨hkind, hport⟩ := ofSpecifier_response h15 h14
      rw [hkind, hport]
      exact ⟨and_0x3FFF_le ds, mark_or_low_eq rfl h15 h14⟩
    | true =>
      obtain ⟨hkind, hport⟩ := ofSpecifier_request h15 h14
      rw [hkind, hport]
      exact ⟨and_0x3FFF_le ds, mark_or_low_eq rfl h15 h14⟩

/-- Settles O21: the three encodings are the definition's own, and the two round trips give the rest. -/
theorem dataSpecifierCodecIsABijection : Obligations.DataSpecifierCodecIsABijection := by
  have decodes : ∀ (k : TransferKind) (p : Word16), p.toNat ≤ portIdMax k →
      kindOfSpecifier (dataSpecifierOf k p) = k ∧ portOfSpecifier (dataSpecifierOf k p) = p :=
    fun _ _ h => ofSpecifier_dataSpecifierOf (portInRange_iff.2 h)
  exact ⟨fun p h => ⟨rfl, decodes .message p h⟩, fun p h => ⟨rfl, decodes .request p h⟩,
    fun p h => ⟨rfl, decodes .response p h⟩, dataSpecifierOf_ofSpecifier⟩

end Sys2Proof.Machine
end

section
/-! SUPPORT. The output exclusive-or of CRC-32C (R123). -/

namespace Sys2Proof.Machine

open Sys2Proof

/-- What the command writes and nothing else: the response field, with the complemented accumulator. -/
theorem exec_crc32cFin (acc : Word32) (s : State) :
    exec (.crc32cFin acc) s = .next { s with response := some ⟨.ok, .word32 (acc ^^^ 0xFFFFFFFF#32)⟩ } := rfl

/-- The mask meets itself and cancels. -/
@[simp] theorem crc32cFin_crc32cFin (acc : Word32) : crc32cFin (crc32cFin acc) = acc := by
  unfold crc32cFin
  rw [BitVec.xor_assoc, BitVec.xor_self, BitVec.xor_zero]

/-- Settles O15: the command's equation, the cancelling mask, and the example of R123. -/
theorem crc32cFinComplements : Obligations.Crc32cFinComplements :=
  ⟨exec_crc32cFin, crc32cFin_crc32cFin, by decide⟩

end Sys2Proof.Machine
end

section
/-! SUPPORT. `TX_PUSH` denied an allocation (R199, R201). The idea: the objects granted before the denial are named from
`nextObj` on, above every object the ledger held, so freeing them leaves the ledger as it was; and the allocator port is
the only part of the state the generator has written by then. -/

namespace Sys2Proof.Machine

open Sys2Proof

/-! ### The frames' sizes -/

theorem frameAt_length (f : FrameFields) (S : Bytes) (C n k : Nat) :
    (frameAt f S C n k).length = 24 + (chunkAt S C k).length := by
  simp [frameAt]

/-- What frame `j + 1` asks the allocator for beyond the item's overhead (R199). -/
theorem framesOf_getD_length (f : FrameFields) (payload : Bytes) {C j : Nat}
    (hj : j < frameCount (payload.length + 4) C) :
    ((framesOf f payload C).getD j []).length = 24 + (chunkAt (streamOf payload) C (j + 1)).length := by
  simp [framesOf, streamOf_length, hj, frameAt_length]

/-! ### The allocator port after a denial -/

/-- Freeing the newest objects undoes their entry in the ledger. -/
theorem filter_ledger_append_new {ledger new : List ObjId} {next : ObjId} (hl : ∀ o ∈ ledger, o < next)
    (hn : ∀ o ∈ new, next ≤ o) : (ledger ++ new).filter (fun o => decide (o ∉ new)) = ledger := by
  have hnew : new.filter (fun o => decide (o ∉ new)) = [] := by simp
  have hold : ledger.filter (fun o => decide (o ∉ new)) = ledger :=
    List.filter_eq_self.2 fun o ho => decide_eq_true fun ho' => absurd (hn o ho') (Nat.not_le.2 (hl o ho))
  rw [List.filter_append, hnew, hold, List.append_nil]

/-- The port after `m` requests granted, the next one denied, and the `m` objects freed in order (R201); request `j`
asked for `size j` bytes. -/
def AllocPort.undone (a : AllocPort) (size : Nat → Nat) (m : Nat) : AllocPort :=
  { answers := a.answers.drop (m + 1)
    requests := a.requests + (m + 1)
    nextObj := a.nextObj + m
    ledger := a.ledger
    log := a.log ++ (List.range m).map (fun j => .alloc (size j) (some (a.nextObj + j)))
      ++ [.alloc (size m) none] ++ (List.range m).map (fun j => .free (a.nextObj + j)) }

/-- Only the sizes of the requests made matter. -/
theorem undone_congr (a : AllocPort) {size size' : Nat → Nat} {m : Nat} (h : ∀ j ≤ m, size j = size' j) :
    a.undone size m = a.undone size' m := by
  have hgranted : (List.range m).map (fun j => AllocEvent.alloc (size j) (some (a.nextObj + j)))
      = (List.range m).map (fun j => AllocEvent.alloc (size' j) (some (a.nextObj + j))) :=
    List.map_congr_left fun j hj => by rw [h j (List.mem_range.1 hj).le]
  rw [AllocPort.undone, AllocPort.undone, hgranted, h m le_rfl]

/-- A denied run of the frame allocator, the ledger's objects being older than the next one. -/
theorem allocFrames_undone (overhead : Nat) {frames : List Bytes} {a : AllocPort} {m : Nat} (hm : m < frames.length)
    (hgrant : ∀ j < m, a.answer j = true) (hdeny : a.answer m = false) (hold : ∀ o ∈ a.ledger, o < a.nextObj) :
    allocFrames overhead frames [] a = (none, a.undone (fun j => overhead + (frames.getD j []).length) m) := by
  have hnew : ∀ o ∈ (List.range m).map (fun j => a.nextObj + j), a.nextObj ≤ o := by simp
  rw [allocFrames_denied overhead frames [] a m hm hgrant hdeny, List.nil_append, freeEach_eq,
    filter_ledger_append_new hold hnew, List.map_map]
  rfl

/-- A denied run over a transfer's frames: each frame asks for the overhead, its header and its chunk (R199). -/
theorem allocFrames_framesOf_denied (overhead : Nat) (f : FrameFields) {payload : Bytes} {C m : Nat} {a : AllocPort}
    (hm : m < frameCount (payload.length + 4) C) (hgrant : ∀ j < m, a.answer j = true) (hdeny : a.answer m = false)
    (hold : ∀ o ∈ a.ledger, o < a.nextObj) :
    allocFrames overhead (framesOf f payload C) [] a
      = (none, a.undone (fun j => overhead + 24 + (chunkAt (streamOf payload) C (j + 1)).length) m) := by
  have hlen : m < (framesOf f payload C).length := by rw [framesOf_length]; exact hm
  rw [allocFrames_undone overhead hlen hgrant hdeny hold]
  refine congrArg (Prod.mk none) (undone_congr a fun j hj => ?_)
  rw [framesOf_getD_length f payload (hj.trans_lt hm), Nat.add_assoc]

/-! ### The command -/

/-- Past the context and builder checks `TX_PUSH` is the frame chain generator (R191). -/
theorem exec_txPush_of_accepted {s : State} {q i : Nat} {Q : TxQueue} {I : Instance} {deadline : Word64}
    {priority : Byte} {kind : BitVec 2} {k : TransferKind} {p remote : Word16} {sp : Specifier}
    (hQ : s.validTxq q = some Q) (hI : s.validIns i = some I)
    (hsp : buildSpecifier I.nodeId priority kind p remote s.localAddress = some (k, sp)) (tid : Word64)
    (payload : Bytes) :
    exec (.txPush q i deadline priority kind p remote tid payload) s
      = .next (pushTransfer q Q I.nodeId remote sp deadline (priority.setWidth 3) tid payload s) := by
  simp only [exec, execTxPush, hQ, hI, hsp]

/-- Past the checks of R192 to R194 and R198, a denied allocation leaves the allocator port as the only thing written
(R201). -/
theorem pushTransfer_denied {q : Nat} {Q : TxQueue} {nodeId remote : Word16} {sp : Specifier} {deadline : Word64}
    {priority : BitVec 3} {tid : Word64} {payload : Bytes} {s : State} {a : AllocPort} (hmtu : 24 < Q.mtuBytes)
    (hmax : frameCount (payload.length + 4) (Q.mtuBytes - 24) ≤ 2 ^ 31 - 1)
    (hanon : nodeId = 0xFFFF#16 → frameCount (payload.length + 4) (Q.mtuBytes - 24) ≤ 1)
    (hcap : Q.size + frameCount (payload.length + 4) (Q.mtuBytes - 24) ≤ Q.capacity)
    (ha : allocFrames s.params.txItemOverhead
      (framesOf ⟨priority, nodeId, remote, sp.dataSpecifier, tid⟩ payload (Q.mtuBytes - 24)) [] s.allocPort
        = (none, a)) :
    pushTransfer q Q nodeId remote sp deadline priority tid payload s = (s.setAlloc a).raise .outOfMemory := by
  unfold pushTransfer
  rw [if_neg (not_le.2 hmtu), if_neg (not_lt.2 hmax), if_neg fun h => not_lt.2 (hanon h.1) h.2,
    if_neg (not_lt.2 hcap)]
  simp only [ha]

/-- Settles O39: the push passes every check, and the denied run of the frame allocator is undone. -/
theorem txPushDeniedIsAtomic : Obligations.TxPushDeniedIsAtomic := by
  intro q i deadline priority kind k p remote tid payload s Q I C n m S hQ hI hk hprio hport hnodes hmtu hC hS hn hmax
    hanon hcap hm hgrant hdeny hold
  subst hC hS hn
  have hsp : buildSpecifier I.nodeId priority kind p remote s.localAddress
      = some (k, specifierOf I.nodeId k p remote s.localAddress) :=
    buildSpecifier_some.2 ⟨hk, hprio, hport, hnodes, rfl⟩
  rw [exec_txPush_of_accepted hQ hI hsp,
    pushTransfer_denied hmtu hmax hanon hcap (allocFrames_framesOf_denied _ _ hm hgrant hdeny hold)]
  rfl

end Sys2Proof.Machine
end

section
/-! SUPPORT. `TX_PEEK` (R222): one equation for each of its answers. A response is no part of what the command reads,
so it answers the same a second time; and the strict order of R35 puts the minimum at the queue's head. -/

namespace Sys2Proof.Machine

open Sys2Proof

/-- The response field is not where a queue is looked up. -/
theorem validTxq_respond (s : State) (q : Nat) (st : Status) (r : Results) :
    (s.respond st r).validTxq q = s.validTxq q :=
  validTxq_congr rfl

/-- The item fields `TX_PEEK` returns, in the order of its results (R222). -/
def TxItem.peeked (m : TxItem) : Results := .peeked m.id m.frame m.deadline m.nextInTransfer m.specifier

/-! ### The command's answers -/

theorem exec_txPeek_of_invalid {s : State} {q : Nat} (hQ : s.validTxq q = none) :
    exec (.txPeek q) s = .next (s.raise .argumentInvalid) := by
  simp only [exec, execTxPeek, hQ]

theorem exec_txPeek_of_empty {s : State} {q : Nat} {Q : TxQueue} (hQ : s.validTxq q = some Q) (hsize : Q.size = 0) :
    exec (.txPeek q) s = .next (s.respond .empty .none) := by
  simp only [exec, execTxPeek, hQ, if_pos hsize]

theorem exec_txPeek_of_cons {s : State} {q : Nat} {Q : TxQueue} {m : TxItem} {rest : List TxItem}
    (hQ : s.validTxq q = some Q) (hsize : Q.size ≠ 0) (hitems : Q.items = m :: rest) :
    exec (.txPeek q) s = .next (s.respond .ok m.peeked) := by
  simp only [exec, execTxPeek, hQ, if_neg hsize, hitems, TxItem.peeked]

/-! ### The head of a queue that meets R35 -/

theorem TxQueue.Inv.head_before {Q : TxQueue} (h : Q.Inv) {m : TxItem} {rest : List TxItem}
    (hitems : Q.items = m :: rest) : ∀ e ∈ rest, m.before e = true := by
  obtain ⟨-, -, hsorted, -⟩ := h
  rw [hitems] at hsorted
  exact (List.pairwise_cons.1 hsorted).1

/-- Settles O41: one equation per answer, the third one applied again to the state it leaves. -/
theorem txPeekReturnsTheMinimum : Obligations.TxPeekReturnsTheMinimum := by
  intro q s Q hq
  refine ⟨fun hv => ?invalid, fun hv hsize => ?empty, fun m rest hv hsize hitems => ?first⟩
  case invalid => exact exec_txPeek_of_invalid (validTxq_invalid hq hv)
  case empty => exact exec_txPeek_of_empty (validTxq_eq_some.2 ⟨hq, hv⟩) hsize
  case first =>
    have hQ : s.validTxq q = some Q := validTxq_eq_some.2 ⟨hq, hv⟩
    have hQ' : (s.respond .ok m.peeked).validTxq q = some Q := (validTxq_respond s q _ _).trans hQ
    exact ⟨s.respond .ok m.peeked, rfl, exec_txPeek_of_cons hQ hsize hitems, exec_txPeek_of_cons hQ' hsize hitems,
      fun hinv => hinv.head_before hitems⟩

end Sys2Proof.Machine
end

section
/-! SUPPORT. `RX_UNSUBSCRIBE` (R245): one equation for each of its answers. The command never checks the port-ID's range
(R249): a registry in canonical form has no subscription outside it, so the lookup fails there. -/

namespace Sys2Proof.Machine

open Sys2Proof

/-! ### Lookups in a registry in canonical form -/

/-- The canonical form of the three maps at once, with the kind as a variable. -/
theorem Registry.wf_iff {r : Registry} : r.WF ↔ ∀ k, subsWf k (r.get k) := by
  refine ⟨fun ⟨hm, hr, hq⟩ k => ?_, fun h => ⟨h .message, h .response, h .request⟩⟩
  cases k with
  | message => exact hm
  | response => exact hr
  | request => exact hq

/-- Every subscription that a lookup finds has its port-ID in the range of its kind (R249). -/
theorem Registry.WF.le_portIdMax_of_findSub {I : Instance} (h : I.subs.WF) {k : TransferKind} {p : Word16}
    {sub : Subscription} (hf : I.findSub k p = some sub) : p.toNat ≤ portIdMax k := by
  obtain ⟨-, hentries⟩ := Registry.wf_iff.1 h k
  obtain ⟨-, hle, -⟩ := hentries _ (Map.mem_of_find hf)
  exact hle

theorem Registry.WF.findSub_outOfRange {I : Instance} (h : I.subs.WF) {k : TransferKind} {p : Word16}
    (hp : portIdMax k < p.toNat) : I.findSub k p = none :=
  Option.eq_none_iff_forall_ne_some.2 fun _ hf => (h.le_portIdMax_of_findSub hf).not_gt hp

/-! ### The command's answers -/

section
variable {s : State} {i : Nat} {I : Instance} {kind : BitVec 2} {k : TransferKind} {p : Word16}

theorem exec_rxUnsubscribe_of_invalid (hI : s.validIns i = none) :
    exec (.rxUnsubscribe i kind p) s = .next (s.raise .argumentInvalid) := by
  simp only [exec, execRxUnsubscribe, hI]

/-- Kind 3 gets the answer of an invalid context, so it does not matter which check comes first. -/
theorem exec_rxUnsubscribe_of_kind_none (hk : kindOf kind = none) :
    exec (.rxUnsubscribe i kind p) s = .next (s.raise .argumentInvalid) := by
  cases hI : s.validIns i with
  | none => exact exec_rxUnsubscribe_of_invalid hI
  | some I => simp only [exec, execRxUnsubscribe, hI, hk]

theorem exec_rxUnsubscribe_of_findSub_none (hI : s.validIns i = some I) (hk : kindOf kind = some k)
    (hf : I.findSub k p = none) : exec (.rxUnsubscribe i kind p) s = .next (s.respond .notFound .none) := by
  simp only [exec, execRxUnsubscribe, hI, hk, hf]

/-- The teardown of R245: the subscription dropped from its context, and one set of frees on the allocator port. -/
theorem exec_rxUnsubscribe_of_findSub_some {old : Subscription} (hI : s.validIns i = some I)
    (hk : kindOf kind = some k) (hf : I.findSub k p = some old) :
    exec (.rxUnsubscribe i kind p) s = .next (((s.setIns i (I.dropSub k p)).setAlloc
      (s.allocPort.freeSet old.objects)).respond .removed .none) := by
  simp only [exec, execRxUnsubscribe, hI, hk, hf]

end

/-- Settles O32: one equation per answer; past its kind's range a port-ID is not found, by the canonical form. -/
theorem unsubscribeResult : Obligations.UnsubscribeResult := by
  intro i kind p s I hi
  refine ⟨?argumentErrors, fun k hv hk => ?answers⟩
  case argumentErrors =>
    rintro (hv | hkind)
    · exact exec_rxUnsubscribe_of_invalid (validIns_invalid hi hv)
    · exact exec_rxUnsubscribe_of_kind_none (kindOf_none.2 hkind)
  case answers =>
    have hI : s.validIns i = some I := validIns_eq_some.2 ⟨hi, hv⟩
    exact ⟨fun hf => exec_rxUnsubscribe_of_findSub_none hI hk hf,
      fun hwf hp => exec_rxUnsubscribe_of_findSub_none hI hk (hwf.findSub_outOfRange hp),
      fun old hf => exec_rxUnsubscribe_of_findSub_some hI hk hf⟩

end Sys2Proof.Machine
end

section
/-! SUPPORT. The command port's codec (R100 to R103). The idea: a record is its opcode and then its fields one after the
other, so what is known of reading one field is put together along the list of a command's fields (`Reads`). -/

namespace Sys2Proof

open Sys2Proof.Machine

/-! ### Reading what was written -/

theorem ok_bind {ε α β : Type} (a : α) (f : α → Except ε β) : ((Except.ok a : Except ε α) >>= f) = f a := rfl

/-- A command's operands, read under its opcode, are the command. -/
theorem decodeOperands_operands (i : Instr) (rest : Bytes) :
    decodeOperands i.opcode (i.operands ++ rest) = .ok (i, rest) := by
  have readBits_field : ∀ {w n : Nat}, 2 ^ w ≤ 256 ^ n → ∀ (v : BitVec w) (rest : Bytes),
      readBits w n (putBits n v ++ rest) = .ok (v, rest) := fun h v rest => readBits_putBits v h rest
  have h64 := @readBits_field 64 8 (by norm_num)
  have h32 := @readBits_field 32 4 (by norm_num)
  have h31 := @readBits_field 31 4 (by norm_num)
  have h16 := @readBits_field 16 2 (by norm_num)
  have h8 := @readBits_field 8 1 (by norm_num)
  have h3 := @readBits_field 3 1 (by norm_num)
  have h2 := @readBits_field 2 1 (by norm_num)
  cases i <;>
    simp [Instr.opcode, Instr.operands, Instr.fields, Field.bytes, decodeOperands, readNum_putNum, readSeq_putSeq,
      readFlag_putBits, h64, h32, h31, h16, h8, h3, h2, ok_bind, pure, Except.pure]

/-- Settles O1: the opcode leads to the readers of the command's own operands. -/
theorem decodeOfEncodeIsTheCommand : Obligations.DecodeOfEncodeIsTheCommand :=
  fun i rest => decodeOperands_operands i rest

/-! ### Writing what was read -/

/-- The readers take these fields, one after the other, from the bytes `bs` and leave `rest`. -/
inductive Reads (rest : Bytes) : List Field → Bytes → Prop where
  | nil : Reads rest [] rest
  | num {bs r : Bytes} {n : Nat} {fs : List Field} (h : readNum bs = .ok (n, r)) (hr : Reads rest fs r) :
      Reads rest (.num n :: fs) bs
  | bits {bs r : Bytes} {w n : Nat} {v : BitVec w} {fs : List Field} (h : readBits w n bs = .ok (v, r))
      (hr : Reads rest fs r) : Reads rest (.bits w n v :: fs) bs
  | seq {bs r v : Bytes} {fs : List Field} (h : readSeq bs = .ok (v, r)) (hr : Reads rest fs r) :
      Reads rest (.seq v :: fs) bs

/-- The record has the fields' length, and is the fields' bytes where it has none of their spare bits set. -/
abbrev RecordOf (fs : List Field) (record : Bytes) : Prop :=
  record.length = (fs.flatMap Field.bytes).length
    ∧ (clearOf (fs.flatMap Field.spare) record = true → record = fs.flatMap Field.bytes)

/-- One more field in front, whose own bytes are `r`. -/
theorem RecordOf.cons {f : Field} {fs : List Field} {r record : Bytes} (hl : r.length = f.bytes.length)
    (hc : clearOf f.spare r = true → r = f.bytes) (h : RecordOf fs record) : RecordOf (f :: fs) (r ++ record) := by
  obtain ⟨hlen, hclear⟩ := h
  refine ⟨by simp [hl, hlen], fun hall => ?_⟩
  rw [List.flatMap_cons, clearOf_append (by rw [Field.spare_length, hl]), Bool.and_eq_true] at hall
  rw [List.flatMap_cons, ← hc hall.1, ← hclear hall.2]

theorem Reads.record {rest bs : Bytes} {fs : List Field} (h : Reads rest fs bs) :
    ∃ record, bs = record ++ rest ∧ RecordOf fs record := by
  induction h with
  | nil => exact ⟨[], rfl, rfl, fun _ => rfl⟩
  | num h _ ih =>
    obtain ⟨record, rfl, hrec⟩ := ih
    exact ⟨_, (readNum_ok h).trans (List.append_assoc ..).symm, hrec.cons (f := .num _) rfl fun _ => rfl⟩
  | bits h _ ih =>
    obtain ⟨record, rfl, hrec⟩ := ih
    obtain ⟨r, rfl, hlen, hclear⟩ := readBits_field h
    exact ⟨_, (List.append_assoc ..).symm, hrec.cons (f := .bits _ _ _) (by simp [Field.bytes, putBits, hlen]) hclear⟩
  | seq h _ ih =>
    obtain ⟨record, rfl, hrec⟩ := ih
    exact ⟨_, (readSeq_ok h).trans (List.append_assoc ..).symm, hrec.cons (f := .seq _) rfl fun _ => rfl⟩

/-- What decodes was read field by field, under the command's own opcode. -/
theorem decodeOperands_ok {opcode : Byte} {r rest : Bytes} {i : Instr} (h : decodeOperands opcode r = .ok (i, rest)) :
    opcode = i.opcode ∧ Reads rest i.fields r := by
  have hop : ∀ {c : Byte}, opcode.toNat = c.toNat → opcode = c := BitVec.eq_of_toNat_eq
  unfold decodeOperands at h
  split at h
  all_goals
    rename_i hn
    simp only [bind_ok_iff, pure_ok_iff, Prod.exists, Prod.mk.injEq, reduceCtorEq] at h
  · obtain ⟨_, _, h1, rfl, rfl⟩ := h
    exact ⟨hop hn, .num h1 .nil⟩
  · obtain ⟨_, _, h1, _, _, h2, rfl, rfl⟩ := h
    exact ⟨hop hn, .num h1 (.bits h2 .nil)⟩
  · obtain ⟨_, _, h1, _, _, h2, _, _, h3, rfl, rfl⟩ := h
    exact ⟨hop hn, .num h1 (.num h2 (.num h3 .nil))⟩
  · obtain ⟨_, _, h1, _, _, h2, _, _, h3, _, _, h4, _, _, h5, _, _, h6, _, _, h7, _, _, h8, _, _, h9, rfl, rfl⟩ := h
    exact ⟨hop hn, .num h1 (.num h2 (.bits h3 (.bits h4 (.bits h5 (.bits h6 (.bits h7 (.bits h8 (.seq h9 .nil))))))))⟩
  · obtain ⟨_, _, h1, rfl, rfl⟩ := h
    exact ⟨hop hn, .num h1 .nil⟩
  · obtain ⟨_, _, h1, _, _, h2, rfl, rfl⟩ := h
    exact ⟨hop hn, .num h1 (.num h2 .nil)⟩
  · obtain ⟨_, _, h1, _, _, h2, _, _, h3, _, _, h4, _, _, h5, rfl, rfl⟩ := h
    exact ⟨hop hn, .num h1 (.bits h2 (.bits h3 (.num h4 (.bits h5 .nil))))⟩
  · obtain ⟨_, _, h1, _, _, h2, _, _, h3, rfl, rfl⟩ := h
    exact ⟨hop hn, .num h1 (.bits h2 (.bits h3 .nil))⟩
  · obtain ⟨_, _, h1, _, _, h2, _, _, h3, _, _, h4, rfl, rfl⟩ := h
    exact ⟨hop hn, .num h1 (.bits h2 (.seq h3 (.bits h4 .nil)))⟩
  · obtain ⟨_, _, h1, _, _, h2, rfl, rfl⟩ := h
    exact ⟨hop hn, .bits h1 (.seq h2 .nil)⟩
  · obtain ⟨_, _, h1, rfl, rfl⟩ := h
    exact ⟨hop hn, .bits h1 .nil⟩
  · obtain ⟨_, _, h1, rfl, rfl⟩ := h
    exact ⟨hop hn, .seq h1 .nil⟩
  · obtain ⟨_, _, h1, _, _, h2, rfl, rfl⟩ := h
    exact ⟨hop hn, .bits h1 (.seq h2 .nil)⟩
  · obtain ⟨_, _, h1, rfl, rfl⟩ := h
    exact ⟨hop hn, .seq h1 .nil⟩
  · obtain ⟨_, _, h1, _, _, h2, _, _, h3, _, _, h4, _, _, h5, _, _, h6, rfl, rfl⟩ := h
    exact ⟨hop hn, .num h1 (.bits h2 (.bits h3 (.bits h4 (.bits h5 (.seq h6 .nil)))))⟩
  · obtain ⟨_, _, h1, _, _, h2, _, _, h3, _, _, h4, _, _, h5, _, _, h6, _, _, h7, rfl, rfl⟩ := h
    exact ⟨hop hn,
      .bits h1 (.bits h2 (.bits h3 (.bits h4 (.bits h5 (.bits h6 (.bits (readFlag_ok h7) .nil))))))⟩
  · obtain ⟨_, _, h1, rfl, rfl⟩ := h
    exact ⟨hop hn, .seq h1 .nil⟩

/-- Settles O2: the opcode's byte has no spare bits, and each field that was read has the bytes the encoder writes where
its spare bits are clear. -/
theorem decodedBytesAreTheEncoding : Obligations.DecodedBytesAreTheEncoding := by
  intro bs rest i h
  cases bs with
  | nil => cases h
  | cons opcode operands =>
    obtain ⟨rfl, hr⟩ := decodeOperands_ok h
    obtain ⟨record, rfl, hlen, hclear⟩ := hr.record
    refine ⟨i.opcode :: record, rfl, by simp [encode, Instr.operands, hlen], fun hc => ?_⟩
    rw [Instr.spareBits, clearOf_cons, Bool.and_eq_true] at hc
    rw [encode, Instr.operands, ← hclear hc.2]

/-! ### Which opcodes decode -/

/-- The only way to refuse is that the bytes end early. -/
abbrev OnlyTruncated {α : Type} (x : Except DecodeError α) : Prop := ∀ e, x = .error e → e = .truncated

theorem OnlyTruncated.bind {α β : Type} {x : Except DecodeError α} {f : α → Except DecodeError β}
    (hx : OnlyTruncated x) (hf : ∀ a, OnlyTruncated (f a)) : OnlyTruncated (x >>= f) := by
  intro e h
  rcases bind_error_iff.1 h with h | ⟨a, -, h⟩
  · exact hx e h
  · exact hf a e h

theorem OnlyTruncated.pure {α : Type} (a : α) : OnlyTruncated (pure a) := by rintro e ⟨⟩

theorem OnlyTruncated.num (bs : Bytes) : OnlyTruncated (readNum bs) := fun _ => readNum_error
theorem OnlyTruncated.bits (w n : Nat) (bs : Bytes) : OnlyTruncated (readBits w n bs) := fun _ => readBits_error
theorem OnlyTruncated.flag (bs : Bytes) : OnlyTruncated (readFlag bs) := fun _ => readFlag_error
theorem OnlyTruncated.seq (bs : Bytes) : OnlyTruncated (readSeq bs) := fun _ => readSeq_error

/-- The opcodes of the opcode map (R101). -/
def opcodeMap : List Nat :=
  [0x01, 0x02, 0x10, 0x11, 0x12, 0x13, 0x20, 0x21, 0x22, 0x40, 0x41, 0x42, 0x48, 0x49, 0x50, 0x58, 0x59]

theorem decodeOperands_of_mem {opcode : Byte} (h : opcode.toNat ∈ opcodeMap) (r : Bytes) :
    OnlyTruncated (decodeOperands opcode r) := by
  unfold decodeOperands
  split
  case h_18 =>
    simp_all [opcodeMap]
  all_goals
    repeat' first
      | exact .pure _
      | exact .num _
      | exact .bits _ _ _
      | exact .flag _
      | exact .seq _
      | refine .bind ?_ fun _ => ?_

theorem decodeOperands_of_notMem {opcode : Byte} (h : opcode.toNat ∉ opcodeMap) (r : Bytes) :
    decodeOperands opcode r = .error (.reservedOpcode opcode) := by
  simp only [opcodeMap, List.mem_cons, List.not_mem_nil, or_false, not_or] at h
  unfold decodeOperands
  split
  case h_18 => rfl
  all_goals omega

/-- Settles O3: a listed opcode leads to readers, which never refuse by opcode; any other one is refused at once. -/
theorem opcodeMapHasSeventeenOpcodes : Obligations.OpcodeMapHasSeventeenOpcodes := by
  intro opcode operands
  refine ⟨fun h hmem => ?_, fun h => decodeOperands_of_notMem h operands⟩
  cases decodeOperands_of_mem hmem operands _ h

/-- Settles O4: each record is the encoding of its command. -/
theorem writtenOutRecordsDecode : Obligations.WrittenOutRecordsDecode := ⟨rfl, rfl, rfl, rfl⟩

end Sys2Proof
end

section
/-! SUPPORT. What a command does, said once for every command: it reads the contexts it names, the parameters, the local
address and, where it requests an allocation, the allocator's supply; it answers a listed status, writes at most the
contexts it names, and makes a list of transactions on the allocator port (R20, R73, R105, R312). -/

namespace Sys2Proof.Machine

open Sys2Proof

/-! ### Transactions on the allocator port -/

/-- One thing a command does on the allocator port: a request, or objects that leave the ledger, with an event of the
transcript or with none. -/
inductive PortOp where
  | request (size : Nat)
  | drop (objs : List ObjId) (event : Option AllocEvent)

/-- The port after it. -/
def PortOp.run : PortOp → AllocPort → AllocPort
  | .request size, a => (a.alloc size).2
  | .drop objs event, a => { a.release objs with log := a.log ++ event.toList }

/-- The port after several, in order. -/
def runOps (ops : List PortOp) (a : AllocPort) : AllocPort := ops.foldl (fun a op => op.run a) a

/-- No allocation is requested among them. -/
abbrev NoRequest (ops : List PortOp) : Prop := ∀ n, PortOp.request n ∉ ops

/-- The objects that leave the ledger. -/
def droppedBy (ops : List PortOp) : List ObjId :=
  ops.flatMap fun
    | .request _ => []
    | .drop objs _ => objs

/-- The two ports answer requests alike: same answers to come, same next object. -/
structure SameSupply (a b : AllocPort) : Prop where
  answers : a.answers = b.answers
  requests : a.requests = b.requests
  nextObj : a.nextObj = b.nextObj

theorem SameSupply.refl (a : AllocPort) : SameSupply a a := ⟨rfl, rfl, rfl⟩

theorem SameSupply.nextAnswer {a b : AllocPort} (h : SameSupply a b) : a.nextAnswer = b.nextAnswer := by
  simp only [AllocPort.nextAnswer, h.answers, h.requests]

theorem SameSupply.alloc_fst {a b : AllocPort} (h : SameSupply a b) (n : Nat) : (a.alloc n).1 = (b.alloc n).1 := by
  simp only [AllocPort.alloc, h.nextAnswer, h.nextObj]
  split <;> rfl

theorem SameSupply.alloc {a b : AllocPort} (h : SameSupply a b) (n : Nat) :
    SameSupply (a.alloc n).2 (b.alloc n).2 := by
  simp only [AllocPort.alloc, h.nextAnswer]
  split
  · exact ⟨congrArg List.tail h.answers, congrArg (· + 1) h.requests, congrArg (· + 1) h.nextObj⟩
  · exact ⟨congrArg List.tail h.answers, congrArg (· + 1) h.requests, h.nextObj⟩

/-- A drop makes no request. -/
theorem SameSupply.drop {a b : AllocPort} (h : SameSupply a b) (objs : List ObjId) (e e' : Option AllocEvent) :
    SameSupply ((PortOp.drop objs e).run a) ((PortOp.drop objs e').run b) := ⟨h.answers, h.requests, h.nextObj⟩

@[simp] theorem runOps_nil (a : AllocPort) : runOps [] a = a := rfl

@[simp] theorem runOps_cons (op : PortOp) (ops : List PortOp) (a : AllocPort) :
    runOps (op :: ops) a = runOps ops (op.run a) := rfl

@[simp] theorem run_drop_none (objs : List ObjId) (a : AllocPort) : (PortOp.drop objs none).run a = a.release objs := by
  simp [PortOp.run, AllocPort.release]

@[simp] theorem droppedBy_drop (objs : List ObjId) (e : Option AllocEvent) (ops : List PortOp) :
    droppedBy (.drop objs e :: ops) = objs ++ droppedBy ops := rfl

@[simp] theorem droppedBy_nil : droppedBy [] = [] := rfl

/-! ### Functions of the allocator port -/

/-- On every port that answers its requests as `a` does, `f` makes one list of transactions, which without a request drops
only objects of `held`, and answers the port after them in the form `mk`. -/
def Traced {β : Type} (held : List ObjId) (a : AllocPort) (f mk : AllocPort → β) : Prop :=
  ∃ ops, (NoRequest ops → ∀ o ∈ droppedBy ops, o ∈ held)
    ∧ ∀ b, (¬NoRequest ops → SameSupply a b) → f b = mk (runOps ops b)

theorem Traced.done {β : Type} {held : List ObjId} {a : AllocPort} {f mk : AllocPort → β} (h : ∀ b, f b = mk b) :
    Traced held a f mk := ⟨[], by simp, fun b _ => h b⟩

/-- First objects leave the ledger. -/
theorem Traced.drop {β : Type} {held : List ObjId} {a : AllocPort} {f g mk : AllocPort → β} (objs : List ObjId)
    (e : Option AllocEvent) (hobjs : ∀ o ∈ objs, o ∈ held) (hf : ∀ b, f b = g ((PortOp.drop objs e).run b))
    (h : Traced held ((PortOp.drop objs e).run a) g mk) : Traced held a f mk := by
  obtain ⟨ops, hdrop, hops⟩ := h
  have hno : NoRequest (.drop objs e :: ops) ↔ NoRequest ops := by simp [NoRequest]
  refine ⟨.drop objs e :: ops, fun hn o ho => ?_, fun b hb => ?_⟩
  · rw [droppedBy_drop, List.mem_append] at ho
    exact ho.elim (hobjs o) (hdrop (hno.1 hn) o)
  · rw [hf, runOps_cons]
    exact hops _ fun hn => (hb (hno.not.2 hn)).drop objs e e

/-- First an allocation is requested. -/
theorem Traced.request {β : Type} {held held' : List ObjId} {a : AllocPort} {f g mk : AllocPort → β} (n : Nat)
    (hf : ∀ b, SameSupply a b → f b = g (b.alloc n).2) (h : Traced held' (a.alloc n).2 g mk) : Traced held a f mk := by
  obtain ⟨ops, -, hops⟩ := h
  have hreq : ¬NoRequest (.request n :: ops) := fun h => h n List.mem_cons_self
  refine ⟨.request n :: ops, fun h => absurd h hreq, fun b hb => ?_⟩
  rw [hf b (hb hreq), runOps_cons]
  exact hops _ fun _ => (hb hreq).alloc n

/-! ### The frame allocator (R199, R201) -/

theorem freeEach_eq_runOps (objs : List ObjId) (a : AllocPort) :
    a.freeEach objs = runOps (objs.map fun o => .drop [o] (some (.free o))) a := by
  induction objs generalizing a with
  | nil => rfl
  | cons o objs ih => exact ih _

theorem allocFrames_traced (overhead : Nat) (frames : List Bytes) (granted : List ObjId) (a : AllocPort) :
    ∃ objs, Traced [] a (allocFrames overhead frames granted) (fun b => (objs, b)) := by
  induction frames generalizing granted a with
  | nil => exact ⟨some granted, .done fun _ => rfl⟩
  | cons frame frames ih =>
    cases ha : (a.alloc (overhead + frame.length)).1 with
    | none =>
      refine ⟨none, .request (held' := granted) (g := fun b => (none, b.freeEach granted)) (overhead + frame.length)
        (fun b hb => ?_) ⟨_, fun _ o ho => ?_, fun b _ => congrArg (Prod.mk none) (freeEach_eq_runOps granted b)⟩⟩
      · rw [hb.alloc_fst] at ha
        rw [allocFrames, ← Prod.mk.eta (p := b.alloc _), ha]
      · simpa [droppedBy, List.flatMap_map] using ho
    | some o =>
      obtain ⟨objs, h⟩ := ih (granted ++ [o]) (a.alloc (overhead + frame.length)).2
      refine ⟨objs, .request (overhead + frame.length) (fun b hb => ?_) h⟩
      rw [hb.alloc_fst] at ha
      rw [allocFrames, ← Prod.mk.eta (p := b.alloc _), ha]

/-! ### Steps 5 to 12 of `RX_ACCEPT` -/

/-- A step of `RX_ACCEPT` that answers, but for the port, what does not depend on it. -/
abbrev AcceptTraced (held : List ObjId) (a : AllocPort) (f : AllocPort → Accepted) : Prop :=
  ∃ session status transfer, Traced held a f fun b => ⟨session, b, status, transfer⟩

theorem AcceptTraced.done {held : List ObjId} {a : AllocPort} {f : AllocPort → Accepted} (session : Option Session)
    (status : Status) (transfer : Option Transfer) (h : ∀ b, f b = ⟨session, b, status, transfer⟩) :
    AcceptTraced held a f := ⟨session, status, transfer, .done h⟩

theorem AcceptTraced.drop {held : List ObjId} {a : AllocPort} {f g : AllocPort → Accepted} (objs : List ObjId)
    (e : Option AllocEvent) (hobjs : ∀ o ∈ objs, o ∈ held) (hf : ∀ b, f b = g ((PortOp.drop objs e).run b))
    (h : AcceptTraced held ((PortOp.drop objs e).run a) g) : AcceptTraced held a f := by
  obtain ⟨session, status, transfer, h⟩ := h
  exact ⟨session, status, transfer, h.drop objs e hobjs hf⟩

theorem AcceptTraced.request {held held' : List ObjId} {a : AllocPort} {f g : AllocPort → Accepted} (n : Nat)
    (hf : ∀ b, SameSupply a b → f b = g (b.alloc n).2) (h : AcceptTraced held' (a.alloc n).2 g) :
    AcceptTraced held a f := by
  obtain ⟨session, status, transfer, h⟩ := h
  exact ⟨session, status, transfer, h.request n hf⟩

/-- Freeing a payload buffer, where there is one. -/
theorem AcceptTraced.freePayload {held : List ObjId} {a : AllocPort} {f g : AllocPort → Accepted} (x : Session)
    (hx : ∀ o ∈ x.objects, o ∈ held) (hf : ∀ b, f b = g (x.freePayload b))
    (h : AcceptTraced held (x.freePayload a) g) : AcceptTraced held a f := by
  cases hp : x.payload with
  | none =>
    have hfree : ∀ b, x.freePayload b = b := fun b => by simp [Session.freePayload, hp]
    have hfg : f = g := funext fun b => by rw [hf, hfree]
    rw [hfree] at h
    exact hfg ▸ h
  | some buf =>
    have hfree : ∀ b, x.freePayload b = (PortOp.drop [buf.obj] (some (.free buf.obj))).run b := fun b => by
      rw [Session.freePayload, hp]; rfl
    rw [hfree] at h
    refine h.drop [buf.obj] _ (fun o ho => hx o ?_) (fun b => by rw [hf, hfree])
    simp only [Session.objects, hp, List.mem_cons, List.not_mem_nil, or_false] at ho ⊢
    exact .inr ho

theorem finishFrame_traced {held : List ObjId} (y : Session) (hy : ∀ o ∈ y.objects, o ∈ held) (h : Header)
    (a : AllocPort) : AcceptTraced held a (finishFrame y h) := by
  by_cases he : h.eot = true
  · by_cases hc : 4 ≤ y.totalPayloadSize ∧ y.crc = Config.crc32cResidue
    · cases hp : y.payload with
      | none => exact .done (some y.advanced) .transferComplete (some ⟨metadataOf h h.kind h.sourceNodeId, y.transferTimestamp, none,
          outSize y.totalPayloadSize y.payloadSize⟩) fun b => by simp only [finishFrame, he, hc, hp, if_true, and_self]
      | some buf =>
        refine .drop (g := fun b => ⟨some y.advanced, b, .transferComplete, some ⟨metadataOf h h.kind h.sourceNodeId,
          y.transferTimestamp, some buf, outSize y.totalPayloadSize y.payloadSize⟩⟩) [buf.obj] none
          (fun o ho => hy o ?_) (fun b => ?_) (.done _ _ _ fun _ => rfl)
        · simp only [Session.objects, hp, List.mem_cons, List.not_mem_nil, or_false] at ho ⊢
          exact .inr ho
        · simp only [finishFrame, he, hc, hp, if_true, and_self, run_drop_none]
    · refine .freePayload (g := fun b => ⟨some y.advanced, b, .noMatch, none⟩) y hy (fun b => ?_)
        (.done _ _ _ fun _ => rfl)
      simp only [finishFrame, he, hc, if_true, if_false]
  · exact .done (some { y with lastFrameIndex := h.frameIndex }) .noMatch none fun b => by simp only [finishFrame, he]; rfl

theorem acceptFrame_traced {held : List ObjId} (w : Nat) (x : Session) (hx : ∀ o ∈ x.objects, o ∈ held) (extent : Nat)
    (h : Header) (chunk : Bytes) (ts : Word64) (a : AllocPort) :
    AcceptTraced held a (acceptFrame w x extent h chunk ts) := by
  rcases Nat.eq_zero_or_pos (min chunk.length (extent - x.payloadSize)) with hn | hn
  · have hf : acceptFrame w x extent h chunk ts = finishFrame (x.absorb w extent h chunk ts) h :=
      funext fun b => acceptFrame_nothing hn w h ts b
    rw [hf]
    exact finishFrame_traced (x.absorb w extent h chunk ts) hx h a
  · cases hb : x.payload with
    | some buf =>
      have hf := funext fun b => acceptFrame_buffer hn hb w h ts b
      rw [hf]
      refine finishFrame_traced _ (fun o ho => hx o ?_) h a
      simpa [Session.objects, hb] using ho
    | none =>
      cases hg : a.answer 0 with
      | false =>
        refine .request extent (held' := [])
          (g := fun b => ⟨some (x.absorb w extent h chunk ts).advanced, b, .outOfMemory, none⟩) (fun b hs => ?_)
          (.done _ _ _ fun _ => rfl)
        rw [answer_zero, hs.nextAnswer, ← answer_zero] at hg
        rw [acceptFrame_denied hn hb hg]
      | true =>
        refine .request extent (fun b hs => ?_) (finishFrame_traced
          ((x.absorb w extent h chunk ts).store ⟨a.nextObj, extent, []⟩
            (chunk.take (min chunk.length (extent - x.payloadSize)))) (fun _ => id) h _)
        rw [answer_zero, hs.nextAnswer, ← answer_zero] at hg
        rw [acceptFrame_granted hn hb hg, hs.nextObj]

theorem matchFrame_traced {held : List ObjId} (w : Nat) (x : Session) (hx : ∀ o ∈ x.objects, o ∈ held) (extent : Nat)
    (h : Header) (chunk : Bytes) (ts : Word64) (rti : Byte) (a : AllocPort) :
    AcceptTraced held a (matchFrame w x extent h chunk ts rti) := by
  by_cases hne : h.transferId ≠ x.transferId ∨ rti ≠ x.redundantTransportIndex
  · exact .done _ _ _ fun b => matchFrame_other hne w extent chunk ts b
  · obtain ⟨ht, hr⟩ : h.transferId = x.transferId ∧ rti = x.redundantTransportIndex := by tauto
    by_cases hi : h.frameIndex.toNat = x.lastFrameIndex.toNat + 1
    · have hf : matchFrame w x extent h chunk ts rti = acceptFrame w x extent h chunk ts :=
        funext fun b => matchFrame_next ht hr hi w extent chunk ts b
      rw [hf]
      exact acceptFrame_traced w x hx extent h chunk ts a
    · exact .freePayload (g := fun b => ⟨some x.advanced, b, .outOfOrder, none⟩) x hx
        (fun b => matchFrame_outOfSequence ht hr hi w extent chunk ts b) (.done _ _ _ fun _ => rfl)

theorem acceptInSession_traced {held : List ObjId} (w : Nat) (x : Session) (hx : ∀ o ∈ x.objects, o ∈ held)
    (sub : Subscription) (h : Header) (chunk : Bytes) (ts : Word64) (rti : Byte) (a : AllocPort) :
    AcceptTraced held a (acceptInSession w x sub h chunk ts rti) := by
  by_cases hres : restartsToFrame x sub.transferIdTimeout h ts rti = true
  · refine .freePayload x hx (fun b => by rw [acceptInSession, if_pos hres])
      (matchFrame_traced w (x.retargeted h.transferId rti) (fun o ho => hx o ?_) sub.extent h chunk ts rti _)
    simp only [Session.objects, Session_retargeted_payload, Session_retargeted_obj, List.mem_singleton] at ho
    subst ho
    unfold Session.objects
    split <;> exact List.mem_cons_self
  · have hf : acceptInSession w x sub h chunk ts rti = matchFrame w x sub.extent h chunk ts rti :=
      funext fun b => by rw [acceptInSession, if_neg hres]
    rw [hf]
    exact matchFrame_traced w x hx sub.extent h chunk ts rti a

theorem acceptAnonymous_traced (held : List ObjId) (sub : Subscription) (h : Header) (chunk : Bytes) (ts : Word64)
    (a : AllocPort) : AcceptTraced held a (acceptAnonymous sub h chunk ts) := by
  by_cases hbad : chunk.length < 4 ∨ crc32cAdd Config.crc32cSeed chunk ≠ Config.crc32cResidue
  · exact .done none .noMatch none fun b => by rw [acceptAnonymous, if_pos hbad]
  · by_cases hn : min sub.extent (chunk.length - 4) = 0
    · exact .done none .transferComplete (some ⟨metadataOf h .message Config.nodeIdUnset, ts, none, 0⟩)
        fun b => by simp only [acceptAnonymous, if_neg hbad, hn, if_true]
    · cases hg : a.answer 0 with
      | false =>
        refine .request (min sub.extent (chunk.length - 4)) (held' := [])
          (g := fun b => ⟨none, b, .outOfMemory, none⟩) (fun b hs => ?_) (.done _ _ _ fun _ => rfl)
        rw [answer_zero, hs.nextAnswer, ← answer_zero] at hg
        simp only [acceptAnonymous, if_neg hbad, if_neg hn, alloc_denied hg]
        rfl
      | true =>
        refine .request (min sub.extent (chunk.length - 4)) (held' := [a.nextObj]) (fun b hs => ?_)
          (.drop (g := fun b => ⟨none, b, .transferComplete, some ⟨metadataOf h .message Config.nodeIdUnset, ts,
            some ⟨a.nextObj, min sub.extent (chunk.length - 4), memWrite [] 0 (chunk.take (min sub.extent
              (chunk.length - 4)))⟩, min sub.extent (chunk.length - 4)⟩⟩) [a.nextObj] none (fun _ => id) (fun b => rfl)
            (.done _ _ _ fun _ => rfl))
        rw [answer_zero, hs.nextAnswer, ← answer_zero] at hg
        simp only [acceptAnonymous, if_neg hbad, if_neg hn, alloc_granted hg, hs.nextObj, run_drop_none]

theorem mem_objects_of_find {sub : Subscription} {n : Nat} {x : Session} (hx : Map.find n sub.sessions = some x)
    {o : ObjId} (ho : o ∈ x.objects) : o ∈ sub.objects :=
  List.mem_flatMap.2 ⟨_, Map.mem_of_find hx, ho⟩

theorem acceptMatched_traced (sub : Subscription) (h : Header) (chunk : Bytes) (ts : Word64) (rti : Byte) (p : Params)
    (a : AllocPort) : AcceptTraced sub.objects a (acceptMatched sub h chunk ts rti p) := by
  by_cases hs : h.sourceNodeId = 0xFFFF#16
  · have hf : acceptMatched sub h chunk ts rti p = acceptAnonymous sub h chunk ts :=
      funext fun b => by rw [acceptMatched, if_pos hs]
    rw [hf]
    exact acceptAnonymous_traced ..
  · cases hx : Map.find h.sourceNodeId.toNat sub.sessions with
    | some x =>
      have hf := funext fun b => acceptMatched_of_session hs hx chunk ts rti p b
      rw [hf]
      exact acceptInSession_traced p.sizeW x (fun o => mem_objects_of_find hx) sub h chunk ts rti a
    | none =>
      have hf := funext fun b => acceptMatched_of_noSession hs hx chunk ts rti p b
      rw [hf]
      cases hsot : h.sot with
      | false => exact .done none .noMatch none fun b => rfl
      | true =>
        cases hg : a.answer 0 with
        | false =>
          refine .request p.rxSessionSize (held' := []) (g := fun b => ⟨none, b, .outOfMemory, none⟩) (fun b hs => ?_)
            (.done _ _ _ fun _ => rfl)
          rw [answer_zero, hs.nextAnswer, ← answer_zero] at hg
          simp [alloc_denied hg]
        | true =>
          refine .request p.rxSessionSize (fun b hs => ?_) (acceptInSession_traced p.sizeW
            (Session.fresh ts h.transferId rti a.nextObj) (fun _ => id) sub h chunk ts rti _)
          rw [answer_zero, hs.nextAnswer, ← answer_zero] at hg
          simp [alloc_granted hg, hs.nextObj]

end Sys2Proof.Machine
end

section
/-! SUPPORT. The local meaning of every command (R20, R73, R105, R312): `exec_local`, one case per command. The rules of
the whole machine follow from it, not from the commands' definitions. -/

namespace Sys2Proof.Machine

open Sys2Proof

/-! ### What a command does to a machine -/

/-- What a command does: the contexts it writes where it names one, its transactions and its response. -/
structure Change where
  ins : Option Instance
  txq : Option TxQueue
  ops : List PortOp
  response : Response

/-- Nothing but a response. -/
def Change.says (status : Status) (results : Results) : Change := ⟨none, none, [], ⟨status, results⟩⟩

/-- The context file with the named context written. -/
def setNamed {α : Type} (file : List α) : Option Nat → Option α → List α
  | some k, some x => file.set k x
  | some _, none => file
  | none, _ => file

@[simp] theorem setNamed_some {α : Type} (file : List α) (k : Nat) (x : α) :
    setNamed file (some k) (some x) = file.set k x := rfl
@[simp] theorem setNamed_unnamed {α : Type} (file : List α) (x : Option α) : setNamed file none x = file := rfl
@[simp] theorem setNamed_unwritten {α : Type} (file : List α) (k : Option Nat) : setNamed file k none = file := by
  cases k <;> rfl

@[simp] theorem setNamed_length {α : Type} (file : List α) (k : Option Nat) (x : Option α) :
    (setNamed file k x).length = file.length := by
  cases k <;> cases x <;> simp

theorem getElem?_setNamed_of_ne {α : Type} (file : List α) {k : Option Nat} {j : Nat} (h : k ≠ some j) (x : Option α) :
    (setNamed file k x)[j]? = file[j]? := by
  cases k with
  | none => rfl
  | some k =>
    cases x with
    | none => rfl
    | some x => exact List.getElem?_set_ne fun e => h (congrArg some e)

/-- What a named context becomes is decided by what it was and what is written. -/
theorem getElem?_setNamed_congr {α : Type} {file file' : List α} {k : Option Nat} {j : Nat} (h : file[j]? = file'[j]?)
    (x : Option α) : (setNamed file k x)[j]? = (setNamed file' k x)[j]? := by
  cases k with
  | none => exact h
  | some k =>
    cases x with
    | none => exact h
    | some x =>
      have hlt : j < file.length ↔ j < file'.length := by
        rw [← not_iff_not, not_lt, not_lt, ← List.getElem?_eq_none_iff, ← List.getElem?_eq_none_iff, h]
      simp only [setNamed_some, List.getElem?_set, h]
      by_cases hk : k = j
      · subst hk; simp only [hlt, if_true]
      · simp only [if_neg hk]

theorem setNamed_comm {α : Type} (file : List α) {j k : Option Nat} (h : ∀ i ∈ j, k ≠ some i) (x y : Option α) :
    setNamed (setNamed file j x) k y = setNamed (setNamed file k y) j x := by
  cases j with
  | none => rfl
  | some j =>
    cases k with
    | none => rfl
    | some k =>
      cases x with
      | none => simp
      | some x =>
        cases y with
        | none => rfl
        | some y => exact List.set_comm x y fun e => h j rfl (congrArg some e.symm)

/-- The machine after the change of a command. -/
def Change.apply (c : Change) (i : Instr) (s : State) : State :=
  { s with
    ins := setNamed s.ins (namedIns i) c.ins
    txq := setNamed s.txq (namedTxq i) c.txq
    allocPort := runOps c.ops s.allocPort
    response := some c.response }

@[simp] theorem Change.says_apply (status : Status) (results : Results) (i : Instr) (s : State) :
    (Change.says status results).apply i s = s.respond status results := by
  simp [Change.apply, Change.says, State.respond]

/-- The two machines look alike to a command, but for the allocator port. -/
structure SameView (i : Instr) (s s' : State) : Prop where
  ins : ∀ k, namedIns i = some k → s.ins[k]? = s'.ins[k]?
  txq : ∀ q, namedTxq i = some q → s.txq[q]? = s'.txq[q]?
  params : s.params = s'.params
  localAddress : s.localAddress = s'.localAddress

theorem SameView.refl (i : Instr) (s : State) : SameView i s s := ⟨fun _ _ => rfl, fun _ _ => rfl, rfl, rfl⟩

theorem SameView.validIns {i : Instr} {s s' : State} (h : SameView i s s') {k : Nat} (hk : namedIns i = some k) :
    s'.validIns k = s.validIns k := validIns_congr (h.ins k hk).symm

theorem SameView.validTxq {i : Instr} {s s' : State} (h : SameView i s s') {q : Nat} (hq : namedTxq i = some q) :
    s'.validTxq q = s.validTxq q := validTxq_congr (h.txq q hq).symm

/-- `c` is what the command does on `s` and on every machine that looks alike to it: the rules that its own kind of
command sets on it, and the machine after it. -/
structure LocalMeaning (i : Instr) (s : State) (c : Change) : Prop where
  status : c.response.status ∈ statusesOf i
  unchanged : c.response.status = .argumentInvalid → c = .says .argumentInvalid .none
  transmits : (namedTxq i).isSome = true → c.ins = none
  contextless : namedIns i = none → namedTxq i = none → c.ops = []
  drops : NoRequest c.ops → ∀ o ∈ droppedBy c.ops, o ∈ s.objects
  runs : ∀ s', SameView i s s' → (¬NoRequest c.ops → SameSupply s.allocPort s'.allocPort) →
    exec i s' = .next (c.apply i s')

abbrev HasLocalMeaning (i : Instr) (s : State) : Prop := ∃ c, LocalMeaning i s c

/-- A command that only answers. -/
theorem HasLocalMeaning.says {i : Instr} {s : State} {status : Status} {results : Results} (hs : status ∈ statusesOf i)
    (hr : status = .argumentInvalid → results = .none)
    (h : ∀ s', SameView i s s' → exec i s' = .next (s'.respond status results)) :
    HasLocalMeaning i s :=
  ⟨.says status results, hs, fun e => by rw [show status = .argumentInvalid from e, hr e], fun _ => rfl, fun _ _ => rfl,
    fun _ o ho => by simp [Change.says] at ho, fun s' hv _ => by rw [h s' hv, Change.says_apply]⟩

/-- A command that answers `ArgumentInvalid`. -/
theorem HasLocalMeaning.refuses {i : Instr} {s : State} (hs : Status.argumentInvalid ∈ statusesOf i)
    (h : ∀ s', SameView i s s' → exec i s' = .next (s'.raise .argumentInvalid)) : HasLocalMeaning i s :=
  .says hs (fun _ => rfl) h

/-! ### What the contexts hold -/

theorem mem_objects_of_ins {s : State} {k : Nat} {I : Instance} (h : s.ins[k]? = some I) {o : ObjId}
    (ho : o ∈ I.objects) : o ∈ s.objects :=
  List.mem_append_left _ (List.mem_flatMap.2 ⟨I, List.mem_of_getElem? h, ho⟩)

theorem mem_objects_of_txq {s : State} {q : Nat} {Q : TxQueue} (h : s.txq[q]? = some Q) {o : ObjId}
    (ho : o ∈ Q.objects) : o ∈ s.objects :=
  List.mem_append_right _ (List.mem_flatMap.2 ⟨Q, List.mem_of_getElem? h, ho⟩)

/-- The objects of a registry, kind by kind. -/
theorem mem_registry_objects {r : Registry} {o : ObjId} :
    o ∈ r.objects ↔ ∃ k, ∃ e ∈ r.get k, o ∈ e.2.objects := by
  simp only [Registry.objects, List.mem_append, List.mem_flatMap]
  constructor
  · rintro ((h | h) | h)
    exacts [⟨.message, h⟩, ⟨.response, h⟩, ⟨.request, h⟩]
  · rintro ⟨k, h⟩
    cases k with
    | message => exact .inl (.inl h)
    | response => exact .inl (.inr h)
    | request => exact .inr h

theorem mem_objects_of_findSub {s : State} {i : Nat} {I : Instance} (hI : s.validIns i = some I) {k : TransferKind}
    {p : Word16} {sub : Subscription} (hf : I.findSub k p = some sub) {o : ObjId} (ho : o ∈ sub.objects) :
    o ∈ s.objects := by
  obtain ⟨hi, hv⟩ := validIns_eq_some.1 hI
  refine mem_objects_of_ins hi ?_
  rw [Instance.objects, if_pos hv]
  exact mem_registry_objects.2 ⟨k, _, Map.mem_of_find hf, ho⟩

/-! ### Single transactions -/

/-- The frees of a teardown as transactions: none where there are no objects. -/
def teardownOps (objs : List ObjId) : List PortOp :=
  if objs = [] then [] else [.drop objs (some (.freeSet (sortObjs objs)))]

theorem freeSet_eq_runOps (objs : List ObjId) (a : AllocPort) : a.freeSet objs = runOps (teardownOps objs) a := by
  unfold teardownOps AllocPort.freeSet
  split_ifs <;> rfl

theorem droppedBy_teardownOps (objs : List ObjId) : droppedBy (teardownOps objs) = objs := by
  unfold teardownOps
  split_ifs with h
  · simp [h]
  · simp

theorem release_eq_runOps (objs : List ObjId) (a : AllocPort) : a.release objs = runOps [.drop objs none] a := by
  rw [runOps_cons, run_drop_none, runOps_nil]

/-! ### One case per command -/

theorem execInit_local (k : Nat) (s : State) : HasLocalMeaning (.init k) s := by
  cases hI : s.ins[k]? with
  | none => exact .refuses (by simp [statusesOf]) fun s' hv => by simp only [exec, execInit, ← hv.ins k rfl, hI]
  | some old =>
    refine ⟨⟨some .fresh, none, [.drop old.objects none], ⟨.ok, .none⟩⟩, by simp [statusesOf], by simp, by simp [namedTxq],
      by simp [namedIns], fun _ o ho => mem_objects_of_ins hI (by simpa using ho), fun s' hv _ => ?_⟩
    simp only [exec, execInit, ← hv.ins k rfl, hI, release_eq_runOps]
    rfl

theorem execCfgNodeId_local (k : Nat) (n : Word16) (s : State) : HasLocalMeaning (.cfgNodeId k n) s := by
  cases hI : s.validIns k with
  | none =>
    exact .refuses (by simp [statusesOf]) fun s' hv => by simp only [exec, execCfgNodeId, hv.validIns (k := k) rfl, hI]
  | some I =>
    refine ⟨⟨some { I with nodeId := n }, none, [], ⟨.ok, .none⟩⟩, by simp [statusesOf], by simp, by simp [namedTxq],
      by simp, by simp, fun s' hv _ => ?_⟩
    simp only [exec, execCfgNodeId, hv.validIns (k := k) rfl, hI]
    rfl

theorem execTxInit_local (q capacity mtuBytes : Nat) (s : State) :
    HasLocalMeaning (.txInit q capacity mtuBytes) s := by
  cases hQ : s.txq[q]? with
  | none => exact .refuses (by simp [statusesOf]) fun s' hv => by simp only [exec, execTxInit, ← hv.txq q rfl, hQ]
  | some old =>
    refine ⟨⟨none, some ⟨true, capacity, mtuBytes, 0, 0, []⟩, [.drop old.objects none], ⟨.ok, .none⟩⟩,
      by simp [statusesOf], by simp, by simp, by simp [namedTxq],
      fun _ o ho => mem_objects_of_txq hQ (by simpa using ho), fun s' hv _ => ?_⟩
    simp only [exec, execTxInit, ← hv.txq q rfl, hQ, release_eq_runOps]
    rfl

theorem execTxPeek_local (q : Nat) (s : State) : HasLocalMeaning (.txPeek q) s := by
  cases hQ : s.validTxq q with
  | none => exact .refuses (by simp [statusesOf]) fun s' hv => exec_txPeek_of_invalid (by rw [hv.validTxq rfl, hQ])
  | some Q =>
    by_cases hsize : Q.size = 0
    · exact .says (by simp [statusesOf]) (by simp) fun s' hv => exec_txPeek_of_empty (by rw [hv.validTxq rfl, hQ]) hsize
    · cases hitems : Q.items with
      | nil =>
        refine .says (status := .empty) (results := .none) (by simp [statusesOf]) (by simp) fun s' hv => ?_
        simp only [exec, execTxPeek, hv.validTxq (q := q) rfl, hQ, if_neg hsize, hitems]
      | cons m rest =>
        exact .says (by simp [statusesOf]) (by simp) fun s' hv =>
          exec_txPeek_of_cons (by rw [hv.validTxq rfl, hQ]) hsize hitems

theorem execTxPop_local (q id : Nat) (s : State) : HasLocalMeaning (.txPop q id) s := by
  cases hQ : s.validTxq q with
  | none =>
    exact .refuses (by simp [statusesOf]) fun s' hv => by simp only [exec, execTxPop, hv.validTxq (q := q) rfl, hQ]
  | some Q =>
    cases hm : findItem id Q.items with
    | none =>
      refine .says (status := .empty) (results := .none) (by simp [statusesOf]) (by simp) fun s' hv => ?_
      simp only [exec, execTxPop, hv.validTxq (q := q) rfl, hQ, hm]
    | some m =>
      obtain ⟨hq, hv⟩ := validTxq_eq_some.1 hQ
      refine ⟨⟨none, some (Q.withoutItem id), [.drop [m.obj] none], ⟨.ok, .item m⟩⟩, by simp [statusesOf], by simp,
        by simp, by simp [namedTxq], fun _ o ho => ?_, fun s' hv _ => ?_⟩
      · obtain rfl : o = m.obj := by simpa using ho
        refine mem_objects_of_txq hq ?_
        rw [TxQueue.objects, if_pos hv]
        exact List.mem_map_of_mem (findItem_eq_some hm).1
      · simp only [exec, execTxPop, hv.validTxq (q := q) rfl, hQ, hm, release_eq_runOps]
        rfl

theorem execRxSubscribe_local (k : Nat) (kind : BitVec 2) (p : Word16) (extent : Nat) (timeout : Word64) (s : State) :
    HasLocalMeaning (.rxSubscribe k kind p extent timeout) s := by
  cases hI : s.validIns k with
  | none =>
    exact .refuses (by simp [statusesOf]) fun s' hv => by
      simp only [exec, execRxSubscribe, hv.validIns (k := k) rfl, hI]
  | some I =>
    cases hk : kindOf kind with
    | none =>
      exact .refuses (by simp [statusesOf]) fun s' hv => by
        simp only [exec, execRxSubscribe, hv.validIns (k := k) rfl, hI, hk]
    | some tk =>
      by_cases hp : portInRange tk p = false
      · exact .refuses (by simp [statusesOf]) fun s' hv => by
          simp only [exec, execRxSubscribe, hv.validIns (k := k) rfl, hI, hk, if_pos hp]
      · cases hf : I.findSub tk p with
        | some old =>
          refine ⟨⟨some (I.putSub tk p (.fresh p extent timeout)), none, teardownOps old.objects,
            ⟨.replaced, .handle ⟨tk, p⟩⟩⟩, by simp [statusesOf], by simp, by simp [namedTxq], by simp [namedIns],
            fun _ o ho => mem_objects_of_findSub hI hf (by rwa [droppedBy_teardownOps] at ho), fun s' hv _ => ?_⟩
          simp only [exec, execRxSubscribe, hv.validIns (k := k) rfl, hI, hk, if_neg hp, hf, freeSet_eq_runOps]
          rfl
        | none =>
          by_cases hroom : roomFor s.params.maxSubscriptions I.subs = false
          · exact .refuses (by simp [statusesOf]) fun s' hv => by
              simp only [exec, execRxSubscribe, hv.validIns (k := k) rfl, hI, hk, if_neg hp, hf, ← hv.params, if_pos hroom]
          · refine ⟨⟨some (I.putSub tk p (.fresh p extent timeout)), none, [], ⟨.created, .handle ⟨tk, p⟩⟩⟩,
              by simp [statusesOf], by simp, by simp [namedTxq], by simp, by simp, fun s' hv _ => ?_⟩
            simp only [exec, execRxSubscribe, hv.validIns (k := k) rfl, hI, hk, if_neg hp, hf, ← hv.params, if_neg hroom]
            rfl

theorem execRxUnsubscribe_local (k : Nat) (kind : BitVec 2) (p : Word16) (s : State) :
    HasLocalMeaning (.rxUnsubscribe k kind p) s := by
  cases hI : s.validIns k with
  | none =>
    exact .refuses (by simp [statusesOf]) fun s' hv => exec_rxUnsubscribe_of_invalid (by rw [hv.validIns rfl, hI])
  | some I =>
    cases hk : kindOf kind with
    | none => exact .refuses (by simp [statusesOf]) fun s' _ => exec_rxUnsubscribe_of_kind_none hk
    | some tk =>
      cases hf : I.findSub tk p with
      | none =>
        exact .says (by simp [statusesOf]) (by simp) fun s' hv =>
          exec_rxUnsubscribe_of_findSub_none (by rw [hv.validIns rfl, hI]) hk hf
      | some old =>
        refine ⟨⟨some (I.dropSub tk p), none, teardownOps old.objects, ⟨.removed, .none⟩⟩, by simp [statusesOf], by simp,
          by simp [namedTxq], by simp [namedIns],
          fun _ o ho => mem_objects_of_findSub hI hf (by rwa [droppedBy_teardownOps] at ho), fun s' hv _ => ?_⟩
        rw [exec_rxUnsubscribe_of_findSub_some (by rw [hv.validIns rfl, hI]) hk hf, freeSet_eq_runOps]
        rfl

theorem execSpecBuild_local (k : Nat) (priority : Byte) (kind : BitVec 2) (p remote : Word16) (address : Bytes)
    (s : State) : HasLocalMeaning (.specBuild k priority kind p remote address) s := by
  cases hI : s.validIns k with
  | none =>
    exact .refuses (by simp [statusesOf]) fun s' hv => by simp only [exec, execSpecBuild, hv.validIns (k := k) rfl, hI]
  | some I =>
    cases hb : buildSpecifier I.nodeId priority kind p remote address with
    | none =>
      exact .refuses (by simp [statusesOf]) fun s' hv => by
        simp only [exec, execSpecBuild, hv.validIns (k := k) rfl, hI, hb]
    | some r =>
      refine .says (status := .ok) (results := .specifier r.2) (by simp [statusesOf]) (by simp) fun s' hv => ?_
      simp only [exec, execSpecBuild, hv.validIns (k := k) rfl, hI, hb]

theorem exec_hdrEncode_of_zero (p : BitVec 3) (src dst ds : Word16) (tid : Word64) {k : BitVec 31} (hk : k = 0#31)
    (eot : Bool) (s : State) : exec (.hdrEncode p src dst ds tid k eot) s
      = .next (s.respond .ok (.header (Config.headerOfIndexZero p src dst ds tid eot))) := by
  simp only [exec, execHdrEncode, if_pos hk]

theorem exec_hdrEncode_of_ne (p : BitVec 3) (src dst ds : Word16) (tid : Word64) {k : BitVec 31} (hk : k ≠ 0#31)
    (eot : Bool) (s : State) : exec (.hdrEncode p src dst ds tid k eot) s
      = .next (s.respond .ok (.header (headerBytes p src dst ds tid k eot))) := by
  simp only [exec, execHdrEncode, if_neg hk]

theorem execHdrEncode_local (p : BitVec 3) (src dst ds : Word16) (tid : Word64) (k : BitVec 31) (eot : Bool)
    (s : State) : HasLocalMeaning (.hdrEncode p src dst ds tid k eot) s := by
  by_cases hk : k = 0#31
  · exact .says (by simp [statusesOf]) (by simp) fun s' _ => exec_hdrEncode_of_zero p src dst ds tid hk eot s'
  · exact .says (by simp [statusesOf]) (by simp) fun s' _ => exec_hdrEncode_of_ne p src dst ds tid hk eot s'

theorem execHdrDecode_local (frame : Bytes) (s : State) : HasLocalMeaning (.hdrDecode frame) s := by
  cases hd : decodeFrame s.params.verifyHeaderCrc frame with
  | none =>
    refine .says (status := .rejected) (results := .none) (by simp [statusesOf]) (by simp) fun s' hv => ?_
    simp only [exec, execHdrDecode, ← hv.params, hd]
  | some r =>
    refine .says (status := .ok) (results := .decoded r.1 r.2) (by simp [statusesOf]) (by simp) fun s' hv => ?_
    simp only [exec, execHdrDecode, ← hv.params, hd]

/-- `TX_PUSH` past its builder (R191 to R201). -/
theorem pushTransfer_local {q : Nat} {Q : TxQueue} (k : Nat) (n r : Word16) (sp : Specifier) (deadline : Word64)
    (priority : Byte) (kind : BitVec 2) (p : Word16) (tid : Word64) (payload : Bytes) (s : State)
    (h : ∀ s', SameView (.txPush q k deadline priority kind p r tid payload) s s' →
      exec (.txPush q k deadline priority kind p r tid payload) s'
        = .next (pushTransfer q Q n r sp deadline (priority.setWidth 3) tid payload s')) :
    HasLocalMeaning (.txPush q k deadline priority kind p r tid payload) s := by
  by_cases h1 : Q.mtuBytes ≤ Config.headerSize
  · exact .refuses (by simp [statusesOf]) fun s' hv => by rw [h s' hv, pushTransfer, if_pos h1]
  by_cases h2 : Config.frameIndexMax < frameCount (payload.length + Config.crcSize) (Q.mtuBytes - Config.headerSize)
  · exact .refuses (by simp [statusesOf]) fun s' hv => by rw [h s' hv, pushTransfer, if_neg h1, if_pos h2]
  by_cases h3 : n = Config.nodeIdUnset
      ∧ 1 < frameCount (payload.length + Config.crcSize) (Q.mtuBytes - Config.headerSize)
  · exact .refuses (by simp [statusesOf]) fun s' hv => by rw [h s' hv, pushTransfer, if_neg h1, if_neg h2, if_pos h3]
  by_cases h4 : Q.capacity < Q.size + frameCount (payload.length + Config.crcSize) (Q.mtuBytes - Config.headerSize)
  · exact .says (status := .outOfMemory) (results := .none) (by simp [statusesOf]) (by simp) fun s' hv => by
      rw [h s' hv, pushTransfer, if_neg h1, if_neg h2, if_neg h3, if_pos h4]; rfl
  obtain ⟨objs, ops, hdrop, hops⟩ := allocFrames_traced s.params.txItemOverhead
    (framesOf ⟨priority.setWidth 3, n, r, sp.dataSpecifier, tid⟩ payload (Q.mtuBytes - Config.headerSize)) [] s.allocPort
  have hno : NoRequest ops → ∀ o ∈ droppedBy ops, o ∈ s.objects := fun hn o ho => by cases hdrop hn o ho
  cases objs with
  | none =>
    refine ⟨⟨none, none, ops, ⟨.outOfMemory, .none⟩⟩, by simp [statusesOf], by simp, by simp, by simp [namedTxq], hno,
      fun s' hv hs => ?_⟩
    rw [h s' hv, pushTransfer, if_neg h1, if_neg h2, if_neg h3, if_neg h4]
    simp only [← hv.params, hops _ hs]
    simp only [Change.apply, setNamed_unwritten]
    rfl
  | some objs =>
    refine ⟨⟨none, some (Q.commit (itemsOf (priority.setWidth 3) tid deadline sp Q.nextSeq
      ((framesOf ⟨priority.setWidth 3, n, r, sp.dataSpecifier, tid⟩ payload (Q.mtuBytes - Config.headerSize)).zip objs))),
      ops, ⟨.ok, .framesEnqueued (frameCount (payload.length + Config.crcSize) (Q.mtuBytes - Config.headerSize))⟩⟩,
      by simp [statusesOf], by simp, by simp, by simp [namedTxq], hno, fun s' hv hs => ?_⟩
    rw [h s' hv, pushTransfer, if_neg h1, if_neg h2, if_neg h3, if_neg h4]
    simp only [← hv.params, hops _ hs]
    simp only [Change.apply, setNamed_unwritten]
    rfl

theorem execTxPush_local (q k : Nat) (deadline : Word64) (priority : Byte) (kind : BitVec 2) (p r : Word16)
    (tid : Word64) (payload : Bytes) (s : State) :
    HasLocalMeaning (.txPush q k deadline priority kind p r tid payload) s := by
  cases hQ : s.validTxq q with
  | none =>
    exact .refuses (by simp [statusesOf]) fun s' hv => by simp only [exec, execTxPush, hv.validTxq (q := q) rfl, hQ]
  | some Q =>
    cases hI : s.validIns k with
    | none =>
      exact .refuses (by simp [statusesOf]) fun s' hv => by
        simp only [exec, execTxPush, hv.validTxq (q := q) rfl, hQ, hv.validIns (k := k) rfl, hI]
    | some I =>
      cases hb : buildSpecifier I.nodeId priority kind p r s.localAddress with
      | none =>
        exact .refuses (by simp [statusesOf]) fun s' hv => by
          simp only [exec, execTxPush, hv.validTxq (q := q) rfl, hQ, hv.validIns (k := k) rfl, hI, ← hv.localAddress, hb]
      | some b =>
        refine pushTransfer_local (Q := Q) k I.nodeId r b.2 deadline priority kind p tid payload s fun s' hv => ?_
        exact exec_txPush_of_accepted (k := b.1) (by rw [hv.validTxq rfl, hQ]) (by rw [hv.validIns rfl, hI])
          (by rw [← hv.localAddress, hb]) tid payload

theorem execRxAccept_local (k : Nat) (ts : Word64) (frame : Bytes) (rti : Byte) (s : State) :
    HasLocalMeaning (.rxAccept k ts frame rti) s := by
  cases hI : s.validIns k with
  | none =>
    exact .refuses (by simp [statusesOf]) fun s' hv => by simp only [exec, execRxAccept, hv.validIns (k := k) rfl, hI]
  | some I =>
    cases hd : decodeFrame s.params.verifyHeaderCrc frame with
    | none =>
      refine .says (status := .rejected) (results := .none) (by simp [statusesOf]) (by simp) fun s' hv => ?_
      simp only [exec, execRxAccept, hv.validIns (k := k) rfl, hI, ← hv.params, hd]
    | some b =>
      by_cases ha : addressed I.nodeId b.1 = false
      · refine .says (status := .noMatch) (results := .none) (by simp [statusesOf]) (by simp) fun s' hv => ?_
        simp only [exec, execRxAccept, hv.validIns (k := k) rfl, hI, ← hv.params, hd, if_pos ha]
      · cases hf : I.findSub b.1.kind b.1.portId with
        | none =>
          refine .says (status := .noMatch) (results := .none) (by simp [statusesOf]) (by simp) fun s' hv => ?_
          simp only [exec, execRxAccept, hv.validIns (k := k) rfl, hI, ← hv.params, hd, if_neg ha, hf]
        | some sub =>
          obtain ⟨session, status, transfer, ops, hdrop, hops⟩ :=
            acceptMatched_traced sub b.1 b.2 ts rti s.params s.allocPort
          have hstatus := acceptMatched_status sub b.1 b.2 ts rti s.params s.allocPort
          rw [hops _ fun _ => .refl _] at hstatus
          refine ⟨⟨session.map fun y => I.putSub b.1.kind b.1.portId (sub.putSession b.1.sourceNodeId.toNat y), none, ops,
            ⟨status, resultsWith ⟨b.1.kind, b.1.portId⟩ transfer⟩⟩, ?_, fun e => ?_, by simp [namedTxq],
            by simp [namedIns], fun hn o ho => mem_objects_of_findSub hI hf (hdrop hn o ho), fun s' hv hs => ?_⟩
          · simp only [List.mem_cons, List.not_mem_nil, or_false] at hstatus
            rcases hstatus with h | h | h | h <;> simp [statusesOf, h]
          · rw [show status = .argumentInvalid from e] at hstatus
            simp at hstatus
          · have hF : s'.Finds k frame I sub b.1 b.2 :=
              ⟨by rw [hv.validIns rfl, hI], by rw [← hv.params, hd], by simpa using ha, hf⟩
            rw [exec_rxAccept_of_finds hF, ← hv.params, hops _ hs]
            cases session <;> simp only [commitAccepted, Change.apply] <;> rfl

/-- Every command has a local meaning on every machine. -/
theorem exec_local (i : Instr) (s : State) : HasLocalMeaning i s := by
  cases i with
  | init k => exact execInit_local k s
  | cfgNodeId k n => exact execCfgNodeId_local k n s
  | txInit q c m => exact execTxInit_local q c m s
  | txPush q k d pr kd p r tid pl => exact execTxPush_local q k d pr kd p r tid pl s
  | txPeek q => exact execTxPeek_local q s
  | txPop q id => exact execTxPop_local q id s
  | rxSubscribe k kd p e t => exact execRxSubscribe_local k kd p e t s
  | rxUnsubscribe k kd p => exact execRxUnsubscribe_local k kd p s
  | rxAccept k ts f r => exact execRxAccept_local k ts f r s
  | specBuild k pr kd p r ad => exact execSpecBuild_local k pr kd p r ad s
  | hdrEncode p sr ds sp tid k e => exact execHdrEncode_local p sr ds sp tid k e s
  | hdrDecode f => exact execHdrDecode_local f s
  | crc32cAdd => exact .says (by simp [statusesOf]) (by simp) fun _ _ => rfl
  | crc32cFin => exact .says (by simp [statusesOf]) (by simp) fun _ _ => rfl
  | crc32c => exact .says (by simp [statusesOf]) (by simp) fun _ _ => rfl
  | crc16Add => exact .says (by simp [statusesOf]) (by simp) fun _ _ => rfl
  | crc16 => exact .says (by simp [statusesOf]) (by simp) fun _ _ => rfl

/-! ### The rules of the whole machine -/

theorem LocalMeaning.exec_eq {i : Instr} {s : State} {c : Change} (h : LocalMeaning i s c) :
    exec i s = .next (c.apply i s) := h.runs s (.refl i s) fun _ => .refl _

/-- The machine after a command, by the command's local meaning. -/
theorem exec_next {i : Instr} {s t : State} (h : exec i s = .next t) : ∃ c, LocalMeaning i s c ∧ t = c.apply i s := by
  obtain ⟨c, hc⟩ := exec_local i s
  rw [hc.exec_eq] at h
  cases h
  exact ⟨c, hc, rfl⟩

/-- Settles O9: the local meaning answers a listed status. -/
theorem everyCommandAnswersAListedStatus : Obligations.EveryCommandAnswersAListedStatus := by
  intro i s
  obtain ⟨c, hc⟩ := exec_local i s
  exact ⟨_, c.response, hc.exec_eq, rfl, hc.status⟩

/-- Settles O10: with `ArgumentInvalid` the local meaning is the response alone. -/
theorem argumentInvalidChangesNothing : Obligations.ArgumentInvalidChangesNothing := by
  intro i s t h hstatus
  obtain ⟨c, hc, rfl⟩ := exec_next h
  rw [hc.unchanged (Option.some.inj hstatus), Change.says_apply]
  rfl

/-- Settles O11: a change writes the named contexts, the allocator port and the response. -/
theorem commandTouchesOnlyNamedContexts : Obligations.CommandTouchesOnlyNamedContexts := by
  intro i s t h
  obtain ⟨c, hc, rfl⟩ := exec_next h
  refine ⟨fun k hk => getElem?_setNamed_of_ne _ hk _, fun q hq => getElem?_setNamed_of_ne _ hq _, setNamed_length ..,
    setNamed_length .., rfl, rfl, rfl, fun hq => ?_, fun ⟨hi, hq⟩ => ?_⟩
  · simp [Change.apply, hc.transmits hq]
  · simp [Change.apply, hi, hq, hc.contextless hi hq]

/-- Settles O13: the two machines look alike to the command, so one local meaning serves both. -/
theorem outcomeDependsOnNamedContextsOnly : Obligations.OutcomeDependsOnNamedContextsOnly := by
  intro i s₁ s₂ t₁ t₂ hins htxq hport hparams haddress h₁ h₂
  obtain ⟨c, hc, rfl⟩ := exec_next h₁
  rw [hc.runs s₂ ⟨hins, htxq, hparams, haddress⟩ fun _ => hport ▸ .refl _] at h₂
  cases h₂
  exact ⟨rfl, congrArg (runOps c.ops) hport, fun k hk => getElem?_setNamed_congr (hins k hk) _,
    fun q hq => getElem?_setNamed_congr (htxq q hq) _⟩

end Sys2Proof.Machine
end

section
/-! SUPPORT. Commands on disjoint contexts (R73). The idea: a command that requests nothing only drops objects that the
contexts hold and adds events to the transcript. Objects held are older than any that a request creates, so such a drop
passes every transaction of the other command. -/

namespace Sys2Proof.Machine

open Sys2Proof

theorem alloc_requests (n : Nat) (a : AllocPort) : (a.alloc n).2.requests = a.requests + 1 := by
  unfold AllocPort.alloc
  split <;> rfl

theorem requests_le_runOps (ops : List PortOp) (a : AllocPort) : a.requests ≤ (runOps ops a).requests := by
  induction ops generalizing a with
  | nil => exact le_rfl
  | cons op ops ih =>
    refine le_trans ?_ (ih _)
    cases op with
    | request n => exact (alloc_requests n a).symm ▸ Nat.le_succ _
    | drop objs e => exact le_rfl

/-- Where the number of requests is unchanged, none was made. -/
theorem noRequest_of_requests_eq {ops : List PortOp} {a : AllocPort} (h : (runOps ops a).requests = a.requests) :
    NoRequest ops := by
  induction ops generalizing a with
  | nil => simp [NoRequest]
  | cons op ops ih =>
    rw [runOps_cons] at h
    have hle := requests_le_runOps ops (op.run a)
    cases op with
    | request n =>
      rw [h, PortOp.run, alloc_requests] at hle
      omega
    | drop objs e =>
      intro n hn
      exact ih h n (by simpa using hn)

/-- The port with these objects gone from the ledger and this transcript. -/
def AllocPort.without (a : AllocPort) (objs : List ObjId) (log : List AllocEvent) : AllocPort :=
  { a with ledger := a.ledger.filter (fun o => decide (o ∉ objs)), log := log }

/-- All that transactions without a request do. -/
theorem runOps_of_noRequest {ops : List PortOp} (h : NoRequest ops) :
    ∃ events, ∀ a, runOps ops a = a.without (droppedBy ops) (a.log ++ events) := by
  induction ops with
  | nil => exact ⟨[], fun a => by simp [AllocPort.without]⟩
  | cons op ops ih =>
    obtain ⟨events, ih⟩ := ih fun n hn => h n (List.mem_cons_of_mem _ hn)
    cases op with
    | request n => exact absurd List.mem_cons_self (h n)
    | drop objs e =>
      refine ⟨e.toList ++ events, fun a => ?_⟩
      rw [runOps_cons, ih]
      simp [AllocPort.without, PortOp.run, AllocPort.release, List.filter_filter, Bool.and_comm]

/-- A drop of objects older than the next one passes a transaction. -/
theorem run_without (op : PortOp) {a : AllocPort} {objs : List ObjId} (h : ∀ o ∈ objs, o < a.nextObj) :
    ∃ events, (op.run a).log = a.log ++ events
      ∧ ∀ log, op.run (a.without objs log) = (op.run a).without objs (log ++ events) := by
  cases op with
  | request n =>
    have hnew : a.nextObj ∉ objs := fun hm => lt_irrefl _ (h _ hm)
    cases hg : a.answer 0 with
    | true =>
      refine ⟨[.alloc n (some a.nextObj)], by rw [PortOp.run, alloc_granted hg], fun log => ?_⟩
      rw [PortOp.run, PortOp.run, alloc_granted hg, alloc_granted (a := a.without objs log) hg]
      simp [AllocPort.without, hnew]
    | false =>
      refine ⟨[.alloc n none], by rw [PortOp.run, alloc_denied hg], fun log => ?_⟩
      rw [PortOp.run, PortOp.run, alloc_denied hg, alloc_denied (a := a.without objs log) hg]
      simp [AllocPort.without]
  | drop objs' e =>
    refine ⟨e.toList, rfl, fun log => ?_⟩
    simp [AllocPort.without, PortOp.run, AllocPort.release, List.filter_filter, Bool.and_comm]

theorem nextObj_le_run (op : PortOp) (a : AllocPort) : a.nextObj ≤ (op.run a).nextObj := by
  cases op with
  | request n =>
    rw [PortOp.run, AllocPort.alloc]
    split
    · exact Nat.le_succ _
    · exact le_rfl
  | drop objs e => exact le_rfl

/-- A drop of objects older than the next one passes any transactions. -/
theorem runOps_without (ops : List PortOp) {a : AllocPort} {objs : List ObjId} (h : ∀ o ∈ objs, o < a.nextObj) :
    ∃ events, (runOps ops a).log = a.log ++ events
      ∧ ∀ log, runOps ops (a.without objs log) = (runOps ops a).without objs (log ++ events) := by
  induction ops generalizing a with
  | nil => exact ⟨[], by simp, fun log => by simp⟩
  | cons op ops ih =>
    obtain ⟨e₁, hlog₁, hrun₁⟩ := run_without op h
    obtain ⟨e₂, hlog₂, hrun₂⟩ := ih fun o ho => lt_of_lt_of_le (h o ho) (nextObj_le_run op a)
    refine ⟨e₁ ++ e₂, by rw [runOps_cons, hlog₂, hlog₁, List.append_assoc], fun log => ?_⟩
    rw [runOps_cons, hrun₁, hrun₂, runOps_cons, List.append_assoc]

/-- After a command on other contexts a machine looks as before. -/
theorem SameView.of_disjoint {a b : Instr} (h : disjointContexts a b) (c : Change) (s : State) :
    SameView b s (c.apply a s) where
  ins k hk := (getElem?_setNamed_of_ne _ (fun e => h.1 k e hk) _).symm
  txq q hq := (getElem?_setNamed_of_ne _ (fun e => h.2 q e hq) _).symm
  params := rfl
  localAddress := rfl

theorem disjointContexts.symm {a b : Instr} (h : disjointContexts a b) : disjointContexts b a :=
  ⟨fun i hb ha => h.1 i ha hb, fun q hb ha => h.2 q ha hb⟩

/-- Settles O12: the contexts written are distinct; the command `b` that requests nothing runs alike on any port, and what
it drops passes the transactions of `a`. -/
theorem disjointCommandsCommute : Obligations.DisjointCommandsCommute := by
  intro a b s sa sb hdis hold ha hb hreq
  obtain ⟨ca, hca, rfl⟩ := exec_next ha
  obtain ⟨cb, hcb, rfl⟩ := exec_next hb
  have hno : NoRequest cb.ops := noRequest_of_requests_eq hreq
  obtain ⟨lb, hlb⟩ := runOps_of_noRequest hno
  obtain ⟨la, hla, hpass⟩ := runOps_without ca.ops (a := s.allocPort) fun o ho => hold o (hcb.drops hno o ho)
  have hsupply : SameSupply s.allocPort (cb.apply b s).allocPort := by
    rw [Change.apply, hlb]
    exact ⟨rfl, rfl, rfl⟩
  refine ⟨cb.apply b (ca.apply a s), ca.apply a (cb.apply b s), hcb.runs _ (.of_disjoint hdis ca s) fun h => absurd hno h,
    hca.runs _ (.of_disjoint hdis.symm cb s) fun _ => hsupply, ?_⟩
  have hport : (ca.apply a (cb.apply b s)).allocPort
      = (runOps ca.ops s.allocPort).without (droppedBy cb.ops) (s.allocPort.log ++ lb ++ la) := by
    simp only [Change.apply, hlb, hpass]
  have hport' : (cb.apply b (ca.apply a s)).allocPort
      = (runOps ca.ops s.allocPort).without (droppedBy cb.ops) (s.allocPort.log ++ la ++ lb) := by
    simp only [Change.apply, hlb, hla]
  rw [hport, hport']
  exact ⟨setNamed_comm _ hdis.1 _ _, setNamed_comm _ hdis.2 _ _, rfl, rfl, rfl, rfl, rfl, rfl, la, lb, hla,
    by rw [Change.apply, hlb]; rfl, rfl, rfl⟩

end Sys2Proof.Machine
end

section
/-! SUPPORT. Commands that name no usable context (R103, R344), and the step (R21, R71). -/

namespace Sys2Proof.Machine

open Sys2Proof

/-! ### Context indices -/

/-- A command that needs its receive context valid answers `ArgumentInvalid` where it is not. -/
theorem exec_of_validIns_none {i : Instr} {s : State} {k : Nat} (hn : namedIns i = some k)
    (hc : createsContext i = false) (h : s.validIns k = none) : exec i s = .next (s.raise .argumentInvalid) := by
  cases i with
  | init => cases hc
  | txPush q =>
    cases hn
    cases hq : s.validTxq q <;> simp only [exec, execTxPush, h, hq]
  | cfgNodeId | rxSubscribe | rxUnsubscribe | rxAccept | specBuild =>
    cases hn
    simp only [exec, execCfgNodeId, execRxSubscribe, execRxUnsubscribe, execRxAccept, execSpecBuild, h]
  | txInit | txPeek | txPop | crc32cAdd | crc32cFin | crc32c | crc16Add | crc16 | hdrEncode | hdrDecode => cases hn

/-- A command that needs its queue context valid answers `ArgumentInvalid` where it is not. -/
theorem exec_of_validTxq_none {i : Instr} {s : State} {q : Nat} (hn : namedTxq i = some q)
    (hc : createsContext i = false) (h : s.validTxq q = none) : exec i s = .next (s.raise .argumentInvalid) := by
  cases i with
  | txInit => cases hc
  | txPush | txPeek | txPop =>
    cases hn
    simp only [exec, execTxPush, execTxPeek, execTxPop, h]
  | init | cfgNodeId | rxSubscribe | rxUnsubscribe | rxAccept | specBuild | crc32cAdd | crc32cFin | crc32c | crc16Add
    | crc16 | hdrEncode | hdrDecode => cases hn

theorem exec_init_outOfRange {s : State} {k : Nat} (h : s.ins.length ≤ k) :
    exec (.init k) s = .next (s.raise .argumentInvalid) := by
  simp only [exec, execInit, List.getElem?_eq_none h]

theorem exec_txInit_outOfRange {s : State} {q : Nat} (h : s.txq.length ≤ q) (capacity mtuBytes : Nat) :
    exec (.txInit q capacity mtuBytes) s = .next (s.raise .argumentInvalid) := by
  simp only [exec, execTxInit, List.getElem?_eq_none h]

/-- The two commands that create their context. -/
theorem createsContext_eq_true {i : Instr} (h : createsContext i = true) :
    (∃ k, i = .init k) ∨ ∃ q c m, i = .txInit q c m := by
  cases i with
  | init k => exact .inl ⟨k, rfl⟩
  | txInit q c m => exact .inr ⟨q, c, m, rfl⟩
  | _ => cases h

/-- Settles O7: no context is valid at an index out of range, and the two commands that need none valid look it up. -/
theorem indexOutOfRangeIsArgumentInvalid : Obligations.IndexOutOfRangeIsArgumentInvalid := by
  intro i s h
  cases hc : createsContext i with
  | false =>
    rcases h with ⟨k, hn, hk⟩ | ⟨q, hn, hq⟩
    · exact exec_of_validIns_none hn hc (validIns_outOfRange hk)
    · exact exec_of_validTxq_none hn hc (validTxq_outOfRange hq)
  | true =>
    rcases createsContext_eq_true hc with ⟨k, rfl⟩ | ⟨q, c, m, rfl⟩ <;> rcases h with ⟨j, ⟨⟩, hj⟩ | ⟨j, ⟨⟩, hj⟩
    · exact exec_init_outOfRange hj
    · exact exec_txInit_outOfRange hj c m

/-- Settles O8. -/
theorem invalidContextIsArgumentInvalid : Obligations.InvalidContextIsArgumentInvalid := by
  rintro i s hc (⟨k, I, hn, hI, hv⟩ | ⟨q, Q, hn, hQ, hv⟩)
  · exact exec_of_validIns_none hn hc (validIns_invalid hI hv)
  · exact exec_of_validTxq_none hn hc (validTxq_invalid hQ hv)

/-! ### The step -/

theorem step_of_decoded {s : State} {record rest : Bytes} {later : List Bytes} {i : Instr}
    (hp : s.commandPort = record :: later) (hd : decode record = .ok (i, rest)) :
    step s = exec (received s.params.sizeW i) { s with commandPort := later } := by
  simp only [step, State.takeCommand, hp, hd]

theorem step_of_undecoded {s : State} {record : Bytes} {later : List Bytes} {e : DecodeError}
    (hp : s.commandPort = record :: later) (hd : decode record = .error e) :
    step s = answerUndecoded e { s with commandPort := later } := by
  simp only [step, State.takeCommand, hp, hd]

/-- Settles O5: a command whose sizes fit is received as it is, and the sizes that a command is received with fit. -/
theorem stepRunsTheDecodedCommand : Obligations.StepRunsTheDecodedCommand := by
  refine ⟨fun s record rest later i hp hd hfit => ?_, fun s record rest later q capacity mtuBytes hp hd => ?_,
    fun s record rest later i kind portId extent timeout hp hd => ?_⟩
  · rw [step_of_decoded hp hd, received_of_fits hfit]
  · exact ⟨_, _, sizeOperand_lt .., sizeOperand_lt .., sizeOperand_of_lt, sizeOperand_of_lt, step_of_decoded hp hd⟩
  · exact ⟨_, sizeOperand_lt .., sizeOperand_of_lt, step_of_decoded hp hd⟩

/-- Settles O6: one clause per outcome of taking and decoding a record. -/
theorem stepWithNoCommandToRun : Obligations.StepWithNoCommandToRun := by
  refine ⟨fun s hp => ?_, fun s opcode op operands later hp hd => ?_, fun s record later hp hd => ?_⟩
  · simp only [step, State.takeCommand, hp]
  · rw [step_of_undecoded hp hd]; rfl
  · rw [step_of_undecoded hp hd]; rfl

/-! ### Reset -/

/-- Maps without entries are in canonical form. -/
theorem Registry.wf_empty : Registry.WF ⟨[], [], []⟩ := by simp [Registry.WF, subsWf]

/-- Settles O55: every context is the reset one, which holds nothing. -/
theorem resetMeetsTheInvariants : Obligations.ResetMeetsTheInvariants := by
  have hins : ∀ I ∈ State.reset.ins, I = Instance.reset := fun I h => List.eq_of_mem_replicate h
  have htxq : ∀ Q ∈ State.reset.txq, Q = TxQueue.reset := fun Q h => List.eq_of_mem_replicate h
  have hobjects : State.reset.objects = [] := by
    rw [State.objects, List.append_eq_nil_iff, List.flatMap_eq_nil_iff, List.flatMap_eq_nil_iff]
    exact ⟨fun I h => by rw [hins I h]; rfl, fun Q h => by rw [htxq Q h]; rfl⟩
  refine ⟨List.length_replicate, List.length_replicate, fun I h => by rw [hins I h]; rfl, fun Q h => by rw [htxq Q h]; rfl,
    rfl, rfl, fun I h => ?sessions, ⟨fun I h => ?sizes, fun Q h => ?queueSizes⟩, fun I h => ?registry, fun Q h hv => ?queues,
    ?ledger⟩
  case sessions => rw [hins I h]; simp [Instance.reset]
  case sizes => rw [hins I h]; simp [Instance.reset]
  case queueSizes => rw [htxq Q h]; simp [TxQueue.reset]
  case registry => rw [hins I h]; exact Registry.wf_empty
  case queues => rw [htxq Q h] at hv; cases hv
  case ledger =>
    rw [State.LedgerInv, hobjects]
    exact ⟨.nil, fun o => .rfl, .nil, fun o ho => by cases ho⟩

end Sys2Proof.Machine
end

section
/-! SUPPORT. The CRC engines (R120 to R127, R140 to R143). The idea for the residue: running the register over the bytes
of a word is shifting the sum of register and word (`iterate_crc32cShift_bytes`), and shifting is injective. -/

namespace Sys2Proof.Machine

open Sys2Proof

/-! ### Table and bit-serial forms -/

theorem crc32cAdd_eq_bitwise (acc : Word32) (bytes : Bytes) : crc32cAdd acc bytes = crc32cBitwise acc bytes :=
  congrArg (fun f => bytes.foldl f acc) (funext fun c => funext fun b => crc32cByte_eq c b)

theorem crc16Add_eq_bitwise (acc : Word16) (bytes : Bytes) : crc16Add acc bytes = crc16Bitwise acc bytes :=
  congrArg (fun f => bytes.foldl f acc) (funext fun c => funext fun b => crc16Byte_eq c b)

theorem crc16_eq_bitwise (bytes : Bytes) : crc16 bytes = crc16Bitwise 0xFFFF#16 bytes :=
  crc16Add_eq_bitwise _ bytes

/-- Settles O14. -/
theorem crc32cAddIsBitSerial : Obligations.Crc32cAddIsBitSerial := by
  intro acc bytes s
  rw [← crc32cAdd_eq_bitwise]
  rfl

/-- Settles O16: the accumulator from the seed, its bit-serial form, and the two values. -/
theorem crc32cOfBytes : Obligations.Crc32cOfBytes := by
  refine ⟨fun bytes s => ?_, by decide, by decide +kernel⟩
  rw [← crc32cAdd_eq_bitwise]
  rfl

/-- Settles O17. -/
theorem crc16AddIsBitSerial : Obligations.Crc16AddIsBitSerial := by
  intro acc bytes s
  rw [← crc16Add_eq_bitwise]
  rfl

/-- Settles O18. -/
theorem crc16OfBytes : Obligations.Crc16OfBytes := by
  refine ⟨fun bytes s => ?_, by decide +kernel⟩
  rw [← crc16_eq_bitwise]
  rfl

/-! ### The residue -/

theorem crc32cAdd_append (acc : Word32) (a b : Bytes) : crc32cAdd acc (a ++ b) = crc32cAdd (crc32cAdd acc a) b :=
  List.foldl_append

/-- A word is its low byte and the rest above it. -/
theorem low_xor_high (v : Word32) : v = (BitVec.ofNat 8 v.toNat).setWidth 32 ^^^ ((v >>> 8) <<< 8) := by
  refine BitVec.eq_of_getLsbD_eq fun i hi => ?_
  by_cases h : i < 8
  · simp [h, hi]
  · simp [h, hi, show 8 + (i - 8) = i by omega]

/-- Eight shifts of the sum of register and word: one byte step, and the rest of the word moved down. -/
theorem iterate_crc32cShift_byte (c v : Word32) :
    iterate crc32cShift 8 (c ^^^ v) = crc32cByte c (BitVec.ofNat 8 v.toNat) ^^^ (v >>> 8) := by
  have hhigh : iterate crc32cShift 8 ((v >>> 8) <<< 8) = v >>> 8 := by
    rw [iterate_crc32cShift_low fun i hi => by simp [hi]]
    refine BitVec.eq_of_getLsbD_eq fun i hi => ?_
    by_cases h : 8 + i < 32
    · simp [h]
    · simp [h, BitVec.getLsbD_of_ge v (8 + i) (by omega)]
  calc iterate crc32cShift 8 (c ^^^ v)
      = iterate crc32cShift 8 ((c ^^^ (BitVec.ofNat 8 v.toNat).setWidth 32) ^^^ ((v >>> 8) <<< 8)) := by
        rw [BitVec.xor_assoc, ← low_xor_high]
    _ = crc32cByte c (BitVec.ofNat 8 v.toNat) ^^^ (v >>> 8) := by
        rw [iterate_crc32cShift_xor, hhigh, ← crc32cByte_eq]

theorem iterate_crc32cShift_bytes (n : Nat) (c v : Word32) :
    iterate crc32cShift (8 * n) (c ^^^ v) = crc32cAdd c (leBytes n v.toNat) ^^^ (v >>> (8 * n)) := by
  induction n generalizing c v with
  | zero => simp [iterate, leBytes, crc32cAdd]
  | succ n ih =>
    have hnat : (v >>> 8).toNat = v.toNat / 256 := by simp [Nat.shiftRight_eq_div_pow]
    rw [Nat.mul_succ, Nat.add_comm (8 * n) 8, iterate_add, iterate_crc32cShift_byte, ih, hnat, BitVec.shiftRight_add]
    rfl

/-- The register over the bytes of a number that they hold. -/
theorem crc32cAdd_eq_iterate {S : Bytes} (h : S.length ≤ 4) (c : Word32) :
    crc32cAdd c S = iterate crc32cShift (8 * S.length) (c ^^^ BitVec.ofNat 32 (leNat S)) := by
  have hlt := leNat_lt S
  have hle : 256 ^ S.length ≤ 2 ^ 32 := by
    calc 256 ^ S.length ≤ 256 ^ 4 := Nat.pow_le_pow_right (by norm_num) h
      _ = 2 ^ 32 := by norm_num
  have hnat : (BitVec.ofNat 32 (leNat S)).toNat = leNat S := by
    rw [BitVec.toNat_ofNat, Nat.mod_eq_of_lt (lt_of_lt_of_le hlt hle)]
  have hzero : BitVec.ofNat 32 (leNat S) >>> (8 * S.length) = 0#32 := by
    refine BitVec.eq_of_toNat_eq ?_
    rw [BitVec.toNat_ushiftRight, hnat, Nat.shiftRight_eq_div_pow, pow_mul]
    exact Nat.div_eq_of_lt hlt
  rw [iterate_crc32cShift_bytes, hnat, leBytes_leNat, hzero, BitVec.xor_zero]

theorem crc32cResidue_eq_iterate : (0xB798B438#32 : Word32) = iterate crc32cShift 32 0xFFFFFFFF#32 := by decide +kernel

/-- The residue is reached from a register just by the four bytes of its complement. -/
theorem crc32cAdd_eq_residue_iff {T : Bytes} (h : T.length = 4) (c : Word32) :
    crc32cAdd c T = 0xB798B438#32 ↔ BitVec.ofNat 32 (leNat T) = crc32cFin c := by
  rw [crc32cAdd_eq_iterate h.le, h, crc32cResidue_eq_iterate]
  constructor
  · intro e
    rw [crc32cFin, Config.crc32cXorOut, ← iterate_crc32cShift_injective e, ← BitVec.xor_assoc, BitVec.xor_self,
      BitVec.zero_xor]
  · intro e
    rw [e, crc32cFin, ← BitVec.xor_assoc, BitVec.xor_self, BitVec.zero_xor]

theorem crc32cAdd_trailer (P : Bytes) :
    crc32cAdd 0xFFFFFFFF#32 (P ++ le32Bytes (crc32c P)) = 0xB798B438#32 := by
  rw [crc32cAdd_append, crc32cAdd_eq_residue_iff (le32Bytes_length _)]
  exact ofNat_leNat_leBytes 4 _ (by norm_num)

/-- Settles O19: the last four bytes bring the register to the residue just when they are its complement. -/
theorem streamPassesIffTrailerMatches : Obligations.StreamPassesIffTrailerMatches := by
  refine ⟨crc32cAdd_trailer, fun S hS => ?_⟩
  have hlen : (S.drop (S.length - 4)).length = 4 := by rw [List.length_drop]; omega
  have hslice : slice S (S.length - 4) 4 = S.drop (S.length - 4) := List.take_of_length_le hlen.le
  conv_lhs => rw [← List.take_append_drop (S.length - 4) S, crc32cAdd_append, crc32cAdd_eq_residue_iff hlen]
  rw [le32At, hslice]
  rfl

/-- Settles O20: undoing the shifts of the residue, no register that `n` bytes could have made is left. -/
theorem noShortStreamPasses : Obligations.NoShortStreamPasses := by
  intro S hS h
  have hlt := leNat_lt S
  have hsplit : iterate crc32cShift 32 0xFFFFFFFF#32
      = iterate crc32cShift (8 * S.length) (iterate crc32cShift (32 - 8 * S.length) 0xFFFFFFFF#32) := by
    rw [← iterate_add]
    congr 1
    omega
  rw [crc32cAdd_eq_iterate (by omega), crc32cResidue_eq_iterate, hsplit] at h
  have hsum : BitVec.ofNat 32 (leNat S) = 0xFFFFFFFF#32 ^^^ iterate crc32cShift (32 - 8 * S.length) 0xFFFFFFFF#32 := by
    rw [← iterate_crc32cShift_injective h, ← BitVec.xor_assoc, BitVec.xor_self, BitVec.zero_xor]
  have hsum := congrArg BitVec.toNat hsum
  have hbound : ∀ n < 4, 256 ^ n ≤ (0xFFFFFFFF#32 ^^^ iterate crc32cShift (32 - 8 * n) 0xFFFFFFFF#32).toNat := by
    decide +kernel
  have := hbound S.length hS
  rw [← hsum, BitVec.toNat_ofNat] at this
  exact absurd (lt_of_le_of_lt (this.trans (Nat.mod_le _ _)) hlt) (lt_irrefl _)

end Sys2Proof.Machine
end

section
/-! SUPPORT. The header codec and the frames of a transfer (R171 to R179, R193 to R197). The idea: a frame that begins with
an encoded header reads back as one known header (`Header.ofOperands`), whatever follows. -/

namespace Sys2Proof.Machine

open Sys2Proof

/-! ### The header of encoded operands -/

/-- The header that stands in the bytes of `HDR_ENCODE`'s operands (R171, R175). -/
def Header.ofOperands (p : BitVec 3) (src dst ds : Word16) (tid : Word64) (k : BitVec 31) (eot : Bool) : Header :=
  { version := 1#8, priority := p.setWidth 8, sourceNodeId := src, destinationNodeId := dst, dataSpecifier := ds,
    transferId := tid, frameIndex := k, eot := eot, headerCrc := crc16 (headerBody p src dst ds tid k eot),
    sot := decide (k = 1#31), kind := kindOfSpecifier ds, portId := portOfSpecifier ds }

theorem indexWord_setWidth (k : BitVec 31) (eot : Bool) : (indexWord k eot).setWidth 31 = k := by
  have hk := k.isLt
  refine BitVec.eq_of_toNat_eq ?_
  rw [BitVec.toNat_setWidth, indexWord_toNat]
  split <;> omega

/-- Bit 31 of the index word, on numbers (R87). -/
theorem getLsbD_31_iff (w : Word32) : w.getLsbD 31 = true ↔ 2 ^ 31 ≤ w.toNat := by
  have hmsb : w.msb = w.getLsbD 31 := BitVec.msb_eq_getLsbD_last w
  rw [← hmsb, BitVec.msb_eq_true_iff_two_mul_ge]
  omega

theorem indexWord_getLsbD_31 (k : BitVec 31) (eot : Bool) : (indexWord k eot).getLsbD 31 = eot := by
  have hk := k.isLt
  have h := getLsbD_31_iff (indexWord k eot)
  rw [indexWord_toNat] at h
  cases eot with
  | true => exact h.2 (by simp)
  | false =>
    refine Bool.eq_false_iff.2 fun e => ?_
    have := h.1 e
    simp only [Bool.false_eq_true, if_false] at this
    omega

section
variable (p : BitVec 3) (src dst ds : Word16) (tid : Word64) (k : BitVec 31) (eot : Bool) (chunk : Bytes)

theorem headerOf_headerBytes :
    headerOf (headerBytes p src dst ds tid k eot ++ chunk) = .ofOperands p src dst ds tid k eot := by
  obtain ⟨hversion, hpriority, hsource, hdestination, hspecifier, htransfer, hindex, -, -, hcrc⟩ :=
    headerFields p src dst ds tid k eot chunk
  simp only [headerOf, hversion, hpriority, hsource, hdestination, hspecifier, htransfer, hindex, hcrc,
    indexWord_setWidth, indexWord_getLsbD_31, Header.ofOperands]

theorem take_headerBytes : (headerBytes p src dst ds tid k eot).take 22 = headerBody p src dst ds tid k eot := by
  rw [headerBytes, List.take_left' (headerBody_length ..)]

theorem take_headerBytes_append :
    (headerBytes p src dst ds tid k eot ++ chunk).take 22 = headerBody p src dst ds tid k eot := by
  rw [List.take_append_of_le_length (by simp), take_headerBytes]

variable {p src dst ds tid k eot}

/-- The header codec's round trip (R179), with the decoded header written out. -/
theorem decodeFrame_headerBytes (verify : Bool) (hk : 1 ≤ k.toNat)
    (hsrc : src = 0xFFFF#16 → k.toNat = 1 ∧ eot = true ∧ kindOfSpecifier ds = .message) :
    decodeFrame verify (headerBytes p src dst ds tid k eot ++ chunk) = some (.ofOperands p src dst ds tid k eot, chunk) := by
  refine decodeFrame_some.2 ⟨by simp, headerFieldsValid_iff.2 ⟨rfl, ?priority, hk, fun h => ?anonymous⟩,
    headerCrcValid_iff.2 fun _ => ?crc, (headerOf_headerBytes ..).symm, ?chunk⟩
  case priority =>
    have := p.isLt
    simp only [Header.ofOperands, BitVec.toNat_setWidth]
    omega
  case anonymous =>
    obtain ⟨h1, heot, hkind⟩ := hsrc h
    exact ⟨decide_eq_true (BitVec.eq_of_toNat_eq h1), heot, hkind⟩
  case crc => exact congrArg crc16 (take_headerBytes_append ..).symm
  case chunk => exact (List.drop_left' (headerBytes_length ..)).symm

end

/-- Settles O26. -/
theorem headerRoundTrip : Obligations.HeaderRoundTrip := by
  intro verify p src dst ds tid k eot chunk hk hsrc
  exact ⟨_, decodeFrame_headerBytes chunk verify hk hsrc, rfl, rfl, rfl, rfl, rfl, rfl, rfl,
    congrArg crc16 (take_headerBytes ..).symm⟩

/-- Settles O23: the fields of an encoded header with no bytes after it. -/
theorem hdrEncodeLaysOutTheHeader : Obligations.HdrEncodeLaysOutTheHeader := by
  refine ⟨by decide +kernel, fun p src dst ds tid k eot s hk => ?_⟩
  have hne : k ≠ 0#31 := by rintro rfl; simp at hk
  have hfields := headerFields p src dst ds tid k eot []
  rw [List.append_nil] at hfields
  exact ⟨_, exec_hdrEncode_of_ne p src dst ds tid hne eot s, headerBytes_length .., hfields.version, hfields.priority,
    hfields.source, hfields.destination, hfields.dataSpecifier, hfields.transferId,
    by rw [hfields.index, indexWord_toNat], hfields.reserved0, hfields.reserved1,
    by rw [hfields.headerCrc, take_headerBytes, crc16_eq_bitwise]⟩

/-- Settles O24. -/
theorem hdrEncodeOfIndexZeroCompletes : Obligations.HdrEncodeOfIndexZeroCompletes :=
  fun p src dst ds tid eot s => ⟨_, exec_hdrEncode_of_zero p src dst ds tid rfl eot s⟩

/-! ### The decoder -/

/-- The validity list of R176 for a frame, its header's fields at their offsets. -/
abbrev frameValid (verify : Bool) (frame : Bytes) : Prop :=
  24 ≤ frame.length ∧ (headerOf frame).version = 1#8 ∧ (headerOf frame).priority.toNat ≤ 7
    ∧ 1 ≤ (headerOf frame).frameIndex.toNat
    ∧ ((headerOf frame).sourceNodeId = 0xFFFF#16 →
        (headerOf frame).sot = true ∧ (headerOf frame).eot = true ∧ (headerOf frame).kind = .message)
    ∧ (verify = true → (headerOf frame).headerCrc = crc16Bitwise 0xFFFF#16 (frame.take 22))

theorem decodeFrame_of_valid {verify : Bool} {frame : Bytes} (h : frameValid verify frame) :
    decodeFrame verify frame = some (headerOf frame, frame.drop 24) := by
  obtain ⟨hlen, hversion, hpriority, hindex, hsource, hcrc⟩ := h
  exact decodeFrame_some.2 ⟨hlen, headerFieldsValid_iff.2 ⟨hversion, hpriority, hindex, hsource⟩,
    headerCrcValid_iff.2 fun hv => (hcrc hv).trans (crc16_eq_bitwise _).symm, rfl, rfl⟩

theorem decodeFrame_of_not_valid {verify : Bool} {frame : Bytes} (h : ¬frameValid verify frame) :
    decodeFrame verify frame = none := by
  refine Option.eq_none_iff_forall_ne_some.2 fun r hr => h ?_
  obtain ⟨hlen, hfields, hcrc, hheader, -⟩ := decodeFrame_some.1 hr
  rw [hheader] at hfields hcrc
  obtain ⟨hversion, hpriority, hindex, hsource⟩ := headerFieldsValid_iff.1 hfields
  exact ⟨hlen, hversion, hpriority, hindex, hsource,
    fun hv => (headerCrcValid_iff.1 hcrc hv).trans (crc16_eq_bitwise _)⟩

/-- Settles O25: the fields at their offsets, and the decoder's answer on either side of the validity list. -/
theorem hdrDecodeResult : Obligations.HdrDecodeResult := by
  intro frame s
  refine ⟨headerOf frame, rfl, rfl, rfl, rfl, rfl, rfl, BitVec.toNat_setWidth .., getLsbD_31_iff _, rfl, ?sot, rfl, rfl,
    fun hvalid => ?valid, fun hinvalid => ?invalid⟩
  case sot =>
    exact decide_eq_true_iff.trans BitVec.toNat_inj.symm
  case valid =>
    simp only [exec, execHdrDecode, decodeFrame_of_valid (verify := s.params.verifyHeaderCrc) hvalid]
    rfl
  case invalid =>
    simp only [exec, execHdrDecode, decodeFrame_of_not_valid (verify := s.params.verifyHeaderCrc) hinvalid]
    rfl

/-! ### Bytes 20 to 23 -/

theorem slice_append_left {a b : Bytes} {k n : Nat} (h : k + n ≤ a.length) : slice (a ++ b) k n = slice a k n := by
  rw [slice, slice, List.drop_append_of_le_length (by omega), List.take_append_of_le_length (by simp; omega)]

/-- A header but for its stored CRC. -/
def Header.withoutCrc (h : Header) : Header := { h with headerCrc := 0#16 }

theorem headerFieldsValid_withoutCrc (h : Header) : headerFieldsValid h.withoutCrc = headerFieldsValid h := rfl

/-- All fields but the stored CRC stand in the first 20 bytes. -/
theorem withoutCrc_headerOf_append {a b : Bytes} (ha : a.length = 20) :
    (headerOf (a ++ b)).withoutCrc = (headerOf a).withoutCrc := by
  have h16 : ∀ k, k + 2 ≤ 20 → le16At (a ++ b) k = le16At a k := fun k hk => by
    rw [le16At, le16At, slice_append_left (by omega)]
  have hversion : (a ++ b).getD 0 0#8 = a.getD 0 0#8 := List.getD_append _ _ _ _ (by omega)
  have hpriority : (a ++ b).getD 1 0#8 = a.getD 1 0#8 := List.getD_append _ _ _ _ (by omega)
  have htransfer : le64At (a ++ b) 8 = le64At a 8 := by rw [le64At, le64At, slice_append_left (by omega)]
  have hindex : le32At (a ++ b) 16 = le32At a 16 := by rw [le32At, le32At, slice_append_left (by omega)]
  simp only [Header.withoutCrc, headerOf, hversion, hpriority, htransfer, hindex, h16 2 (by norm_num), h16 4 (by norm_num),
    h16 6 (by norm_num)]

/-- Without header verification a frame decodes, but for the stored CRC, by its first 20 bytes and those from 24 on. -/
theorem decodeFrame_unverified {a x c : Bytes} (ha : a.length = 20) (hx : x.length = 4) :
    (decodeFrame false (a ++ x ++ c)).map (fun r => (r.1.withoutCrc, r.2)) =
      if headerFieldsValid (headerOf a) = true then some ((headerOf a).withoutCrc, c) else none := by
  have hheader : (headerOf (a ++ x ++ c)).withoutCrc = (headerOf a).withoutCrc := by
    rw [List.append_assoc, withoutCrc_headerOf_append ha]
  have hfields : headerFieldsValid (headerOf (a ++ x ++ c)) = headerFieldsValid (headerOf a) := by
    rw [← headerFieldsValid_withoutCrc, hheader, headerFieldsValid_withoutCrc]
  have hlen : ¬(a ++ x ++ c).length < 24 := by simp only [List.length_append, ha, hx]; omega
  have hdrop : (a ++ x ++ c).drop 24 = c := List.drop_left' (by simp [ha, hx])
  rw [decodeFrame, if_neg hlen, headerCrcValid, hfields]
  cases hv : headerFieldsValid (headerOf a) with
  | false => simp
  | true => simp only [Bool.not_false, Bool.or_true, Bool.and_self, Bool.true_eq_false, if_true, if_false,
      Option.map_some, hheader, Config.headerSize, hdrop]

/-- Settles O27. -/
theorem reservedAndHeaderCrcAreIgnored : Obligations.ReservedAndHeaderCrcAreIgnored := by
  intro a x y c ha hx hy
  exact (decodeFrame_unverified ha hx).trans (decodeFrame_unverified ha hy).symm

/-! ### Chunks -/

/-- The first `m` chunks are the first `m * C` bytes. -/
theorem flatten_chunks (S : Bytes) (C m : Nat) :
    ((List.range m).map (fun j => chunkAt S C (j + 1))).flatten = S.take (m * C) := by
  induction m with
  | zero => simp
  | succ m ih =>
    rw [List.range_succ, List.map_append, List.flatten_append, ih, Nat.succ_mul, List.take_add]
    simp [chunkAt, slice]

/-- There is one frame just when the stream fits it (R193). -/
theorem frameCount_eq_one_iff {L C : Nat} (hC : 0 < C) (hL : 0 < L) : frameCount L C = 1 ↔ L ≤ C := by
  have hend := frameCount_end (L := L) hC
  constructor
  · intro h
    rwa [h, one_mul] at hend
  · intro h
    by_contra hne
    have := frameCount_start (L := L) (k := 2) hC (by norm_num) (by have := frameCount_pos hC hL; omega)
    omega

/-- Settles O36: the chunks are consecutive pieces, all but the last one whole. -/
theorem chunksAreTheStream : Obligations.ChunksAreTheStream := by
  intro S C hC hS
  have hend := frameCount_end (L := S.length) hC
  have hlast := frameCount_start (L := S.length) hC (frameCount_pos hC hS) le_rfl
  refine ⟨by rw [flatten_chunks, List.take_of_length_le hend], fun j hj => ?_, ?_, ?_, frameCount_eq_one_iff hC hS⟩
  · have hstart := frameCount_start (L := S.length) (k := j + 2) hC (by omega) (by omega)
    rw [show j + 2 - 1 = j + 1 by omega, Nat.succ_mul] at hstart
    rw [chunkAt_length, Nat.add_sub_cancel]
    omega
  · rw [chunkAt_length]; omega
  · rw [chunkAt_length]; omega

/-! ### Frames -/

/-- The header of frame `k` of `n` (R197). -/
abbrev FrameFields.header (f : FrameFields) (n k : Nat) : Header :=
  .ofOperands f.priority f.source f.destination f.dataSpecifier f.transferId (BitVec.ofNat 31 k) (decide (k = n))

theorem toNat_frameIndex {n k : Nat} (hk : k ≤ n) (hn : n ≤ 2 ^ 31 - 1) : (BitVec.ofNat 31 k).toNat = k := by
  rw [BitVec.toNat_ofNat, Nat.mod_eq_of_lt (by omega)]

theorem decodeFrame_frameAt (verify : Bool) (f : FrameFields) (S : Bytes) (C : Nat) {n k : Nat} (h1 : 1 ≤ k) (hk : k ≤ n)
    (hn : n ≤ 2 ^ 31 - 1) (hsrc : f.source = 0xFFFF#16 → n = 1 ∧ kindOfSpecifier f.dataSpecifier = .message) :
    decodeFrame verify (frameAt f S C n k) = some (f.header n k, chunkAt S C k) := by
  have hindex := toNat_frameIndex hk hn
  refine decodeFrame_headerBytes _ verify (by rw [hindex]; exact h1) fun h => ?_
  obtain ⟨hone, hkind⟩ := hsrc h
  rw [hindex]
  exact ⟨by omega, decide_eq_true (by omega), hkind⟩

theorem framesOf_getElem? (f : FrameFields) (payload : Bytes) (C : Nat) {j : Nat}
    (hj : j < frameCount (payload.length + 4) C) :
    (framesOf f payload C)[j]?
      = some (frameAt f (streamOf payload) C (frameCount (payload.length + 4) C) (j + 1)) := by
  simp [framesOf, streamOf_length, hj]

/-- Settles O37. -/
theorem framesCarryTheTransfer : Obligations.FramesCarryTheTransfer := by
  intro verify f payload C k _ h1 hk hn hsrc
  have hget := framesOf_getElem? f payload C (j := k - 1) (by omega)
  rw [Nat.sub_add_cancel h1] at hget
  exact ⟨_, _, hget, decodeFrame_frameAt verify f (streamOf payload) C h1 hk hn hsrc, rfl, rfl, rfl, rfl, rfl,
    toNat_frameIndex hk hn, decide_eq_true_iff⟩

end Sys2Proof.Machine
end

section
/-! SUPPORT. The receive context, the registry and the specifier builder (R156, R241 to R251). -/

namespace Sys2Proof.Machine

open Sys2Proof

/-! ### `INIT`, `CFG_NODE_ID`, `TX_INIT` -/

/-- Settles O28. -/
theorem initResult : Obligations.InitResult := by
  intro i s old h
  simp only [exec, execInit, h]
  rfl

/-- Settles O29. -/
theorem cfgNodeIdResult : Obligations.CfgNodeIdResult := by
  intro i n s I hI hv
  simp only [exec, execCfgNodeId, validIns_eq_some.2 ⟨hI, hv⟩]
  rfl

/-- Settles O35. -/
theorem txInitResult : Obligations.TxInitResult := by
  intro q capacity mtu s old h
  simp only [exec, execTxInit, h]
  rfl

/-! ### The specifier builder -/

/-- The argument errors of the builder (R156 to R158), kind by kind. -/
abbrev BadSpecifier (nodeId : Word16) (priority : Byte) (kind : BitVec 2) (p remote : Word16) : Prop :=
  kind = 3#2 ∨ 7 < priority.toNat ∨ (kind = 0#2 ∧ (32767 < p.toNat ∨ remote ≠ 0xFFFF#16))
    ∨ ((kind = 1#2 ∨ kind = 2#2) ∧ (16383 < p.toNat ∨ remote = 0xFFFF#16 ∨ nodeId = 0xFFFF#16))

theorem buildSpecifier_none_iff_of_kind {nodeId : Word16} {priority : Byte} {kind : BitVec 2} {p remote : Word16}
    {address : Bytes} {k : TransferKind} (hk : kindOf kind = some k) :
    buildSpecifier nodeId priority kind p remote address = none ↔
      ¬(priority.toNat ≤ 7 ∧ portInRange k p = true ∧ nodesSuitKind nodeId k remote = true) := by
  constructor
  · rintro hnone ⟨hprio, hport, hnodes⟩
    rw [buildSpecifier_some.2 ⟨hk, hprio, hport, hnodes, rfl⟩] at hnone
    cases hnone
  · intro hbad
    refine Option.eq_none_iff_forall_ne_some.2 fun r hr => hbad ?_
    obtain ⟨hk', hprio, hport, hnodes, -⟩ := buildSpecifier_some.1 hr
    obtain rfl : r.1 = k := Option.some.inj (hk'.symm.trans hk)
    exact ⟨hprio, hport, hnodes⟩

theorem buildSpecifier_none_iff {nodeId : Word16} {priority : Byte} {kind : BitVec 2} {p remote : Word16}
    {address : Bytes} :
    buildSpecifier nodeId priority kind p remote address = none ↔ BadSpecifier nodeId priority kind p remote := by
  cases hk : kindOf kind with
  | none =>
    refine iff_of_true ?_ (.inl (kindOf_none.1 hk))
    rw [buildSpecifier, hk]
  | some k =>
    rw [buildSpecifier_none_iff_of_kind hk, portInRange_iff]
    rcases kindOf_some.1 hk with ⟨rfl, rfl⟩ | ⟨rfl, rfl⟩ | ⟨rfl, rfl⟩
    · simp only [BadSpecifier, nodesSuitKind_message, portIdMax_message]
      grind
    · simp only [BadSpecifier, nodesSuitKind_service (k := .response) nofun, portIdMax_response]
      grind
    · simp only [BadSpecifier, nodesSuitKind_service (k := .request) nofun, portIdMax_request]
      grind

theorem exec_specBuild_of_some {s : State} {i : Nat} {I : Instance} {priority : Byte} {kind : BitVec 2} {k : TransferKind}
    {p remote : Word16} {address : Bytes} {sp : Specifier} (hI : s.validIns i = some I)
    (hb : buildSpecifier I.nodeId priority kind p remote address = some (k, sp)) :
    exec (.specBuild i priority kind p remote address) s = .next (s.respond .ok (.specifier sp)) := by
  simp only [exec, execSpecBuild, hI, hb]

theorem exec_specBuild_of_none {s : State} {i : Nat} {I : Instance} {priority : Byte} {kind : BitVec 2}
    {p remote : Word16} {address : Bytes} (hI : s.validIns i = some I)
    (hb : buildSpecifier I.nodeId priority kind p remote address = none) :
    exec (.specBuild i priority kind p remote address) s = .next (s.raise .argumentInvalid) := by
  simp only [exec, execSpecBuild, hI, hb]

/-- Settles O22: the builder accepts kind by kind, and fails just on its argument errors. -/
theorem specBuildResult : Obligations.SpecBuildResult := by
  refine ⟨fun i priority kind p remote address s I hI => ⟨?message, ?request, ?response, fun hbad => ?refused⟩, rfl⟩
  case message =>
    rintro ⟨hprio, rfl, hport, hremote⟩
    exact exec_specBuild_of_some hI (buildSpecifier_some.2
      ⟨rfl, hprio, portInRange_iff.2 hport, nodesSuitKind_message.2 hremote, rfl⟩)
  case request =>
    rintro ⟨hprio, rfl, hport, hnodes⟩
    exact exec_specBuild_of_some hI (buildSpecifier_some.2
      ⟨rfl, hprio, portInRange_iff.2 hport, (nodesSuitKind_service (by decide)).2 hnodes, rfl⟩)
  case response =>
    rintro ⟨hprio, rfl, hport, hnodes⟩
    exact exec_specBuild_of_some hI (buildSpecifier_some.2
      ⟨rfl, hprio, portInRange_iff.2 hport, (nodesSuitKind_service (by decide)).2 hnodes, rfl⟩)
  case refused => exact exec_specBuild_of_none hI (buildSpecifier_none_iff.2 hbad)

/-! ### `RX_SUBSCRIBE` -/

section
variable {s : State} {i : Nat} {I : Instance} {kind : BitVec 2} {k : TransferKind} {p : Word16} {extent : Nat}
  {timeout : Word64}

theorem exec_rxSubscribe_of_invalid (hI : s.validIns i = none) :
    exec (.rxSubscribe i kind p extent timeout) s = .next (s.raise .argumentInvalid) := by
  simp only [exec, execRxSubscribe, hI]

theorem exec_rxSubscribe_of_kind_none (hI : s.validIns i = some I) (hk : kindOf kind = none) :
    exec (.rxSubscribe i kind p extent timeout) s = .next (s.raise .argumentInvalid) := by
  simp only [exec, execRxSubscribe, hI, hk]

theorem exec_rxSubscribe_of_outOfRange (hI : s.validIns i = some I) (hk : kindOf kind = some k)
    (hp : portInRange k p = false) :
    exec (.rxSubscribe i kind p extent timeout) s = .next (s.raise .argumentInvalid) := by
  simp only [exec, execRxSubscribe, hI, hk, hp, if_true]

theorem exec_rxSubscribe_of_found (hI : s.validIns i = some I) (hk : kindOf kind = some k) (hp : portInRange k p = true)
    {old : Subscription} (hf : I.findSub k p = some old) :
    exec (.rxSubscribe i kind p extent timeout) s = .next (((s.setIns i (I.putSub k p (.fresh p extent timeout))).setAlloc
      (s.allocPort.freeSet old.objects)).respond .replaced (.handle ⟨k, p⟩)) := by
  simp only [exec, execRxSubscribe, hI, hk, hp, hf, Bool.true_eq_false, if_false]

theorem exec_rxSubscribe_of_room (hI : s.validIns i = some I) (hk : kindOf kind = some k) (hp : portInRange k p = true)
    (hf : I.findSub k p = none) (hroom : roomFor s.params.maxSubscriptions I.subs = true) :
    exec (.rxSubscribe i kind p extent timeout) s
      = .next ((s.setIns i (I.putSub k p (.fresh p extent timeout))).respond .created (.handle ⟨k, p⟩)) := by
  simp only [exec, execRxSubscribe, hI, hk, hp, hf, hroom, Bool.true_eq_false, if_false]

theorem exec_rxSubscribe_of_full (hI : s.validIns i = some I) (hk : kindOf kind = some k) (hp : portInRange k p = true)
    (hf : I.findSub k p = none) (hroom : roomFor s.params.maxSubscriptions I.subs = false) :
    exec (.rxSubscribe i kind p extent timeout) s = .next (s.raise .argumentInvalid) := by
  simp only [exec, execRxSubscribe, hI, hk, hp, hf, hroom, Bool.true_eq_false, if_false, if_true]

/-- A subscribe that did not fail has put the new subscription into the valid context it names. -/
theorem exec_rxSubscribe_succeeded {t : State} (hk : kindOf kind = some k)
    (h : exec (.rxSubscribe i kind p extent timeout) s = .next t) (hne : t.status ≠ some .argumentInvalid) :
    ∃ I, s.validIns i = some I ∧ t.ins = s.ins.set i (I.putSub k p (.fresh p extent timeout)) := by
  cases hI : s.validIns i with
  | none =>
    rw [exec_rxSubscribe_of_invalid hI] at h
    cases h
    exact absurd rfl hne
  | some I =>
    refine ⟨I, rfl, ?_⟩
    cases hp : portInRange k p with
    | false =>
      rw [exec_rxSubscribe_of_outOfRange hI hk hp] at h
      cases h
      exact absurd rfl hne
    | true =>
      cases hf : I.findSub k p with
      | some old =>
        rw [exec_rxSubscribe_of_found hI hk hp hf] at h
        cases h
        rfl
      | none =>
        cases hroom : roomFor s.params.maxSubscriptions I.subs with
        | true =>
          rw [exec_rxSubscribe_of_room hI hk hp hf hroom] at h
          cases h
          rfl
        | false =>
          rw [exec_rxSubscribe_of_full hI hk hp hf hroom] at h
          cases h
          exact absurd rfl hne

/-- An unsubscribe that removed has dropped the subscription from the valid context it names. -/
theorem exec_rxUnsubscribe_removed {t : State} (hk : kindOf kind = some k)
    (h : exec (.rxUnsubscribe i kind p) s = .next t) (hst : t.status = some .removed) :
    ∃ I, s.validIns i = some I ∧ t.ins = s.ins.set i (I.dropSub k p) := by
  cases hI : s.validIns i with
  | none =>
    rw [exec_rxUnsubscribe_of_invalid hI] at h
    cases h
    cases hst
  | some I =>
    refine ⟨I, rfl, ?_⟩
    cases hf : I.findSub k p with
    | none =>
      rw [exec_rxUnsubscribe_of_findSub_none hI hk hf] at h
      cases h
      cases hst
    | some old =>
      rw [exec_rxUnsubscribe_of_findSub_some hI hk hf] at h
      cases h
      rfl

end

/-- Settles O30: one equation per answer. -/
theorem subscribeResult : Obligations.SubscribeResult := by
  intro i kind k p extent timeout s I hI hk hp
  refine ⟨fun old hf => exec_rxSubscribe_of_found hI hk hp hf,
    fun hf hroom => exec_rxSubscribe_of_room hI hk hp hf (roomFor_iff.2 fun m hm => ?room),
    fun m hf hm hle => exec_rxSubscribe_of_full hI hk hp hf (Bool.eq_false_iff.2 fun hroom => ?full)⟩
  case room =>
    rcases hroom with hnone | ⟨m', hm', hlt⟩
    · rw [hnone] at hm; cases hm
    · rw [hm'] at hm; cases hm; exact hlt
  case full => exact absurd (roomFor_iff.1 hroom m hm) (not_lt.2 hle)

/-- Settles O31. -/
theorem subscribeArgumentErrors : Obligations.SubscribeArgumentErrors := by
  intro i kind p extent timeout s I hI hbad
  have outOfRange : ∀ {k}, kindOf kind = some k → portIdMax k < p.toNat →
      exec (.rxSubscribe i kind p extent timeout) s = .next { s with response := some ⟨.argumentInvalid, .none⟩ } :=
    fun hk hp => exec_rxSubscribe_of_outOfRange hI hk (Bool.eq_false_iff.2 fun h => hp.not_ge (portInRange_iff.1 h))
  rcases hbad with rfl | ⟨rfl, hp⟩ | ⟨rfl | rfl, hp⟩
  · exact exec_rxSubscribe_of_kind_none hI rfl
  · exact outOfRange (k := .message) rfl hp
  · exact outOfRange (k := .response) rfl hp
  · exact outOfRange (k := .request) rfl hp

/-- Settles O33: the context is written with the subscription dropped, or put in afresh. -/
theorem subscriptionsForgetTheOldOne : Obligations.SubscriptionsForgetTheOldOne := by
  intro i kind k p extent timeout s t I hi hk
  have hsame : ∀ {J}, s.validIns i = some J → J = I := fun hJ =>
    Option.some.inj ((validIns_eq_some.1 hJ).1.symm.trans hi)
  have hlt : i < s.ins.length := (List.getElem?_eq_some_iff.1 hi).1
  refine ⟨fun h hst => ?_, fun h hst => ?_⟩
  · obtain ⟨J, hJ, hins⟩ := exec_rxUnsubscribe_removed hk h hst
    obtain rfl := hsame hJ
    exact ⟨J.dropSub k p, by rw [hins, List.getElem?_set_self hlt], J.findSub_dropSub_same k p, rfl,
      (validIns_eq_some.1 hJ).2, fun k' p' hne => Instance.findSub_dropSub_other hne J⟩
  · obtain ⟨J, hJ, hins⟩ := exec_rxSubscribe_succeeded hk h (by rcases hst with hst | hst <;> simp [hst])
    obtain rfl := hsame hJ
    exact ⟨J.putSub k p (.fresh p extent timeout), by rw [hins, List.getElem?_set_self hlt],
      J.findSub_putSub_same k p _, rfl, (validIns_eq_some.1 hJ).2, fun k' p' hne => Instance.findSub_putSub_other hne J _⟩

/-- Settles O34: the set is the sorted list of the objects. -/
theorem teardownFreesExactlyTheObjects : Obligations.TeardownFreesExactlyTheObjects := by
  intro objs a
  refine ⟨fun h => h ▸ freeSet_nil a, fun h => ⟨sortObjs objs, ?_⟩⟩
  rw [freeSet_of_ne h]
  exact ⟨rfl, sortObjs_perm objs, sortObjs_sorted objs, fun o => mem_release, rfl, rfl, rfl⟩

end Sys2Proof.Machine
end

section
/-! SUPPORT. `TX_PUSH` completed or turned away, `TX_POP`, and where a new item goes (R191 to R200, R221, R223). -/

namespace Sys2Proof.Machine

open Sys2Proof

/-! ### `TX_PUSH` past its builder -/

section
variable {q : Nat} {Q : TxQueue} {nodeId remote : Word16} {sp : Specifier} {deadline : Word64} {priority : BitVec 3}
  {tid : Word64} {payload : Bytes} {s : State}

/-- The argument errors that the generator finds (R192 to R194). -/
abbrev BadFrames (Q : TxQueue) (nodeId : Word16) (payload : Bytes) : Prop :=
  Q.mtuBytes ≤ 24 ∨ 2 ^ 31 - 1 < frameCount (payload.length + 4) (Q.mtuBytes - 24)
    ∨ (nodeId = 0xFFFF#16 ∧ 1 < frameCount (payload.length + 4) (Q.mtuBytes - 24))

theorem pushTransfer_badFrames (h : BadFrames Q nodeId payload) :
    pushTransfer q Q nodeId remote sp deadline priority tid payload s = s.raise .argumentInvalid := by
  unfold pushTransfer
  dsimp only
  split_ifs with h1 h2 h3
  · rfl
  · rfl
  · rfl
  all_goals exact absurd h (by rintro (h | h | h) <;> contradiction)

theorem pushTransfer_beyondCapacity (h : ¬BadFrames Q nodeId payload)
    (hcap : Q.capacity < Q.size + frameCount (payload.length + 4) (Q.mtuBytes - 24)) :
    pushTransfer q Q nodeId remote sp deadline priority tid payload s = s.raise .outOfMemory := by
  simp only [BadFrames, not_or] at h
  obtain ⟨h1, h2, h3⟩ := h
  unfold pushTransfer
  rw [if_neg h1, if_neg h2, if_neg h3, if_pos hcap]

theorem pushTransfer_granted {a : AllocPort} {objs : List ObjId} (h : ¬BadFrames Q nodeId payload)
    (hcap : Q.size + frameCount (payload.length + 4) (Q.mtuBytes - 24) ≤ Q.capacity)
    (ha : allocFrames s.params.txItemOverhead
      (framesOf ⟨priority, nodeId, remote, sp.dataSpecifier, tid⟩ payload (Q.mtuBytes - 24)) [] s.allocPort
        = (some objs, a)) :
    pushTransfer q Q nodeId remote sp deadline priority tid payload s
      = ((s.setTxq q (Q.commit (itemsOf priority tid deadline sp Q.nextSeq
          ((framesOf ⟨priority, nodeId, remote, sp.dataSpecifier, tid⟩ payload (Q.mtuBytes - 24)).zip objs)))).setAlloc
            a).respond .ok (.framesEnqueued (frameCount (payload.length + 4) (Q.mtuBytes - 24))) := by
  simp only [BadFrames, not_or] at h
  obtain ⟨h1, h2, h3⟩ := h
  unfold pushTransfer
  rw [if_neg h1, if_neg h2, if_neg h3, if_neg (not_lt.2 hcap)]
  simp only [ha]

end

theorem exec_txPush_of_refused {s : State} {q i : Nat} {Q : TxQueue} {I : Instance} {deadline : Word64} {priority : Byte}
    {kind : BitVec 2} {p remote : Word16} (hQ : s.validTxq q = some Q) (hI : s.validIns i = some I)
    (hsp : buildSpecifier I.nodeId priority kind p remote s.localAddress = none) (tid : Word64) (payload : Bytes) :
    exec (.txPush q i deadline priority kind p remote tid payload) s = .next (s.raise .argumentInvalid) := by
  simp only [exec, execTxPush, hQ, hI, hsp]

/-- Settles O40: the builder's errors, then the generator's, then the capacity. -/
theorem txPushTurnedAway : Obligations.TxPushTurnedAway := by
  intro q i deadline priority kind p remote tid payload s Q I C n hQ hI hC hn
  subst hC hn
  have hargs : (kind = 3#2 ∨ 7 < priority.toNat ∨ (kind = 0#2 ∧ (32767 < p.toNat ∨ remote ≠ 0xFFFF#16))
      ∨ ((kind = 1#2 ∨ kind = 2#2) ∧ (16383 < p.toNat ∨ remote = 0xFFFF#16 ∨ I.nodeId = 0xFFFF#16))
      ∨ BadFrames Q I.nodeId payload) ↔
      BadSpecifier I.nodeId priority kind p remote ∨ BadFrames Q I.nodeId payload := by
    simp only [BadSpecifier, or_assoc]
  refine ⟨fun hbad => ?_, fun hgood hcap => ?_⟩
  · cases hb : buildSpecifier I.nodeId priority kind p remote s.localAddress with
    | none => exact exec_txPush_of_refused hQ hI hb tid payload
    | some r =>
      have hframes : BadFrames Q I.nodeId payload := (hargs.1 hbad).resolve_left fun h => by
        rw [buildSpecifier_none_iff.2 h] at hb; cases hb
      rw [exec_txPush_of_accepted hQ hI hb, pushTransfer_badFrames hframes]
      rfl
  · obtain ⟨hspecifier, hframes⟩ := not_or.1 (hargs.not.1 hgood)
    cases hb : buildSpecifier I.nodeId priority kind p remote s.localAddress with
    | none => exact absurd (buildSpecifier_none_iff.1 hb) hspecifier
    | some r =>
      rw [exec_txPush_of_accepted hQ hI hb, pushTransfer_beyondCapacity hframes hcap]
      rfl

/-! ### The frames and items of a granted push -/

/-- The items of a transfer whose frames were granted the objects from `next` on, each by its place (R200). -/
theorem itemsOf_framesOf (f : FrameFields) (payload : Bytes) (C : Nat) (deadline : Word64) (sp : Specifier)
    (seq next : Nat) :
    itemsOf f.priority f.transferId deadline sp seq ((framesOf f payload C).zip
        ((List.range (frameCount (payload.length + 4) C)).map (fun j => next + j)))
      = (List.range (frameCount (payload.length + 4) C)).map (fun j =>
          { id := seq + j, priority := f.priority, transferId := f.transferId,
            frame := frameAt f (streamOf payload) C (frameCount (payload.length + 4) C) (j + 1), deadline := deadline,
            nextInTransfer := if j + 1 = frameCount (payload.length + 4) C then none else some (seq + j + 1),
            specifier := sp, obj := next + j }) := by
  have hlen : ((framesOf f payload C).zip
      ((List.range (frameCount (payload.length + 4) C)).map (fun j => next + j))).length
        = frameCount (payload.length + 4) C := by simp [framesOf_length]
  rw [itemsOf_eq, hlen]
  refine List.map_congr_left fun j hj => ?_
  have hj := List.mem_range.1 hj
  have hget : ((framesOf f payload C).zip
      ((List.range (frameCount (payload.length + 4) C)).map (fun j => next + j))).getD j ([], 0)
        = (frameAt f (streamOf payload) C (frameCount (payload.length + 4) C) (j + 1), next + j) := by
    rw [List.getD_eq_getElem?_getD, List.getElem?_zip_eq_some (z := (frameAt f (streamOf payload) C
      (frameCount (payload.length + 4) C) (j + 1), next + j)) |>.2 ⟨framesOf_getElem? f payload C hj, by simp [hj]⟩]
    rfl
  rw [hget]

/-- Settles O38: the push passes every check, every frame is granted its object, and the items stand by their places. -/
theorem txPushCommitsEveryFrame : Obligations.TxPushCommitsEveryFrame := by
  intro q i deadline priority kind k p remote tid payload s Q I C n S hQ hI hk hprio hport hnodes hmtu hC hS hn hmax
    hanon hcap hgrant
  subst hC hS
  replace hn : n = frameCount (payload.length + 4) (Q.mtuBytes - 24) := hn
  subst hn
  have hsp : buildSpecifier I.nodeId priority kind p remote s.localAddress
      = some (k, specifierOf I.nodeId k p remote s.localAddress) :=
    buildSpecifier_some.2 ⟨hk, hprio, hport, hnodes, rfl⟩
  have hgood : ¬BadFrames Q I.nodeId payload := by
    rintro (h | h | ⟨h, h'⟩)
    · omega
    · omega
    · have := hanon h; omega
  have hlen := framesOf_length ⟨priority.setWidth 3, I.nodeId, remote, dataSpecifierOf k p, tid⟩ payload (Q.mtuBytes - 24)
  have halloc := allocFrames_granted s.params.txItemOverhead
    (framesOf ⟨priority.setWidth 3, I.nodeId, remote, dataSpecifierOf k p, tid⟩ payload (Q.mtuBytes - 24)) []
    s.allocPort (by rwa [hlen])
  rw [hlen, List.nil_append] at halloc
  have hlog : (List.range (frameCount (payload.length + 4) (Q.mtuBytes - 24))).map (fun j =>
        AllocEvent.alloc (s.params.txItemOverhead + ((framesOf ⟨priority.setWidth 3, I.nodeId, remote,
          dataSpecifierOf k p, tid⟩ payload (Q.mtuBytes - 24)).getD j []).length) (some (s.allocPort.nextObj + j)))
      = (List.range (frameCount (payload.length + 4) (Q.mtuBytes - 24))).map (fun j =>
        .alloc (s.params.txItemOverhead + 24 + (chunkAt (streamOf payload) (Q.mtuBytes - 24) (j + 1)).length)
          (some (s.allocPort.nextObj + j))) :=
    List.map_congr_left fun j hj => by
      rw [framesOf_getD_length _ _ (List.mem_range.1 hj), Nat.add_assoc]
  rw [hlog] at halloc
  rw [exec_txPush_of_accepted hQ hI hsp, pushTransfer_granted (sp := specifierOf I.nodeId k p remote s.localAddress) hgood hcap halloc,
    itemsOf_framesOf
    ⟨priority.setWidth 3, I.nodeId, remote, (specifierOf I.nodeId k p remote s.localAddress).dataSpecifier, tid⟩]
  simp only [TxQueue.commit, List.length_map, List.length_range]
  rfl

/-! ### `TX_POP` -/

theorem exec_txPop_of_absent {s : State} {q id : Nat} {Q : TxQueue} (hQ : s.validTxq q = some Q)
    (hm : findItem id Q.items = none) : exec (.txPop q id) s = .next (s.respond .empty .none) := by
  simp only [exec, execTxPop, hQ, hm]

theorem exec_txPop_of_found {s : State} {q id : Nat} {Q : TxQueue} {m : TxItem} (hQ : s.validTxq q = some Q)
    (hm : findItem id Q.items = some m) : exec (.txPop q id) s
      = .next (((s.setTxq q (Q.withoutItem id)).setAlloc (s.allocPort.release [m.obj])).respond .ok (.item m)) := by
  simp only [exec, execTxPop, hQ, hm]

/-- The first item of an id is the one found and removed. -/
theorem findItem_append_cons {id : Nat} {front back : List TxItem} {m : TxItem} (hm : m.id = id)
    (hfront : ∀ e ∈ front, e.id ≠ id) :
    findItem id (front ++ m :: back) = some m ∧ removeItem id (front ++ m :: back) = front ++ back := by
  have hno : ∀ e ∈ front, ¬decide (e.id = id) = true := fun e he => by simpa using hfront e he
  constructor
  · rw [findItem, List.find?_append, List.find?_eq_none.2 hno, Option.none_or, List.find?_cons_of_pos (by simpa using hm)]
  · rw [removeItem, List.eraseP_append_right _ hno, List.eraseP_cons_of_pos (by simpa using hm)]

/-- Settles O42. -/
theorem txPopRemovesTheNamedItem : Obligations.TxPopRemovesTheNamedItem := by
  intro q id s Q hQ
  refine ⟨fun h => exec_txPop_of_absent hQ (findItem_eq_none.2 h), fun front m back hitems hm hfront => ?_⟩
  obtain ⟨hfind, hremove⟩ := findItem_append_cons (back := back) hm hfront
  rw [← hitems] at hfind hremove
  rw [exec_txPop_of_found hQ hfind, TxQueue.withoutItem, hremove]
  simp [State.setTxq, State.setAlloc, State.respond, AllocPort.release]

/-! ### A new item's place (R221) -/

/-- The document's comparator: a lower priority value, or equal priority and a lower transfer-ID. -/
def TxItem.precedes (n e : TxItem) : Bool :=
  decide (n.priority.toNat < e.priority.toNat)
    || (decide (n.priority = e.priority) && decide (n.transferId.toNat < e.transferId.toNat))

/-- For a newer item it is the queue order. -/
theorem precedes_eq_before {n e : TxItem} (h : e.id < n.id) : n.precedes e = n.before e := by
  rw [TxItem.precedes, TxItem.before, decide_eq_false (p := n.id < e.id) (by omega), Bool.and_false, Bool.or_false]

/-- In a sorted queue a new item goes before all that it precedes and after all others. -/
theorem insertItem_eq_filter {n : TxItem} {l : List TxItem} (hl : l.Pairwise (fun a b => a.before b = true)) :
    insertItem n l = l.filter (fun e => !n.before e) ++ n :: l.filter (fun e => n.before e) := by
  induction l with
  | nil => rfl
  | cons e l ih =>
    obtain ⟨hhead, htail⟩ := List.pairwise_cons.1 hl
    by_cases h : n.before e = true
    · have hall : ∀ x ∈ e :: l, n.before x = true := by
        intro x hx
        rcases List.mem_cons.1 hx with rfl | hx
        · exact h
        · exact before_trans h (hhead x hx)
      have hnone : (e :: l).filter (fun x => !n.before x) = [] :=
        List.filter_eq_nil_iff.2 fun x hx => by simp [hall x hx]
      rw [insertItem, if_pos h, hnone, List.filter_eq_self.2 hall, List.nil_append]
    · have h : n.before e = false := by simpa using h
      simp [insertItem, h, ih htail]

/-- Settles O43. -/
theorem newItemGoesBehindItsEquals : Obligations.NewItemGoesBehindItsEquals := by
  rintro Q n ⟨-, -, hsorted, -⟩ hnew
  have hcmp : ∀ e ∈ Q.items, n.before e = n.precedes e := fun e he => (precedes_eq_before (hnew e he)).symm
  rw [insertItem_eq_filter hsorted, List.filter_congr hcmp,
    List.filter_congr fun e he => congrArg (!·) (hcmp e he)]
  rfl

end Sys2Proof.Machine
end

section
/-! SUPPORT. `RX_ACCEPT` outcome by outcome (R260 to R279). The idea: once steps 5 to 12 are known, the command is their
commitment (`commitAccepted`); and steps 10 and 11 on a session that meets R30 leave one known session, `Session.took`. -/

namespace Sys2Proof.Machine

open Sys2Proof

/-! ### Outcomes before step 5 -/

section
variable {s : State} {i : Nat} {I : Instance} {ts : Word64} {frame : Bytes} {rti : Byte}

theorem exec_rxAccept_of_rejected (hI : s.validIns i = some I)
    (hd : decodeFrame s.params.verifyHeaderCrc frame = none) :
    exec (.rxAccept i ts frame rti) s = .next (s.respond .rejected .none) := by
  simp only [exec, execRxAccept, hI, hd]

theorem exec_rxAccept_of_notAddressed {h : Header} {chunk : Bytes} (hI : s.validIns i = some I)
    (hd : decodeFrame s.params.verifyHeaderCrc frame = some (h, chunk)) (ha : addressed I.nodeId h = false) :
    exec (.rxAccept i ts frame rti) s = .next (s.respond .noMatch .none) := by
  simp only [exec, execRxAccept, hI, hd, ha, if_true]

theorem exec_rxAccept_of_notSubscribed {h : Header} {chunk : Bytes} (hI : s.validIns i = some I)
    (hd : decodeFrame s.params.verifyHeaderCrc frame = some (h, chunk)) (ha : addressed I.nodeId h = true)
    (hf : I.findSub h.kind h.portId = none) :
    exec (.rxAccept i ts frame rti) s = .next (s.respond .noMatch .none) := by
  simp only [exec, execRxAccept, hI, hd, ha, hf, Bool.true_eq_false, if_false]

/-! ### Committing what steps 5 to 12 decide -/

variable {sub : Subscription} {h : Header} {chunk : Bytes}

/-- No session written. -/
theorem exec_rxAccept_silent (hf : s.Finds i frame I sub h chunk) {port : AllocPort} {status : Status}
    {transfer : Option Transfer}
    (hm : acceptMatched sub h chunk ts rti s.params s.allocPort = ⟨none, port, status, transfer⟩) :
    exec (.rxAccept i ts frame rti) s = .next
      { s with allocPort := port, response := some ⟨status, resultsWith ⟨h.kind, h.portId⟩ transfer⟩ } := by
  rw [exec_rxAccept_of_finds hf, hm]
  rfl

/-- The sender's session written. -/
theorem exec_rxAccept_written (hf : s.Finds i frame I sub h chunk) {y : Session} {port : AllocPort} {status : Status}
    {transfer : Option Transfer}
    (hm : acceptMatched sub h chunk ts rti s.params s.allocPort = ⟨some y, port, status, transfer⟩) :
    exec (.rxAccept i ts frame rti) s = .next
      { s.withSession i I sub h y with
        allocPort := port, response := some ⟨status, resultsWith ⟨h.kind, h.portId⟩ transfer⟩ } := by
  rw [exec_rxAccept_of_finds hf, hm]
  rfl

theorem acceptMatched_of_findsSession {x : Session} (hf : s.FindsSession i frame I sub h chunk x) (a : AllocPort) :
    acceptMatched sub h chunk ts rti s.params a = acceptInSession s.params.sizeW x sub h chunk ts rti a :=
  acceptMatched_of_session hf.2.1 hf.2.2 ..

/-- The frame that the session expects goes straight to steps 10 to 12. -/
theorem acceptMatched_of_expects {x : Session} (hf : s.FindsSession i frame I sub h chunk x)
    (he : x.Expects sub h ts rti) (a : AllocPort) :
    acceptMatched sub h chunk ts rti s.params a = acceptFrame s.params.sizeW x sub.extent h chunk ts a := by
  rw [acceptMatched_of_findsSession hf, acceptInSession_expected he]

end

theorem sot_eq_false_of_decodeFrame {verify : Bool} {frame chunk : Bytes} {h : Header}
    (hd : decodeFrame verify frame = some (h, chunk)) (hi : h.frameIndex.toNat ≠ 1) : h.sot = false := by
  refine Bool.eq_false_iff.2 fun hsot => hi ?_
  rw [(sot_iff_of_decodeFrame hd).1 hsot]
  rfl

theorem sot_of_decodeFrame {verify : Bool} {frame chunk : Bytes} {h : Header}
    (hd : decodeFrame verify frame = some (h, chunk)) (hi : h.frameIndex.toNat = 1) : h.sot = true :=
  (sot_iff_of_decodeFrame hd).2 (BitVec.eq_of_toNat_eq hi)

/-- Settles O44: the checks of steps 2 to 4, no session, and step 8. -/
theorem acceptIgnoresNoise : Obligations.AcceptIgnoresNoise := by
  intro i ts frame rti s I hI
  refine ⟨fun hd => exec_rxAccept_of_rejected hI hd, fun h chunk hd hk hn => ?other, fun h chunk hd ha hf => ?unsubscribed,
    fun sub h chunk hf hs hx hi => ?noSession, fun sub h chunk x hf hne hres => ?otherTransfer⟩
  case other =>
    refine exec_rxAccept_of_notAddressed hI hd (Bool.eq_false_iff.2 fun ha => ?_)
    rcases addressed_iff.1 ha with h' | ⟨h', h''⟩
    · exact hk h'
    · exact hn.elim h' fun h''' => h''' h''
  case unsubscribed => exact exec_rxAccept_of_notSubscribed hI hd (addressed_iff.2 ha) hf
  case noSession =>
    have hsot := sot_eq_false_of_decodeFrame hf.2.1 hi
    exact exec_rxAccept_silent (transfer := none) hf (by rw [acceptMatched_of_noSession hs hx, if_pos hsot])
  case otherTransfer =>
    have hno : ¬restartsToFrame x sub.transferIdTimeout h ts rti = true := by
      rw [restartsToFrame_iff]
      rintro ⟨hsot, hex | ⟨hr, hd⟩⟩
      · exact (hres hsot).1 hex
      · exact absurd ((hres hsot).2 hr) (not_le.2 hd)
    exact exec_rxAccept_silent (transfer := none) hf.1 (by
      rw [acceptMatched_of_findsSession hf, acceptInSession, if_neg hno, matchFrame_other hne])

/-! ### The anonymous path (R276) -/

section
variable {sub : Subscription} {h : Header} {chunk : Bytes} {ts : Word64} {rti : Byte} {p : Params} {a : AllocPort}

theorem acceptMatched_anonymous (hs : h.sourceNodeId = 0xFFFF#16) :
    acceptMatched sub h chunk ts rti p a = acceptAnonymous sub h chunk ts a := by
  rw [acceptMatched, if_pos hs]

theorem acceptAnonymous_bad (hbad : chunk.length < 4 ∨ crc32cAdd 0xFFFFFFFF#32 chunk ≠ 0xB798B438#32) :
    acceptAnonymous sub h chunk ts a = ⟨none, a, .noMatch, none⟩ := by
  rw [acceptAnonymous, if_pos hbad]

theorem acceptAnonymous_empty (hlen : 4 ≤ chunk.length) (hc : crc32cAdd 0xFFFFFFFF#32 chunk = 0xB798B438#32)
    (hn : min sub.extent (chunk.length - 4) = 0) :
    acceptAnonymous sub h chunk ts a = ⟨none, a, .transferComplete,
      some ⟨metadataOf h .message 0xFFFF#16, ts, none, 0⟩⟩ := by
  rw [acceptAnonymous, if_neg (by rintro (h | h); exacts [absurd hlen (not_le.2 h), h hc])]
  simp only [hn, if_true]

theorem acceptAnonymous_granted (hlen : 4 ≤ chunk.length) (hc : crc32cAdd 0xFFFFFFFF#32 chunk = 0xB798B438#32)
    (hn : 0 < min sub.extent (chunk.length - 4)) (hg : a.answer 0 = true) :
    acceptAnonymous sub h chunk ts a
      = ⟨none, (a.alloc (min sub.extent (chunk.length - 4))).2.release [a.nextObj], .transferComplete,
          some ⟨metadataOf h .message 0xFFFF#16, ts, some ⟨a.nextObj, min sub.extent (chunk.length - 4),
            chunk.take (min sub.extent (chunk.length - 4))⟩, min sub.extent (chunk.length - 4)⟩⟩ := by
  rw [acceptAnonymous, if_neg (by rintro (h | h); exacts [absurd hlen (not_le.2 h), h hc])]
  simp only [if_neg hn.ne', alloc_granted hg, memWrite, List.take_nil, List.drop_nil, List.nil_append, List.append_nil]

theorem acceptAnonymous_denied (hlen : 4 ≤ chunk.length) (hc : crc32cAdd 0xFFFFFFFF#32 chunk = 0xB798B438#32)
    (hn : 0 < min sub.extent (chunk.length - 4)) (hg : a.answer 0 = false) :
    acceptAnonymous sub h chunk ts a
      = ⟨none, (a.alloc (min sub.extent (chunk.length - 4))).2, .outOfMemory, none⟩ := by
  rw [acceptAnonymous, if_neg (by rintro (h | h); exacts [absurd hlen (not_le.2 h), h hc])]
  simp only [if_neg hn.ne', alloc_denied hg]
  rfl

end

/-- Settles O45. -/
theorem acceptAnonymousIsStateless : Obligations.AcceptAnonymousIsStateless := by
  intro i ts frame rti s I sub h chunk hf hs
  refine ⟨fun hbad => ?_, fun hlen hc hn => ?_, fun hlen hc hn hg => ?_, fun hlen hc hn hg => ?_⟩
  · exact exec_rxAccept_silent (transfer := none) hf (by rw [acceptMatched_anonymous hs, acceptAnonymous_bad hbad])
  · exact exec_rxAccept_silent (transfer := some _) hf (by
      rw [acceptMatched_anonymous hs, acceptAnonymous_empty hlen hc hn]; rfl)
  · exact exec_rxAccept_silent (transfer := some _) hf (by
      rw [acceptMatched_anonymous hs, acceptAnonymous_granted hlen hc hn hg]; rfl)
  · exact exec_rxAccept_silent (transfer := none) hf (by
      rw [acceptMatched_anonymous hs, acceptAnonymous_denied hlen hc hn hg])

/-! ### Reduction to the expected frame -/

theorem finishFrame_session_isSome (y : Session) (h : Header) (a : AllocPort) :
    (finishFrame y h a).session.isSome = true := by
  unfold finishFrame
  split_ifs <;> rfl

/-- Steps 10 to 12 always write the session. -/
theorem acceptFrame_session_isSome (w : Nat) (x : Session) (extent : Nat) (h : Header) (chunk : Bytes) (ts : Word64)
    (a : AllocPort) : (acceptFrame w x extent h chunk ts a).session.isSome = true := by
  rcases Nat.eq_zero_or_pos (min chunk.length (extent - x.payloadSize)) with hn | hn
  · rw [acceptFrame_nothing hn]
    exact finishFrame_session_isSome ..
  · cases hb : x.payload with
    | some b =>
      rw [acceptFrame_buffer hn hb]
      exact finishFrame_session_isSome ..
    | none =>
      cases hg : a.answer 0 with
      | true =>
        rw [acceptFrame_granted hn hb hg]
        exact finishFrame_session_isSome ..
      | false =>
        rw [acceptFrame_denied hn hb hg]
        rfl

section
variable {s : State} {i : Nat} {I : Instance} {frame : Bytes} {sub : Subscription} {h : Header} {chunk : Bytes}

/-- With the sender's session written, the frame finds it. -/
theorem findsSession_withSession (hf : s.Finds i frame I sub h chunk) (hs : h.sourceNodeId ≠ 0xFFFF#16) (y : Session)
    (a : AllocPort) :
    ((s.withSession i I sub h y).setAlloc a).FindsSession i frame
      (I.putSub h.kind h.portId (sub.putSession h.sourceNodeId.toNat y)) (sub.putSession h.sourceNodeId.toNat y) h chunk
      y := by
  obtain ⟨hI, hd, ha, -⟩ := hf
  refine ⟨⟨validIns_eq_some.2 ⟨?_, (validIns_eq_some.1 hI).2⟩, hd, ha, Instance.findSub_putSub_same ..⟩, hs,
    Map.find_insert_same ..⟩
  exact List.getElem?_set_self (lt_of_validIns hI)

/-- Writing the sender's session twice is writing it once. -/
theorem withSession_withSession (y z : Session) (a : AllocPort) :
    ((s.withSession i I sub h y).setAlloc a).withSession i
        (I.putSub h.kind h.portId (sub.putSession h.sourceNodeId.toNat y)) (sub.putSession h.sourceNodeId.toNat y) h z
      = (s.withSession i I sub h z).setAlloc a := by
  simp only [State.withSession, State.setIns, State.setAlloc, Instance.putSub_putSub_same,
    Subscription.putSession_putSession_same, List.set_set]

/-- A frame that comes to steps 10 to 12 with session `y` and port `a` is as the same frame on a machine that holds
them. -/
theorem exec_rxAccept_reduces {ts : Word64} {rti : Byte} {y : Session} {a : AllocPort}
    (hf : s.Finds i frame I sub h chunk) (hs : h.sourceNodeId ≠ 0xFFFF#16) (he : y.Expects sub h ts rti)
    (hm : acceptMatched sub h chunk ts rti s.params s.allocPort
      = acceptFrame s.params.sizeW y sub.extent h chunk ts a) :
    exec (.rxAccept i ts frame rti) s = exec (.rxAccept i ts frame rti) ((s.withSession i I sub h y).setAlloc a) := by
  have hf' := findsSession_withSession hf hs y a
  have hm' := acceptMatched_of_expects (ts := ts) (rti := rti) hf' he a
  obtain ⟨z, hz⟩ := Option.isSome_iff_exists.1 (acceptFrame_session_isSome s.params.sizeW y sub.extent h chunk ts a)
  have hshape : acceptFrame s.params.sizeW y sub.extent h chunk ts a = ⟨some z,
      (acceptFrame s.params.sizeW y sub.extent h chunk ts a).port,
      (acceptFrame s.params.sizeW y sub.extent h chunk ts a).status,
      (acceptFrame s.params.sizeW y sub.extent h chunk ts a).transfer⟩ := by rw [← hz]
  rw [exec_rxAccept_written hf (hm.trans hshape), exec_rxAccept_written hf'.1 (hm'.trans hshape),
    withSession_withSession]
  rfl

end

/-- A session cleared for the frame expects it. -/
theorem Session.retargeted_expects {sub : Subscription} {h : Header} (hi : h.frameIndex.toNat = 1) (x : Session)
    (ts : Word64) (rti : Byte) : (x.retargeted h.transferId rti).Expects sub h ts rti :=
  ⟨rfl, rfl, hi, fun _ _ => rfl⟩

theorem Session.fresh_expects {sub : Subscription} {h : Header} (hi : h.frameIndex.toNat = 1) (ts : Word64) (rti : Byte)
    (o : ObjId) : (Session.fresh ts h.transferId rti o).Expects sub h ts rti :=
  ⟨rfl, rfl, hi, fun _ _ => rfl⟩

/-- Settles O46. -/
theorem acceptCreatesASession : Obligations.AcceptCreatesASession := by
  intro i ts frame rti s I sub h chunk hf hs hx hi
  have hsot : ¬h.sot = false := by rw [sot_of_decodeFrame hf.2.1 hi]; decide
  refine ⟨fun hg => ?denied, fun hg => ?granted⟩
  case denied =>
    refine exec_rxAccept_silent (transfer := none) hf ?_
    rw [acceptMatched_of_noSession hs hx, if_neg hsot, alloc_denied hg]
  case granted =>
    refine exec_rxAccept_reduces (y := .fresh ts h.transferId rti s.allocPort.nextObj) hf hs (Session.fresh_expects hi ..) ?_
    rw [acceptMatched_of_noSession hs hx, if_neg hsot, alloc_granted hg]
    exact acceptInSession_expected (Session.fresh_expects hi ..) ..

/-- Settles O47. -/
theorem acceptRestartsToAFirstFrame : Obligations.AcceptRestartsToAFirstFrame := by
  intro i ts frame rti s I sub h chunk x hf hi hres
  have hrestart : restartsToFrame x sub.transferIdTimeout h ts rti = true :=
    restartsToFrame_iff.2 ⟨sot_of_decodeFrame hf.1.2.1 hi, hres⟩
  refine exec_rxAccept_reduces (y := x.retargeted h.transferId rti) (a := x.freePayload s.allocPort) hf.1 hf.2.1
    (x.retargeted_expects hi ..) ?_
  rw [acceptMatched_of_findsSession hf, acceptInSession, if_pos hrestart]
  exact matchFrame_next rfl rfl hi ..

/-- Settles O48. -/
theorem acceptOutOfSequenceResetsTheSession : Obligations.AcceptOutOfSequenceResetsTheSession := by
  intro i ts frame rti s I sub h chunk x hf ht hr hi hex
  have hno : ¬restartsToFrame x sub.transferIdTimeout h ts rti = true := by
    rw [restartsToFrame_iff]
    rintro ⟨hsot, hex' | ⟨-, hd⟩⟩
    · exact hex hsot hex'
    · rw [ht, BitVec.sub_self] at hd; simp at hd
  refine exec_rxAccept_written hf.1 (y := x.advanced) (port := x.freePayload s.allocPort) (transfer := none) ?_
  rw [acceptMatched_of_findsSession hf, acceptInSession, if_neg hno, matchFrame_outOfSequence ht hr hi]

/-! ### Steps 10 and 11 on a session that meets R30 -/

/-- The buffer after a chunk: the one that is there, or a new one named `o` where there are bytes to store. -/
def Session.bufferAfter (x : Session) (extent : Nat) (chunk : Bytes) (o : ObjId) : Option Buffer :=
  match x.payload with
  | some b => some { b with data := (x.stored ++ chunk).take extent }
  | none => if 0 < min chunk.length (extent - x.payloadSize) then some ⟨o, extent, (x.stored ++ chunk).take extent⟩
    else none

/-- The session once a frame's chunk is taken, before step 12. -/
def Session.took (w extent : Nat) (x : Session) (h : Header) (chunk : Bytes) (ts : Word64) (o : ObjId) : Session :=
  { x.absorb w extent h chunk ts with
    payloadSize := min extent (x.totalPayloadSize + chunk.length), payload := x.bufferAfter extent chunk o }

/-- The allocator port once the chunk is taken. -/
def Session.portAfter (x : Session) (extent : Nat) (chunk : Bytes) (a : AllocPort) : AllocPort :=
  if x.payload = none ∧ 0 < min chunk.length (extent - x.payloadSize) then (a.alloc extent).2 else a

theorem Session.bufferAfter_of_some {x : Session} {b : Buffer} (hb : x.payload = some b) (extent : Nat) (chunk : Bytes)
    (o : ObjId) : x.bufferAfter extent chunk o = some { b with data := (x.stored ++ chunk).take extent } := by
  rw [Session.bufferAfter, hb]

theorem Session.bufferAfter_of_none {x : Session} (hb : x.payload = none) (extent : Nat) (chunk : Bytes) (o : ObjId) :
    x.bufferAfter extent chunk o = if 0 < min chunk.length (extent - x.payloadSize)
      then some ⟨o, extent, (x.stored ++ chunk).take extent⟩ else none := by
  rw [Session.bufferAfter, hb]

theorem Session.portAfter_of_some {x : Session} {b : Buffer} (hb : x.payload = some b) (extent : Nat) (chunk : Bytes)
    (a : AllocPort) : x.portAfter extent chunk a = a := by
  rw [Session.portAfter, if_neg (by simp [hb])]

theorem Session.portAfter_of_none {x : Session} (hb : x.payload = none) (extent : Nat) (chunk : Bytes)
    (a : AllocPort) : x.portAfter extent chunk a = if 0 < min chunk.length (extent - x.payloadSize)
      then (a.alloc extent).2 else a := by
  simp only [Session.portAfter, hb, true_and]

/-- A session that meets R30 holds as many bytes as it counts. -/
theorem Session.HoldsStream.stored_length {extent : Nat} {x : Session} (hx : x.HoldsStream extent) :
    x.stored.length = x.payloadSize := by
  cases hb : x.payload with
  | none => simp [Session.stored, hb, hx.empty hb]
  | some b => simpa [Session.stored, hb] using (hx.buffer b hb).2.1

theorem Session.HoldsStream.stored_append_take {extent : Nat} {x : Session} (hx : x.HoldsStream extent) (chunk : Bytes) :
    (x.stored ++ chunk).take extent
      = x.stored ++ chunk.take (min chunk.length (extent - x.payloadSize)) := by
  have hsize := hx.size
  rw [List.take_append, hx.stored_length, List.take_of_length_le (by rw [hx.stored_length]; omega)]
  congr 1
  rcases le_total chunk.length (extent - x.payloadSize) with h | h
  · rw [min_eq_left h, List.take_of_length_le h, List.take_length]
  · rw [min_eq_right h]

theorem acceptFrame_took {w extent : Nat} {x : Session} {chunk : Bytes} {a : AllocPort} (hx : x.HoldsStream extent)
    (hg : x.payload = none → 0 < min chunk.length (extent - x.payloadSize) → a.answer 0 = true) (h : Header)
    (ts : Word64) :
    acceptFrame w x extent h chunk ts a
      = finishFrame (x.took w extent h chunk ts a.nextObj) h (x.portAfter extent chunk a) := by
  have hsize := hx.size
  have hlen : (chunk.take (min chunk.length (extent - x.payloadSize))).length
      = min chunk.length (extent - x.payloadSize) := by rw [List.length_take]; omega
  have htotal : x.payloadSize + min chunk.length (extent - x.payloadSize)
      = min extent (x.totalPayloadSize + chunk.length) := by omega
  rcases Nat.eq_zero_or_pos (min chunk.length (extent - x.payloadSize)) with hn | hn
  · have hport : x.portAfter extent chunk a = a := by rw [Session.portAfter, if_neg (by omega)]
    have htook : x.took w extent h chunk ts a.nextObj = x.absorb w extent h chunk ts := by
      rw [Session.took, ← htotal, hn, Nat.add_zero, Session.bufferAfter, hn, hx.stored_append_take, hn]
      cases hb : x.payload <;> simp [Session.absorb, Session.stored, hb]
    rw [acceptFrame_nothing hn, hport, htook]
  · cases hb : x.payload with
    | some b =>
      have hport : x.portAfter extent chunk a = a := by rw [Session.portAfter, if_neg (by simp [hb])]
      have hstored : x.stored = b.data := by simp [Session.stored, hb]
      have hdata : b.data.length = x.payloadSize := (hx.buffer b hb).2.1
      rw [acceptFrame_buffer hn hb, hport, Session.took, ← htotal, Session.bufferAfter, hx.stored_append_take, hstored]
      simp only [hb, Session.store, Session_absorb_payloadSize, hlen, ← memWrite_at_end, hdata]
    | none =>
      have hport : x.portAfter extent chunk a = (a.alloc extent).2 := by rw [Session.portAfter, if_pos ⟨hb, hn⟩]
      have hstored : x.stored = [] := by simp [Session.stored, hb]
      have hwrite : memWrite [] x.payloadSize (chunk.take (min chunk.length (extent - x.payloadSize)))
          = chunk.take (min chunk.length (extent - x.payloadSize)) := by rw [hx.empty hb]; exact memWrite_at_end [] _
      rw [acceptFrame_granted hn hb (hg hb hn), hport, Session.took, ← htotal, Session.bufferAfter,
        hx.stored_append_take, hstored]
      simp only [hb, if_pos hn, Session.store, Session_absorb_payloadSize, hlen, List.nil_append, hwrite]

theorem Session.HoldsStream.took_stored {extent : Nat} {x : Session} (hx : x.HoldsStream extent) (w : Nat) (h : Header)
    (chunk : Bytes) (ts : Word64) (o : ObjId) :
    (x.took w extent h chunk ts o).stored = (x.stored ++ chunk).take extent := by
  cases hb : x.payload with
  | some b => simp only [Session.stored, Session.took, Session.bufferAfter, hb]
  | none =>
    by_cases hn : 0 < min chunk.length (extent - x.payloadSize)
    · simp only [Session.stored, Session.took, Session.bufferAfter, hb, if_pos hn]
    · rw [hx.stored_append_take, Nat.eq_zero_of_not_pos hn]
      simp only [Session.stored, Session.took, Session.bufferAfter, hb, if_neg hn, List.take_zero, List.append_nil]

/-- A frame taken into its session that is not the last: its index is recorded. -/
theorem exec_rxAccept_more {i : Nat} {ts : Word64} {frame : Bytes} {rti : Byte} {s : State} {I : Instance}
    {sub : Subscription} {h : Header} {chunk : Bytes} {x : Session} (hf : s.FindsSession i frame I sub h chunk x)
    (hx : x.HoldsStream sub.extent) (he : x.Expects sub h ts rti) (heot : h.eot = false)
    (hg : x.payload = none → 0 < min chunk.length (sub.extent - x.payloadSize) → s.allocPort.answer 0 = true) :
    exec (.rxAccept i ts frame rti) s = .next
      { s.withSession i I sub h { x.took s.params.sizeW sub.extent h chunk ts s.allocPort.nextObj with
          lastFrameIndex := h.frameIndex } with
        allocPort := x.portAfter sub.extent chunk s.allocPort
        response := some ⟨.noMatch, .handle ⟨h.kind, h.portId⟩⟩ } := by
  refine exec_rxAccept_written hf.1 (transfer := none) ?_
  rw [acceptMatched_of_expects hf he, acceptFrame_took hx hg, finishFrame_more heot]

/-- Settles O49: the session is the one that took the chunk, with the frame's index recorded. -/
theorem acceptAccumulates : Obligations.AcceptAccumulates := by
  intro i ts frame rti s I sub h chunk x hf hinv he heot hg
  have hx := (Session.inv_iff.1 hinv).1
  have hstored : Session.stored
      { x.took s.params.sizeW sub.extent h chunk ts s.allocPort.nextObj with lastFrameIndex := h.frameIndex }
        = (x.stored ++ chunk).take sub.extent := hx.took_stored s.params.sizeW h chunk ts s.allocPort.nextObj
  refine ⟨{ x.took s.params.sizeW sub.extent h chunk ts s.allocPort.nextObj with lastFrameIndex := h.frameIndex }, rfl,
    fun hfit => addCount_exact hfit _, fun hbeyond => addCount_beyond hbeyond _, rfl, hstored, rfl, rfl, rfl,
    rfl, rfl, ?payload, exec_rxAccept_more hf hx he heot hg⟩
  case payload =>
    rw [hstored]
    rfl

/-- Settles O50: the transfer delivers what the session that took the chunk holds. -/
theorem acceptDeliversAGoodTransfer : Obligations.AcceptDeliversAGoodTransfer := by
  intro i ts frame rti s I sub h chunk x hf hinv he heot h4 hcrc hg
  have hx := (Session.inv_iff.1 hinv).1
  have htrailer : 4 ≤ addCount s.params.sizeW sub.extent x.totalPayloadSize chunk.length := by
    rcases lt_or_ge (x.totalPayloadSize + chunk.length) (2 ^ s.params.sizeW) with hfit | hbeyond
    · rwa [addCount_exact hfit]
    · exact (addCount_beyond hbeyond _).2.1
  obtain ⟨n, hn⟩ : ∃ n, outSize (addCount s.params.sizeW sub.extent x.totalPayloadSize chunk.length)
      (min sub.extent (x.totalPayloadSize + chunk.length)) = n := ⟨_, rfl⟩
  have hsize : n ≤ min sub.extent (x.totalPayloadSize + chunk.length) := by
    rw [← hn, outSize]; split <;> omega
  refine ⟨⟨metadataOf h h.kind h.sourceNodeId, if h.sot then ts else x.transferTimestamp,
    x.bufferAfter sub.extent chunk s.allocPort.nextObj, n⟩, rfl, rfl, fun hfit => ?size, hsize, rfl, ?bytes, ?exec⟩
  case size =>
    change n = _
    rw [← hn, addCount_exact hfit, outSize]
    split <;> omega
  case bytes =>
    have htake : ((x.stored ++ chunk).take sub.extent).take n = (x.stored ++ chunk).take n := by
      rw [List.take_take, min_eq_left (hsize.trans (min_le_left _ _))]
    rw [← hx.took_stored s.params.sizeW h chunk ts s.allocPort.nextObj] at htake
    change _ = (x.stored ++ chunk).take n
    rw [← htake]
    simp only [Transfer.bytes, Session.stored, Session.took]
    cases x.bufferAfter sub.extent chunk s.allocPort.nextObj with
    | some b => rfl
    | none => exact List.take_nil.symm
  case exec =>
    refine exec_rxAccept_written (transfer := some _) hf.1 ?_
    rw [acceptMatched_of_expects hf he, acceptFrame_took hx hg, finishFrame_good heot htrailer hcrc, ← hn]
    refine congrArg (fun p => Accepted.mk _ p _ _) ?_
    change (match x.bufferAfter sub.extent chunk s.allocPort.nextObj with
      | some b => (x.portAfter sub.extent chunk s.allocPort).release [b.obj]
      | none => x.portAfter sub.extent chunk s.allocPort) = _
    cases hb : x.payload with
    | some b => rw [x.bufferAfter_of_some hb, x.portAfter_of_some hb]
    | none =>
      rw [x.bufferAfter_of_none hb, x.portAfter_of_none hb]
      split_ifs <;> rfl

/-- Settles O51: a wrong residue frees what the session that took the chunk holds. -/
theorem acceptDiscardsACorruptTransfer : Obligations.AcceptDiscardsACorruptTransfer := by
  intro i ts frame rti s I sub h chunk x hf hinv he heot hcrc hg
  have hx := (Session.inv_iff.1 hinv).1
  refine exec_rxAccept_written hf.1 (transfer := none) ?_
  rw [acceptMatched_of_expects hf he, acceptFrame_took hx hg, finishFrame_bad heot hcrc]
  refine congrArg (fun p => Accepted.mk _ p _ _) ?_
  change (match x.bufferAfter sub.extent chunk s.allocPort.nextObj with
    | some b => (x.portAfter sub.extent chunk s.allocPort).free b.obj
    | none => x.portAfter sub.extent chunk s.allocPort) = _
  cases hb : x.payload with
  | some b => rw [x.bufferAfter_of_some hb, x.portAfter_of_some hb]
  | none =>
    rw [x.bufferAfter_of_none hb, x.portAfter_of_none hb]
    split_ifs <;> rfl

/-- Settles O52. -/
theorem acceptDeniedBufferResetsTheSession : Obligations.AcceptDeniedBufferResetsTheSession := by
  intro i ts frame rti s I sub h chunk x hf he hb hn hg
  refine exec_rxAccept_written hf.1 (transfer := none) ?_
  rw [acceptMatched_of_expects hf he, acceptFrame_denied hn hb hg]
  rfl

end Sys2Proof.Machine
end

section
/-! SUPPORT. What `RX_ACCEPT` writes (R279), and the widths and the canonical form of the registries, kept by every step
(R26, R27, R29, R33, R249). The idea: a written session descends from the one it replaces (`Session.Succeeds`); and a
registry is written at one entry of one kind, so a condition on all entries is kept where it holds of that one. -/

namespace Sys2Proof.Machine

open Sys2Proof

/-! ### The session written -/

/-- `y` is what steps 7 to 12 can make of `x`: the same object, its counts clear or the frame's chunk counted. -/
structure Session.Succeeds (w extent : Nat) (x y : Session) : Prop where
  obj : y.obj = x.obj
  total : y.totalPayloadSize = 0 ∨ ∃ t n, y.totalPayloadSize = addCount w extent t n
  stored : y.payloadSize ≤ max x.payloadSize extent

theorem Session.succeeds_advanced {w extent : Nat} {x y : Session} (h : y.obj = x.obj) :
    x.Succeeds w extent y.advanced := ⟨h, .inl rfl, Nat.zero_le _⟩

/-- The session these steps write, if any, descends from `x`. -/
abbrev Accepted.SucceedsFrom (w extent : Nat) (x : Session) (r : Accepted) : Prop :=
  ∀ y, r.session = some y → x.Succeeds w extent y

theorem finishFrame_succeeds {w extent : Nat} {x y : Session} (hy : x.Succeeds w extent y) (h : Header)
    (a : AllocPort) : (finishFrame y h a).SucceedsFrom w extent x := by
  unfold finishFrame
  split_ifs <;> rintro z ⟨⟩
  · exact Session.succeeds_advanced hy.obj
  · exact Session.succeeds_advanced hy.obj
  · exact ⟨hy.obj, hy.total, hy.stored⟩

theorem Session.succeeds_absorb (w extent : Nat) (x : Session) (h : Header) (chunk : Bytes) (ts : Word64) :
    x.Succeeds w extent (x.absorb w extent h chunk ts) :=
  ⟨rfl, .inr ⟨_, _, rfl⟩, le_max_left _ _⟩

theorem Session.succeeds_store {w extent : Nat} {x : Session} {chunk : Bytes}
    (hn : 0 < min chunk.length (extent - x.payloadSize)) (h : Header) (ts : Word64) (b : Buffer) :
    x.Succeeds w extent ((x.absorb w extent h chunk ts).store b
      (chunk.take (min chunk.length (extent - x.payloadSize)))) where
  obj := rfl
  total := .inr ⟨_, _, rfl⟩
  stored := by
    simp only [Session_store_payloadSize, Session_absorb_payloadSize, List.length_take]
    omega

theorem acceptFrame_succeeds (w extent : Nat) (x : Session) (h : Header) (chunk : Bytes) (ts : Word64)
    (a : AllocPort) : (acceptFrame w x extent h chunk ts a).SucceedsFrom w extent x := by
  rcases Nat.eq_zero_or_pos (min chunk.length (extent - x.payloadSize)) with hn | hn
  · rw [acceptFrame_nothing hn]
    exact finishFrame_succeeds (x.succeeds_absorb ..) h a
  · cases hb : x.payload with
    | some b =>
      rw [acceptFrame_buffer hn hb]
      exact finishFrame_succeeds (Session.succeeds_store hn h ts b) h a
    | none =>
      cases hg : a.answer 0 with
      | true =>
        rw [acceptFrame_granted hn hb hg]
        exact finishFrame_succeeds (Session.succeeds_store hn h ts _) h _
      | false =>
        rw [acceptFrame_denied hn hb hg]
        rintro z ⟨⟩
        exact Session.succeeds_advanced rfl

theorem matchFrame_succeeds (w extent : Nat) (x : Session) (h : Header) (chunk : Bytes) (ts : Word64) (rti : Byte)
    (a : AllocPort) : (matchFrame w x extent h chunk ts rti a).SucceedsFrom w extent x := by
  unfold matchFrame
  split_ifs
  · rintro z ⟨⟩
  · rintro z ⟨⟩
    exact Session.succeeds_advanced rfl
  · exact acceptFrame_succeeds w extent x h chunk ts a

/-- What descends from the cleared session descends from the session. -/
theorem Session.Succeeds.of_retargeted {w extent : Nat} {x y : Session} {tid : Word64} {rti : Byte}
    (h : (x.retargeted tid rti).Succeeds w extent y) : x.Succeeds w extent y :=
  ⟨h.obj, h.total, h.stored.trans (max_le_max_right extent (Nat.zero_le _))⟩

theorem acceptInSession_succeeds (w : Nat) (x : Session) (sub : Subscription) (h : Header) (chunk : Bytes) (ts : Word64)
    (rti : Byte) (a : AllocPort) : (acceptInSession w x sub h chunk ts rti a).SucceedsFrom w sub.extent x := by
  unfold acceptInSession
  split_ifs
  · exact fun y hy => .of_retargeted (matchFrame_succeeds _ _ _ _ _ _ _ _ y hy)
  · exact matchFrame_succeeds w sub.extent x h chunk ts rti a

/-- A session is written for a named node only, and descends from the node's own or, where it has none, from a fresh
one. -/
theorem acceptMatched_written {sub : Subscription} {h : Header} {chunk : Bytes} {ts : Word64} {rti : Byte} {p : Params}
    {a : AllocPort} {y : Session} (hy : (acceptMatched sub h chunk ts rti p a).session = some y) :
    h.sourceNodeId ≠ 0xFFFF#16 ∧ ∃ x, x.Succeeds p.sizeW sub.extent y
      ∧ (Map.find h.sourceNodeId.toNat sub.sessions = some x
        ∨ (Map.find h.sourceNodeId.toNat sub.sessions = none ∧ x.payloadSize = 0)) := by
  by_cases hs : h.sourceNodeId = 0xFFFF#16
  · rw [acceptMatched_anonymous hs, acceptAnonymous_session] at hy
    cases hy
  · refine ⟨hs, ?_⟩
    cases hx : Map.find h.sourceNodeId.toNat sub.sessions with
    | some x =>
      rw [acceptMatched_of_session hs hx] at hy
      exact ⟨x, acceptInSession_succeeds _ _ _ _ _ _ _ _ y hy, .inl rfl⟩
    | none =>
      rw [acceptMatched_of_noSession hs hx] at hy
      split_ifs at hy
      split at hy
      · cases hy
      · rename_i o a' _
        exact ⟨.fresh ts h.transferId rti o, acceptInSession_succeeds _ _ _ _ _ _ _ _ y hy, .inr ⟨rfl, rfl⟩⟩

/-! ### R279 -/

/-- The subscription after one session of it is written, against the one before. -/
structure Subscription.OneSessionWritten (sub sub' : Subscription) (node : Nat) : Prop where
  portId : sub'.portId = sub.portId
  extent : sub'.extent = sub.extent
  timeout : sub'.transferIdTimeout = sub.transferIdTimeout
  kept : ∀ n x, Map.find n sub.sessions = some x → ∃ y, Map.find n sub'.sessions = some y ∧ y.obj = x.obj
  others : ∀ n, n ≠ node → Map.find n sub'.sessions = Map.find n sub.sessions

theorem Subscription.oneSessionWritten_putSession {sub : Subscription} {node : Nat} {y : Session}
    (hy : ∀ x, Map.find node sub.sessions = some x → y.obj = x.obj) :
    sub.OneSessionWritten (sub.putSession node y) node where
  portId := rfl
  extent := rfl
  timeout := rfl
  kept n x hx := by
    by_cases hn : n = node
    · subst hn
      exact ⟨y, Map.find_insert_same .., hy x hx⟩
    · exact ⟨x, by rw [Subscription_putSession_sessions, Map.find_insert_other hn, hx], rfl⟩
  others n hn := Map.find_insert_other hn ..

/-- An accepted frame changes nothing, or writes the session of its sender in the subscription it found. -/
theorem exec_rxAccept_writes {i : Nat} {ts : Word64} {frame : Bytes} {rti : Byte} {s t : State}
    (h : exec (.rxAccept i ts frame rti) s = .next t) :
    t.txq = s.txq ∧ (t.ins = s.ins ∨ ∃ I sub sub', s.ins[i]? = some I
      ∧ I.findSub (kindOfSpecifier (le16At frame 6)) (portOfSpecifier (le16At frame 6)) = some sub
      ∧ sub.OneSessionWritten sub' (le16At frame 2).toNat
      ∧ t.ins = s.ins.set i (I.putSub (kindOfSpecifier (le16At frame 6)) (portOfSpecifier (le16At frame 6)) sub')) := by
  rcases execRxAccept_next h with ⟨hins, htxq, -⟩ | ⟨I, sub, hd, chunk, hf, rfl⟩
  · exact ⟨htxq, .inl hins⟩
  · obtain ⟨hI, hdec, -, hsub⟩ := hf
    obtain ⟨-, -, -, rfl, -⟩ := decodeFrame_some.1 hdec
    cases hr : (acceptMatched sub (headerOf frame) chunk ts rti s.params s.allocPort).session with
    | none => exact ⟨by simp [commitAccepted, hr], .inl (by simp [commitAccepted, hr])⟩
    | some y =>
      obtain ⟨-, x, hy, hx⟩ := acceptMatched_written hr
      refine ⟨by simp [commitAccepted, hr], .inr ⟨I, sub, _, (validIns_eq_some.1 hI).1, hsub,
        Subscription.oneSessionWritten_putSession (y := y) fun x' hx' => ?_, by simp only [commitAccepted, hr]; rfl⟩⟩
      rcases hx with hx | ⟨hx, -⟩
      · exact Option.some.inj (hx.symm.trans hx') ▸ hy.obj
      · cases hx.symm.trans hx'

/-- Settles O53. -/
theorem acceptTouchesOneSession : Obligations.AcceptTouchesOneSession := by
  intro i ts frame rti s t h
  obtain ⟨htxq, hins⟩ := exec_rxAccept_writes h
  refine ⟨htxq, fun I J hI hJ => ?_⟩
  rcases hins with hins | ⟨I', sub, sub', hI', hsub, hw, hins⟩
  · rw [hins, hI] at hJ
    cases hJ
    exact ⟨rfl, rfl, fun k p => ⟨id, fun sub hsub => ⟨sub, hsub, rfl, rfl, rfl, fun n x hx => ⟨x, hx, rfl⟩, fun _ _ => rfl⟩⟩⟩
  · rw [hI] at hI'
    cases hI'
    rw [hins, List.getElem?_set_self (List.getElem?_eq_some_iff.1 hI).1] at hJ
    cases hJ
    refine ⟨rfl, rfl, fun k p => ?_⟩
    by_cases hkp : (k, p) = (kindOfSpecifier (le16At frame 6), portOfSpecifier (le16At frame 6))
    · cases hkp
      rw [hsub, Instance.findSub_putSub_same]
      refine ⟨nofun, fun _ e => ?_⟩
      cases e
      exact ⟨sub', rfl, hw.portId, hw.extent, hw.timeout, hw.kept, fun n hn =>
        hw.others n (hn.resolve_right (by simp))⟩
    · rw [Instance.findSub_putSub_other hkp]
      exact ⟨id, fun sub hsub => ⟨sub, hsub, rfl, rfl, rfl, fun n x hx => ⟨x, hx, rfl⟩, fun _ _ => rfl⟩⟩

/-! ### Conditions on the entries of a registry -/

/-- Every subscription of every kind, with its key, meets `P`. -/
abbrev Registry.All (P : TransferKind → Nat × Subscription → Prop) (r : Registry) : Prop := ∀ k, ∀ e ∈ r.get k, P k e

theorem Registry.All.put {P : TransferKind → Nat × Subscription → Prop} {r : Registry} (h : r.All P) {k : TransferKind}
    {m : Map Subscription} (hm : ∀ e ∈ m, P k e) : (r.put k m).All P := by
  intro j
  by_cases hj : j = k
  · subst hj
    rwa [Registry_get_put]
  · rw [Registry_get_put_other _ _ _ _ hj]
    exact h j

theorem Registry.All.putSub {P : TransferKind → Nat × Subscription → Prop} {I : Instance} (h : I.subs.All P)
    {k : TransferKind} {p : Word16} {sub : Subscription} (hsub : P k (p.toNat, sub)) : (I.putSub k p sub).subs.All P := by
  refine h.put fun e he => ?_
  rcases Map.mem_insert he with rfl | he
  · exact hsub
  · exact h k e he

theorem Registry.All.dropSub {P : TransferKind → Nat × Subscription → Prop} {I : Instance} (h : I.subs.All P)
    (k : TransferKind) (p : Word16) : (I.dropSub k p).subs.All P :=
  h.put fun e he => h k e (Map.mem_of_mem_erase he)

theorem Registry.All.findSub {P : TransferKind → Nat × Subscription → Prop} {I : Instance} (h : I.subs.All P)
    {k : TransferKind} {p : Word16} {sub : Subscription} (hf : I.findSub k p = some sub) : P k (p.toNat, sub) :=
  h k _ (Map.mem_of_find hf)

theorem Registry.all_fresh (P : TransferKind → Nat × Subscription → Prop) : Instance.fresh.subs.All P := by
  intro k e he
  cases k <;> cases he

/-- A condition on every context is kept where one is written that meets it. -/
theorem forall_mem_set {α : Type} {P : α → Prop} {l l' : List α} {i : Nat} {x : α} (h : ∀ y ∈ l, P y) (hx : P x)
    (hl : l' = l.set i x) : ∀ y ∈ l', P y := by
  subst hl
  intro y hy
  rcases List.mem_or_eq_of_mem_set hy with hy | rfl
  · exact h y hy
  · exact hx

/-! ### Widths -/

/-- The extent and the session counts of a subscription fit the width. -/
abbrev Subscription.SizesFit (w : Nat) (sub : Subscription) : Prop :=
  sub.extent < 2 ^ w ∧ ∀ f ∈ sub.sessions, f.2.SizesFit w

/-- The sizes of every receive context fit the width. -/
abbrev insSizesFit (w : Nat) (ins : List Instance) : Prop := ∀ I ∈ ins, I.subs.All fun _ e => e.2.SizesFit w

theorem sizesFit_iff {s : State} :
    s.SizesFit ↔ insSizesFit s.params.sizeW s.ins ∧ ∀ Q ∈ s.txq, Q.SizesFit s.params.sizeW := by
  refine and_congr_left fun _ => forall₂_congr fun I _ => ⟨fun ⟨hm, hr, hq⟩ k => ?_, fun h => ?_⟩
  · cases k with
    | message => exact hm
    | response => exact hr
    | request => exact hq
  · exact ⟨h .message, h .response, h .request⟩

theorem Session.Succeeds.sizesFit {w extent : Nat} {x y : Session} (h : x.Succeeds w extent y) (h4 : 4 < 2 ^ w)
    (he : extent < 2 ^ w) (hx : x.payloadSize < 2 ^ w) : y.SizesFit w := by
  refine ⟨?_, h.stored.trans_lt (max_lt hx he)⟩
  rcases h.total with h0 | ⟨t, n, h0⟩
  · rw [h0]; exact Nat.two_pow_pos w
  · rw [h0]; exact addCount_lt he h4 t n

theorem Subscription.SizesFit.putSession {w : Nat} {sub : Subscription} (h : sub.SizesFit w) {y : Session}
    (hy : y.SizesFit w) (n : Nat) : (sub.putSession n y).SizesFit w := by
  refine ⟨h.1, fun f hf => ?_⟩
  rcases Map.mem_insert hf with rfl | hf
  · exact hy
  · exact h.2 f hf

theorem Subscription.sizesFit_fresh {w extent : Nat} (he : extent < 2 ^ w) (p : Word16) (timeout : Word64) :
    (Subscription.fresh p extent timeout).SizesFit w := ⟨he, by simp [Subscription.fresh]⟩

/-- A written session fits the width where the subscription does. -/
theorem sizesFit_acceptsInto {sub : Subscription} {h : Header} {chunk : Bytes} {ts : Word64} {rti : Byte} {p : Params}
    {a : AllocPort} {y : Session} (h4 : 4 < 2 ^ p.sizeW) (hsub : sub.SizesFit p.sizeW)
    (hy : (acceptMatched sub h chunk ts rti p a).session = some y) : y.SizesFit p.sizeW := by
  obtain ⟨-, x, hxy, hx⟩ := acceptMatched_written hy
  refine hxy.sizesFit h4 hsub.1 ?_
  rcases hx with hx | ⟨-, hx⟩
  · exact (hsub.2 _ (Map.mem_of_find hx)).2
  · rw [hx]; exact Nat.two_pow_pos _

/-- No command writes the parameters. -/
theorem step_params {s t : State} (h : step s = .next t) : t.params = s.params := by
  rcases step_next h with rfl | ⟨later, r, rfl⟩ | ⟨record, later, i, rest, -, -, he⟩
  · rfl
  · rfl
  · obtain ⟨c, -, rfl⟩ := exec_next he
    rfl

theorem mem_txq_of_validTxq {s : State} {q : Nat} {Q : TxQueue} (h : s.validTxq q = some Q) : Q ∈ s.txq :=
  List.mem_of_getElem? (validTxq_eq_some.1 h).1

/-- A granted push stays within the capacity. -/
theorem length_items_of_framesOf {f : FrameFields} {payload : Bytes} {C : Nat} (objs : List ObjId) (deadline : Word64)
    (sp : Specifier) (seq : Nat) :
    (itemsOf f.priority f.transferId deadline sp seq ((framesOf f payload C).zip objs)).length
      ≤ frameCount (payload.length + 4) C := by
  rw [itemsOf_length, List.length_zip, framesOf_length]
  exact min_le_left _ _

/-- Settles O57, by cases on what a step can do. -/
theorem stepKeepsSizesWithinWidth : Obligations.StepKeepsSizesWithinWidth := by
  intro s t h4 hs hstep
  obtain ⟨hins, htxq⟩ := sizesFit_iff.1 hs
  have hvalid : ∀ {i I}, s.validIns i = some I → I.subs.All fun _ e => e.2.SizesFit s.params.sizeW :=
    fun h => hins _ (mem_ins_of_validIns h)
  rw [sizesFit_iff, step_params hstep]
  cases step_effect hstep with
  | keeps hi hq => exact ⟨hi ▸ hins, hq ▸ htxq⟩
  | initialises _ _ _ hi hq => exact ⟨forall_mem_set hins (Registry.all_fresh _) hi, hq ▸ htxq⟩
  | renames _ I n h hi hq =>
    exact ⟨forall_mem_set (P := fun I => I.subs.All fun _ e => e.2.SizesFit s.params.sizeW)
      (x := { I with nodeId := n }) hins (hvalid h) hi, hq ▸ htxq⟩
  | subscribes _ _ _ p _ m he h _ _ hi hq =>
    exact ⟨forall_mem_set hins ((hvalid h).putSub (Subscription.sizesFit_fresh he p m)) hi, hq ▸ htxq⟩
  | replaces _ _ _ p _ m _ he h _ _ hi hq =>
    exact ⟨forall_mem_set hins ((hvalid h).putSub (Subscription.sizesFit_fresh he p m)) hi, hq ▸ htxq⟩
  | unsubscribes _ _ k p _ h _ hi hq => exact ⟨forall_mem_set hins ((hvalid h).dropSub k p) hi, hq ▸ htxq⟩
  | accepts _ _ _ _ _ _ _ _ _ _ hi hq => exact ⟨hi ▸ hins, hq ▸ htxq⟩
  | acceptsInto _ _ _ _ _ _ _ _ _ hf hy hi hq =>
    have hsub := (hvalid hf.1).findSub hf.2.2.2
    exact ⟨forall_mem_set hins ((hvalid hf.1).putSub (hsub.putSession (sizesFit_acceptsInto h4 hsub hy) _)) hi, hq ▸ htxq⟩
  | opensQueue _ _ _ _ hc hm _ hi hq =>
    exact ⟨hi ▸ hins, forall_mem_set htxq ⟨hc, hm, Nat.two_pow_pos _⟩ hq⟩
  | pushDenied _ _ _ hi hq => exact ⟨hi ▸ hins, hq ▸ htxq⟩
  | pushes _ Q f payload deadline sp objs _ h _ _ hc _ hi hq =>
    obtain ⟨hcap, hmtu, -⟩ := htxq Q (mem_txq_of_validTxq h)
    have hlen := length_items_of_framesOf (f := f) (payload := payload) (C := Q.mtuBytes - 24) objs deadline sp Q.nextSeq
    have hsize : (Q.commit (itemsOf f.priority f.transferId deadline sp Q.nextSeq
        ((framesOf f payload (Q.mtuBytes - 24)).zip objs))).size ≤ Q.capacity := by
      rw [TxQueue_commit_size]
      omega
    exact ⟨hi ▸ hins, forall_mem_set (P := fun Q => Q.SizesFit s.params.sizeW) htxq ⟨hcap, hmtu, hsize.trans_lt hcap⟩ hq⟩
  | pops _ id Q _ h _ hi hq =>
    obtain ⟨hcap, hmtu, hsize⟩ := htxq Q (mem_txq_of_validTxq h)
    exact ⟨hi ▸ hins, forall_mem_set (P := fun Q => Q.SizesFit s.params.sizeW) (x := Q.withoutItem id) htxq
      ⟨hcap, hmtu, (Nat.sub_le ..).trans_lt hsize⟩ hq⟩

/-! ### The canonical form -/

/-- The entry of a subscription: keyed by its port-ID, in range, its sessions in canonical form below 65535. -/
abbrev SubWf (k : TransferKind) (e : Nat × Subscription) : Prop :=
  e.1 = e.2.portId.toNat ∧ e.1 ≤ portIdMax k ∧ Map.wf e.2.sessions = true ∧ ∀ f ∈ e.2.sessions, f.1 < Config.sessionSlots

theorem Registry.wf_iff_all {r : Registry} : r.WF ↔ (∀ k, Map.wf (r.get k) = true) ∧ r.All SubWf :=
  Registry.wf_iff.trans forall_and

theorem Registry.wf_put {r : Registry} (h : r.WF) {k : TransferKind} {m : Map Subscription} (hm : Map.wf m = true)
    (hall : (r.put k m).All SubWf) : (r.put k m).WF := by
  refine Registry.wf_iff_all.2 ⟨fun j => ?_, hall⟩
  by_cases hj : j = k
  · subst hj
    rwa [Registry_get_put]
  · rw [Registry_get_put_other _ _ _ _ hj]
    exact (Registry.wf_iff_all.1 h).1 j

theorem Registry.WF.putSub {I : Instance} (h : I.subs.WF) {k : TransferKind} {p : Word16} {sub : Subscription}
    (hsub : SubWf k (p.toNat, sub)) : (I.putSub k p sub).subs.WF := by
  obtain ⟨hmaps, hall⟩ := Registry.wf_iff_all.1 h
  exact Registry.wf_put h (Map.wf_insert (hmaps k)) (hall.putSub hsub)

theorem Registry.WF.dropSub {I : Instance} (h : I.subs.WF) (k : TransferKind) (p : Word16) :
    (I.dropSub k p).subs.WF := by
  obtain ⟨hmaps, hall⟩ := Registry.wf_iff_all.1 h
  exact Registry.wf_put h (Map.wf_erase (hmaps k)) (hall.dropSub k p)

theorem Registry.WF.findSub {I : Instance} (h : I.subs.WF) {k : TransferKind} {p : Word16} {sub : Subscription}
    (hf : I.findSub k p = some sub) : SubWf k (p.toNat, sub) := (Registry.wf_iff_all.1 h).2.findSub hf

theorem subWf_fresh {k : TransferKind} {p : Word16} (hp : portInRange k p = true) (extent : Nat) (timeout : Word64) :
    SubWf k (p.toNat, .fresh p extent timeout) :=
  ⟨rfl, portInRange_iff.1 hp, rfl, by simp [Subscription.fresh]⟩

/-- A session is written under a named node. -/
theorem SubWf.putSession {k : TransferKind} {p : Word16} {sub : Subscription} (h : SubWf k (p.toNat, sub)) {n : Word16}
    (hn : n ≠ 0xFFFF#16) (y : Session) : SubWf k (p.toNat, sub.putSession n.toNat y) := by
  obtain ⟨hkey, hrange, hmap, hnodes⟩ := h
  have hlt : n.toNat < 65535 := by
    have := n.isLt
    have : n.toNat ≠ 65535 := fun e => hn (BitVec.eq_of_toNat_eq e)
    omega
  refine ⟨hkey, hrange, Map.wf_insert hmap, fun f hf => ?_⟩
  rcases Map.mem_insert hf with rfl | hf
  · exact hlt
  · exact hnodes f hf

/-- Settles O58, by cases on what a step can do. -/
theorem stepKeepsRegistryCanonical : Obligations.StepKeepsRegistryCanonical := by
  intro s t hs hstep
  have hvalid : ∀ {i I}, s.validIns i = some I → I.subs.WF := fun h => hs _ (mem_ins_of_validIns h)
  have hsame : t.ins = s.ins → t.RegistryWF := fun hi I hI => hs I (hi ▸ hI)
  cases step_effect hstep with
  | keeps hi => exact hsame hi
  | initialises _ _ _ hi => exact forall_mem_set hs Registry.wf_empty hi
  | renames _ I n h hi =>
    exact forall_mem_set (P := fun I => I.subs.WF) (x := { I with nodeId := n }) hs (hvalid h) hi
  | subscribes _ _ _ _ e m _ h hp _ hi => exact forall_mem_set hs ((hvalid h).putSub (subWf_fresh hp e m)) hi
  | replaces _ _ _ _ e m _ _ h hp _ hi => exact forall_mem_set hs ((hvalid h).putSub (subWf_fresh hp e m)) hi
  | unsubscribes _ _ k p _ h _ hi => exact forall_mem_set hs ((hvalid h).dropSub k p) hi
  | accepts _ _ _ _ _ _ _ _ _ _ hi => exact hsame hi
  | acceptsInto _ _ _ _ _ _ _ _ y hf hy hi =>
    have hsub := (hvalid hf.1).findSub hf.2.2.2
    exact forall_mem_set hs ((hvalid hf.1).putSub (hsub.putSession (acceptMatched_written hy).1 y)) hi
  | opensQueue _ _ _ _ _ _ _ hi => exact hsame hi
  | pushDenied _ _ _ hi => exact hsame hi
  | pushes _ _ _ _ _ _ _ _ _ _ _ _ _ hi => exact hsame hi
  | pops _ _ _ _ _ _ hi => exact hsame hi

end Sys2Proof.Machine
end

section
/-! SUPPORT. The ownership ledger (R69, D8), kept by every step. The idea: a port holds a list of objects up to their
order (`AllocPort.Holds`); each transaction has its rule on that list, each write of a context its rule on the contexts'
objects, and a step is one of each. -/

namespace Sys2Proof.Machine

open Sys2Proof

/-! ### What a port holds -/

/-- The ledger is the set of these objects, each held once and older than the next one. -/
structure AllocPort.Holds (a : AllocPort) (objs : List ObjId) : Prop where
  nodup : objs.Nodup
  mem : ∀ o, o ∈ a.ledger ↔ o ∈ objs
  rising : a.ledger.Pairwise (fun x y => x < y)
  older : ∀ o ∈ a.ledger, o < a.nextObj

theorem ledgerInv_iff {s : State} : s.LedgerInv ↔ s.allocPort.Holds s.objects :=
  ⟨fun ⟨h1, h2, h3, h4⟩ => ⟨h1, h2, h3, h4⟩, fun ⟨h1, h2, h3, h4⟩ => ⟨h1, h2, h3, h4⟩⟩

theorem AllocPort.Holds.perm {a : AllocPort} {l l' : List ObjId} (h : a.Holds l) (hl : l.Perm l') : a.Holds l' :=
  ⟨hl.nodup_iff.1 h.nodup, fun o => (h.mem o).trans hl.mem_iff, h.rising, h.older⟩

/-- A transaction that leaves the ledger leaves what it holds. -/
theorem AllocPort.Holds.of_ledger {a b : AllocPort} {l : List ObjId} (h : a.Holds l) (hl : b.ledger = a.ledger)
    (hn : b.nextObj = a.nextObj) : b.Holds l :=
  ⟨h.nodup, fun o => hl ▸ h.mem o, hl ▸ h.rising, fun o ho => hn ▸ h.older o (hl ▸ ho)⟩

/-- Objects that leave the ledger. -/
theorem AllocPort.Holds.drop {a b : AllocPort} {objs l : List ObjId} (h : a.Holds (objs ++ l))
    (hl : b.ledger = a.ledger.filter fun o => decide (o ∉ objs)) (hn : b.nextObj = a.nextObj) : b.Holds l := by
  obtain ⟨-, hnodup, hdisj⟩ := List.nodup_append.1 h.nodup
  refine ⟨hnodup, fun o => ?_, hl ▸ h.rising.filter _, fun o ho => hn ▸ h.older o (List.mem_of_mem_filter (hl ▸ ho))⟩
  rw [hl, List.mem_filter, h.mem o, List.mem_append, decide_eq_true_iff]
  constructor
  · rintro ⟨ho | ho, hno⟩
    · exact absurd ho hno
    · exact ho
  · exact fun ho => ⟨.inr ho, fun ho' => hdisj o ho' o ho rfl⟩

theorem AllocPort.Holds.release {a : AllocPort} {objs l : List ObjId} (h : a.Holds (objs ++ l)) :
    (a.release objs).Holds l := h.drop rfl rfl

theorem AllocPort.Holds.freeSet {a : AllocPort} {objs l : List ObjId} (h : a.Holds (objs ++ l)) :
    (a.freeSet objs).Holds l := h.drop (freeSet_ledger objs a) (freeSet_nextObj objs a)

/-- The names of the next `n` objects. -/
abbrev AllocPort.nextObjs (a : AllocPort) (n : Nat) : List ObjId := (List.range n).map (a.nextObj + ·)

/-- New objects. -/
theorem AllocPort.Holds.grow {a b : AllocPort} {l : List ObjId} (h : a.Holds l) {n : Nat}
    (hl : b.ledger = a.ledger ++ a.nextObjs n) (hn : b.nextObj = a.nextObj + n) : b.Holds (a.nextObjs n ++ l) := by
  have hnew : ∀ {o}, o ∈ a.nextObjs n → a.nextObj ≤ o ∧ o < a.nextObj + n := by
    intro o ho
    obtain ⟨j, hj, rfl⟩ := List.mem_map.1 ho
    exact ⟨Nat.le_add_right .., Nat.add_lt_add_left (List.mem_range.1 hj) _⟩
  have hrising : (a.nextObjs n).Pairwise (fun x y => x < y) :=
    List.pairwise_map.2 (List.pairwise_lt_range.imp fun h => Nat.add_lt_add_left h _)
  refine ⟨List.nodup_append.2 ⟨hrising.imp Nat.ne_of_lt, h.nodup, fun o ho o' ho' => ?_⟩, fun o => ?_, ?_, fun o ho => ?_⟩
  · exact ((h.older o' ((h.mem o').2 ho')).trans_le (hnew ho).1).ne'
  · rw [hl, List.mem_append, List.mem_append, h.mem o, or_comm]
  · rw [hl]
    refine List.pairwise_append.2 ⟨h.rising, hrising, fun o ho o' ho' => ?_⟩
    exact lt_of_lt_of_le (h.older o ho) (hnew ho').1
  · rw [hn]
    rw [hl, List.mem_append] at ho
    rcases ho with ho | ho
    · exact Nat.lt_add_right n (h.older o ho)
    · exact (hnew ho).2

theorem AllocPort.Holds.alloc_granted {a : AllocPort} {l : List ObjId} (h : a.Holds l) (hg : a.answer 0 = true) (n : Nat) :
    (a.alloc n).2.Holds (a.nextObj :: l) := by
  rw [Machine.alloc_granted hg]
  exact h.grow (n := 1) rfl rfl

theorem AllocPort.Holds.alloc_denied {a : AllocPort} {l : List ObjId} (h : a.Holds l) (hg : a.answer 0 = false) (n : Nat) :
    (a.alloc n).2.Holds l := by
  rw [Machine.alloc_denied hg]
  exact h.of_ledger rfl rfl

/-- The requests of a transfer are all granted, or there is a first denial. -/
theorem answers_granted_or_denied (a : AllocPort) (n : Nat) :
    (∀ j < n, a.answer j = true) ∨ ∃ m < n, (∀ j < m, a.answer j = true) ∧ a.answer m = false := by
  induction n with
  | zero => exact .inl nofun
  | succ n ih =>
    rcases ih with hall | ⟨m, hm, hd⟩
    · cases hn : a.answer n with
      | false => exact .inr ⟨n, n.lt_succ_self, hall, hn⟩
      | true =>
        refine .inl fun j hj => ?_
        rcases Nat.lt_succ_iff_lt_or_eq.1 hj with hj | rfl
        · exact hall j hj
        · exact hn
    · exact .inr ⟨m, Nat.lt_succ_of_lt hm, hd⟩

/-- A transfer whose frames were all granted has one new object per frame. -/
theorem allocFrames_eq_some {overhead : Nat} {frames : List Bytes} {a a' : AllocPort} {objs : List ObjId}
    (h : allocFrames overhead frames [] a = (some objs, a')) :
    objs = a.nextObjs frames.length ∧ a'.ledger = a.ledger ++ objs ∧ a'.nextObj = a.nextObj + frames.length := by
  rcases answers_granted_or_denied a frames.length with hall | ⟨m, hm, hg, hd⟩
  · rw [allocFrames_granted overhead frames [] a hall] at h
    cases h
    exact ⟨rfl, rfl, rfl⟩
  · rw [allocFrames_denied overhead frames [] a m hm hg hd] at h
    cases h

theorem AllocPort.Holds.allocFrames_granted {overhead : Nat} {frames : List Bytes} {a a' : AllocPort} {objs l : List ObjId}
    (h : a.Holds l) (hf : allocFrames overhead frames [] a = (some objs, a')) : a'.Holds (objs ++ l) := by
  obtain ⟨rfl, hledger, hnext⟩ := allocFrames_eq_some hf
  exact h.grow hledger hnext

/-- A denied transfer gives back what it was granted. -/
theorem AllocPort.Holds.allocFrames_denied {overhead : Nat} {frames : List Bytes} {a a' : AllocPort} {l : List ObjId}
    (h : a.Holds l) (hf : allocFrames overhead frames [] a = (none, a')) : a'.Holds l := by
  rcases answers_granted_or_denied a frames.length with hall | ⟨m, hm, hg, hd⟩
  · rw [Machine.allocFrames_granted overhead frames [] a hall] at hf
    cases hf
  · rw [Machine.allocFrames_denied overhead frames [] a m hm hg hd, freeEach_eq] at hf
    cases hf
    have hgrown : AllocPort.Holds { a with ledger := a.ledger ++ a.nextObjs m, nextObj := a.nextObj + m }
        (a.nextObjs m ++ l) := h.grow rfl rfl
    exact hgrown.drop rfl rfl

/-! ### Sessions -/

theorem Session.objects_of_none {x : Session} (h : x.payload = none) : x.objects = [x.obj] := by
  simp [Session.objects, h]

theorem Session.objects_of_some {x : Session} {b : Buffer} (h : x.payload = some b) : x.objects = [x.obj, b.obj] := by
  simp [Session.objects, h]

/-- The two ways a session gives up its buffer, and a session without one: what is left is the session itself. -/
theorem AllocPort.Holds.freePayload {a : AllocPort} {x : Session} {rest : List ObjId} (h : a.Holds (x.objects ++ rest)) :
    (x.freePayload a).Holds (x.obj :: rest) := by
  cases hp : x.payload with
  | none =>
    rw [Session.objects_of_none hp] at h
    simpa [Session.freePayload, hp] using h
  | some b =>
    rw [Session.objects_of_some hp] at h
    rw [Session.freePayload, hp]
    exact (h.perm (List.Perm.swap b.obj x.obj rest)).drop (objs := [b.obj]) rfl rfl

theorem AllocPort.Holds.handOver {a : AllocPort} {x : Session} {rest : List ObjId} (h : a.Holds (x.objects ++ rest)) :
    (match x.payload with | some b => a.release [b.obj] | none => a : AllocPort).Holds (x.obj :: rest) := by
  cases hp : x.payload with
  | none =>
    rw [Session.objects_of_none hp] at h
    exact h
  | some b =>
    rw [Session.objects_of_some hp] at h
    exact (h.perm (List.Perm.swap b.obj x.obj rest)).release (objs := [b.obj])

/-- Steps 7 to 12 write a session, and the port then holds that session's objects and the rest. -/
abbrev Accepted.WritesHolding (rest : List ObjId) (r : Accepted) : Prop :=
  ∃ y, r.session = some y ∧ r.port.Holds (y.objects ++ rest)

section
variable {rest : List ObjId} {a : AllocPort} {x : Session} (w : Nat) (h : Header) (chunk : Bytes) (ts : Word64)

theorem finishFrame_holds (ha : a.Holds (x.objects ++ rest)) : (finishFrame x h a).WritesHolding rest := by
  unfold finishFrame
  split_ifs
  · exact ⟨x.advanced, rfl, ha.handOver⟩
  · exact ⟨x.advanced, rfl, ha.freePayload⟩
  · exact ⟨_, rfl, ha⟩

theorem acceptFrame_holds (extent : Nat) (ha : a.Holds (x.objects ++ rest)) :
    (acceptFrame w x extent h chunk ts a).WritesHolding rest := by
  rcases Nat.eq_zero_or_pos (min chunk.length (extent - x.payloadSize)) with hn | hn
  · rw [acceptFrame_nothing hn]
    exact finishFrame_holds h ha
  · cases hb : x.payload with
    | some b =>
      rw [acceptFrame_buffer hn hb]
      rw [Session.objects_of_some hb] at ha
      exact finishFrame_holds h ha
    | none =>
      rw [Session.objects_of_none hb] at ha
      cases hg : a.answer 0 with
      | true =>
        rw [acceptFrame_granted hn hb hg]
        exact finishFrame_holds h ((ha.alloc_granted hg extent).perm (List.Perm.swap x.obj a.nextObj rest))
      | false =>
        rw [acceptFrame_denied hn hb hg]
        exact ⟨_, rfl, ha.alloc_denied hg extent⟩

/-- A frame of the expected transfer on the session's transport. -/
theorem matchFrame_holds (extent : Nat) {rti : Byte} (ht : h.transferId = x.transferId)
    (hr : rti = x.redundantTransportIndex) (ha : a.Holds (x.objects ++ rest)) :
    (matchFrame w x extent h chunk ts rti a).WritesHolding rest := by
  by_cases hi : h.frameIndex.toNat = x.lastFrameIndex.toNat + 1
  · rw [matchFrame_next ht hr hi]
    exact acceptFrame_holds w h chunk ts extent ha
  · rw [matchFrame_outOfSequence ht hr hi]
    exact ⟨x.advanced, rfl, ha.freePayload⟩

/-- A frame that restarts the session: then it matches. -/
theorem acceptInSession_holds_of_restarts (sub : Subscription) {rti : Byte}
    (hres : restartsToFrame x sub.transferIdTimeout h ts rti = true) (ha : a.Holds (x.objects ++ rest)) :
    (acceptInSession w x sub h chunk ts rti a).WritesHolding rest := by
  rw [acceptInSession, if_pos hres]
  exact matchFrame_holds (x := x.retargeted h.transferId rti) w h chunk ts sub.extent rfl rfl ha.freePayload

theorem acceptInSession_holds_of_matches (sub : Subscription) {rti : Byte} (ht : h.transferId = x.transferId)
    (hr : rti = x.redundantTransportIndex) (ha : a.Holds (x.objects ++ rest)) :
    (acceptInSession w x sub h chunk ts rti a).WritesHolding rest := by
  by_cases hres : restartsToFrame x sub.transferIdTimeout h ts rti = true
  · exact acceptInSession_holds_of_restarts w h chunk ts sub hres ha
  · rw [acceptInSession, if_neg hres]
    exact matchFrame_holds w h chunk ts sub.extent ht hr ha

theorem acceptInSession_holds (sub : Subscription) (rti : Byte) (ha : a.Holds (x.objects ++ rest)) :
    (acceptInSession w x sub h chunk ts rti a).WritesHolding rest
      ∨ (acceptInSession w x sub h chunk ts rti a).session = none ∧ (acceptInSession w x sub h chunk ts rti a).port = a := by
  by_cases hres : restartsToFrame x sub.transferIdTimeout h ts rti = true
  · exact .inl (acceptInSession_holds_of_restarts w h chunk ts sub hres ha)
  · by_cases hne : h.transferId ≠ x.transferId ∨ rti ≠ x.redundantTransportIndex
    · rw [acceptInSession, if_neg hres, matchFrame_other hne]
      exact .inr ⟨rfl, rfl⟩
    · obtain ⟨ht, hr⟩ : h.transferId = x.transferId ∧ rti = x.redundantTransportIndex := by tauto
      exact .inl (acceptInSession_holds_of_matches w h chunk ts sub ht hr ha)

theorem acceptAnonymous_holds (sub : Subscription) {objs : List ObjId} (ha : a.Holds objs) :
    (acceptAnonymous sub h chunk ts a).port.Holds objs := by
  by_cases hbad : chunk.length < 4 ∨ crc32cAdd Config.crc32cSeed chunk ≠ Config.crc32cResidue
  · rwa [acceptAnonymous, if_pos hbad]
  · by_cases hn : min sub.extent (chunk.length - 4) = 0
    · simpa only [acceptAnonymous, if_neg hbad, hn, if_true] using ha
    · cases hg : a.answer 0 with
      | true =>
        have hgrown := ha.alloc_granted hg (min sub.extent (chunk.length - 4))
        simp only [acceptAnonymous, if_neg hbad, if_neg hn, alloc_granted hg] at hgrown ⊢
        exact hgrown.release (objs := [a.nextObj])
      | false =>
        have hdenied := ha.alloc_denied hg (min sub.extent (chunk.length - 4))
        simpa only [acceptAnonymous, if_neg hbad, if_neg hn, alloc_denied hg] using hdenied

end

/-! ### The objects of a context -/

section
variable {α : Type}

/-- What is left of a map in canonical form whose first key is the erased one, or beyond it. -/
theorem Map.erase_eq_self {k : Nat} {m : Map α} (h : ∀ e ∈ m, e.1 ≠ k) : Map.erase k m = m :=
  List.filter_eq_self.2 fun e he => decide_eq_true (h e he)

theorem Map.erase_cons_same (k : Nat) (v : α) (m : Map α) : Map.erase k ((k, v) :: m) = Map.erase k m := by
  simp [Map.erase]

theorem Map.erase_cons_other {k k' : Nat} (h : k' ≠ k) (v : α) (m : Map α) :
    Map.erase k ((k', v) :: m) = (k', v) :: Map.erase k m := by
  simp [Map.erase, h]

theorem Map.insert_perm {k : Nat} {m : Map α} (hm : Map.wf m = true) (v : α) :
    (Map.insert k v m).Perm ((k, v) :: Map.erase k m) := by
  rw [Map.wf_iff] at hm
  induction m with
  | nil => exact .refl _
  | cons e m ih =>
    obtain ⟨k', v'⟩ := e
    obtain ⟨hfirst, hm⟩ := List.pairwise_cons.1 hm
    rcases Nat.lt_trichotomy k k' with hk | rfl | hk
    · rw [Map.insert, if_neg hk.ne, if_pos hk, Map.erase_cons_other hk.ne',
        Map.erase_eq_self fun e he => (hk.trans (hfirst e he)).ne']
    · rw [Map.insert, if_pos rfl, Map.erase_cons_same, Map.erase_eq_self fun e he => (hfirst e he).ne']
    · rw [Map.insert, if_neg hk.ne', if_neg hk.not_gt, Map.erase_cons_other hk.ne]
      exact ((ih hm).cons _).trans (.swap ..)

theorem Map.perm_of_find {k : Nat} {m : Map α} (hm : Map.wf m = true) {v : α} (hv : Map.find k m = some v) :
    m.Perm ((k, v) :: Map.erase k m) := by
  rw [Map.wf_iff] at hm
  induction m with
  | nil => cases hv
  | cons e m ih =>
    obtain ⟨k', v'⟩ := e
    obtain ⟨hfirst, hm⟩ := List.pairwise_cons.1 hm
    by_cases hk : k = k'
    · subst hk
      rw [Map.find, if_pos rfl] at hv
      cases hv
      rw [Map.erase_cons_same, Map.erase_eq_self fun e he => (hfirst e he).ne']
    · rw [Map.find, if_neg hk] at hv
      rw [Map.erase_cons_other (Ne.symm hk)]
      exact ((ih hm hv).cons _).trans (.swap ..)

theorem Map.erase_of_find_none {k : Nat} {m : Map α} (hv : Map.find k m = none) : Map.erase k m = m := by
  induction m with
  | nil => rfl
  | cons e m ih =>
    obtain ⟨k', v'⟩ := e
    by_cases hk : k = k'
    · rw [Map.find, if_pos hk] at hv
      cases hv
    · rw [Map.find, if_neg hk] at hv
      rw [Map.erase_cons_other (Ne.symm hk), ih hv]

end

/-- The subscription without the session of a node. -/
def Subscription.dropSession (sub : Subscription) (node : Nat) : Subscription :=
  { sub with sessions := Map.erase node sub.sessions }

theorem Subscription.objects_putSession {sub : Subscription} (hm : Map.wf sub.sessions = true) (n : Nat) (y : Session) :
    (sub.putSession n y).objects.Perm (y.objects ++ (sub.dropSession n).objects) :=
  (Map.insert_perm hm y).flatMap_right _

theorem Subscription.objects_of_find {sub : Subscription} (hm : Map.wf sub.sessions = true) {n : Nat} {x : Session}
    (hx : Map.find n sub.sessions = some x) : sub.objects.Perm (x.objects ++ (sub.dropSession n).objects) :=
  (Map.perm_of_find hm hx).flatMap_right _

theorem Subscription.dropSession_of_none {sub : Subscription} {n : Nat} (hx : Map.find n sub.sessions = none) :
    sub.dropSession n = sub := by
  rw [Subscription.dropSession, Map.erase_of_find_none hx]

/-- The objects of one kind first. -/
theorem Registry.objects_put (r : Registry) (k : TransferKind) (m : Map Subscription) :
    (r.put k m).objects.Perm (m.flatMap (fun e => e.2.objects) ++ (r.put k []).objects) := by
  cases k with
  | message => simp [Registry.objects, Registry.put]
  | response =>
    simp only [Registry.objects, Registry.put, List.flatMap_nil, List.append_nil, ← List.append_assoc]
    exact List.perm_append_comm.append_right _
  | request =>
    simp only [Registry.objects, Registry.put, List.flatMap_nil, List.append_nil]
    exact List.perm_append_comm

theorem Registry.put_get (r : Registry) (k : TransferKind) : r.put k (r.get k) = r := by
  cases k <;> rfl

section
variable {I : Instance} {k : TransferKind} {p : Word16}

/-- The objects of the map of one kind are those of the subscription under a port-ID and those of the map without it. -/
theorem Instance.objects_of_map_perm (hv : I.valid = true) {m : Map Subscription} {sub : Subscription}
    (hm : m.Perm ((p.toNat, sub) :: Map.erase p.toNat (I.subs.get k))) :
    (I.subs.put k m).objects.Perm (sub.objects ++ (I.dropSub k p).objects) := by
  have hrest := (I.subs.objects_put k (Map.erase p.toNat (I.subs.get k))).symm
  rw [Instance.objects, Instance_dropSub_valid, if_pos hv, Instance_dropSub_subs]
  refine (I.subs.objects_put k m).trans (((hm.flatMap_right _).append_right _).trans ?_)
  rw [List.flatMap_cons, List.append_assoc]
  exact hrest.append_left _

theorem Instance.objects_putSub (hv : I.valid = true) (hm : Map.wf (I.subs.get k) = true) (sub : Subscription) :
    (I.putSub k p sub).objects.Perm (sub.objects ++ (I.dropSub k p).objects) := by
  rw [Instance.objects, Instance_putSub_valid, if_pos hv, Instance_putSub_subs]
  exact Instance.objects_of_map_perm hv (Map.insert_perm hm sub)

theorem Instance.objects_of_findSub (hv : I.valid = true) (hm : Map.wf (I.subs.get k) = true) {sub : Subscription}
    (hf : I.findSub k p = some sub) : I.objects.Perm (sub.objects ++ (I.dropSub k p).objects) := by
  have hperm := Instance.objects_of_map_perm hv (Map.perm_of_find hm hf)
  rw [Registry.put_get] at hperm
  rwa [Instance.objects, if_pos hv]

theorem Instance.dropSub_of_none (hf : I.findSub k p = none) : I.dropSub k p = I := by
  rw [Instance.dropSub, Map.erase_of_find_none hf, Registry.put_get]
  rfl

end

/-! ### The objects of the machine -/

section
variable {s t : State}

/-- The objects of a context file, one context's first. -/
theorem flatMap_set_perm {α : Type} (f : α → List ObjId) {l : List α} {i : Nat} (hi : i < l.length) (x : α) :
    ((l.set i x).flatMap f).Perm (f x ++ (l.eraseIdx i).flatMap f) :=
  (List.set_perm_cons_eraseIdx hi x).flatMap_right f

theorem flatMap_perm_of_getElem? {α : Type} (f : α → List ObjId) {l : List α} {i : Nat} {x : α} (hx : l[i]? = some x) :
    (l.flatMap f).Perm (f x ++ (l.eraseIdx i).flatMap f) := by
  obtain ⟨hi, rfl⟩ := List.getElem?_eq_some_iff.1 hx
  exact (List.getElem_cons_eraseIdx_perm hi).symm.flatMap_right f

theorem set_self {α : Type} {l : List α} {i : Nat} {x : α} (hx : l[i]? = some x) : l.set i x = l := by
  obtain ⟨hi, rfl⟩ := List.getElem?_eq_some_iff.1 hx
  exact List.set_getElem_self hi

/-- The ledger is kept where one receive context is written and the port changes by the objects of that context. -/
theorem ledgerInv_of_ins {i : Nat} {I J : Instance} (hI : s.ins[i]? = some I) (hi : t.ins = s.ins.set i J)
    (hq : t.txq = s.txq) (hport : ∀ rest, s.allocPort.Holds (I.objects ++ rest) → t.allocPort.Holds (J.objects ++ rest))
    (hs : s.LedgerInv) : t.LedgerInv := by
  have hlt := (List.getElem?_eq_some_iff.1 hI).1
  refine ledgerInv_iff.2 ((hport _ ((ledgerInv_iff.1 hs).perm (((flatMap_perm_of_getElem? _ hI).append_right _).trans
    (.of_eq (List.append_assoc ..))))).perm ?_)
  rw [State.objects, hi, hq, ← List.append_assoc]
  exact ((flatMap_set_perm _ hlt J).append_right _).symm

theorem ledgerInv_of_txq {q : Nat} {Q R : TxQueue} (hQ : s.txq[q]? = some Q) (hq : t.txq = s.txq.set q R)
    (hi : t.ins = s.ins) (hport : ∀ rest, s.allocPort.Holds (Q.objects ++ rest) → t.allocPort.Holds (R.objects ++ rest))
    (hs : s.LedgerInv) : t.LedgerInv := by
  have hlt := (List.getElem?_eq_some_iff.1 hQ).1
  refine ledgerInv_iff.2 ((hport _ ((ledgerInv_iff.1 hs).perm (List.perm_append_comm.trans
    (((flatMap_perm_of_getElem? _ hQ).append_right _).trans (.of_eq (List.append_assoc ..)))))).perm ?_)
  rw [State.objects, hi, hq, ← List.append_assoc]
  exact ((flatMap_set_perm _ hlt R).append_right _).symm.trans List.perm_append_comm

theorem ledgerInv_of_port (hi : t.ins = s.ins) (hq : t.txq = s.txq)
    (hport : ∀ objs, s.allocPort.Holds objs → t.allocPort.Holds objs) (hs : s.LedgerInv) : t.LedgerInv := by
  refine ledgerInv_iff.2 ?_
  rw [State.objects, hi, hq]
  exact hport _ (ledgerInv_iff.1 hs)

end

/-! ### Steps 5 to 12 against the subscription -/

/-- The subscription after steps 5 to 12. -/
def Accepted.subAfter (r : Accepted) (sub : Subscription) (node : Nat) : Subscription :=
  match r.session with
  | none => sub
  | some y => sub.putSession node y

theorem Accepted.subAfter_of_none {r : Accepted} (h : r.session = none) (sub : Subscription) (node : Nat) :
    r.subAfter sub node = sub := by
  simp [Accepted.subAfter, h]

theorem Accepted.subAfter_of_some {r : Accepted} {y : Session} (h : r.session = some y) (sub : Subscription) (node : Nat) :
    r.subAfter sub node = sub.putSession node y := by
  simp [Accepted.subAfter, h]

theorem Accepted.WritesHolding.subAfter {sub : Subscription} (hm : Map.wf sub.sessions = true) {node : Nat}
    {rest : List ObjId} {r : Accepted} (h : r.WritesHolding ((sub.dropSession node).objects ++ rest)) :
    r.port.Holds ((r.subAfter sub node).objects ++ rest) := by
  obtain ⟨y, hy, hr⟩ := h
  rw [Accepted.subAfter_of_some hy]
  refine hr.perm ?_
  rw [← List.append_assoc]
  exact (Subscription.objects_putSession hm node y).symm.append_right rest

theorem acceptMatched_holds {sub : Subscription} (hm : Map.wf sub.sessions = true) (h : Header) (chunk : Bytes)
    (ts : Word64) (rti : Byte) (p : Params) {a : AllocPort} {rest : List ObjId} (ha : a.Holds (sub.objects ++ rest)) :
    (acceptMatched sub h chunk ts rti p a).port.Holds
      (((acceptMatched sub h chunk ts rti p a).subAfter sub h.sourceNodeId.toNat).objects ++ rest) := by
  by_cases hs : h.sourceNodeId = 0xFFFF#16
  · rw [acceptMatched_anonymous hs, Accepted.subAfter_of_none (acceptAnonymous_session ..)]
    exact acceptAnonymous_holds h chunk ts sub ha
  · cases hx : Map.find h.sourceNodeId.toNat sub.sessions with
    | some x =>
      rw [acceptMatched_of_session hs hx]
      have hobjs := (Subscription.objects_of_find hm hx).append_right rest
      rw [List.append_assoc] at hobjs
      rcases acceptInSession_holds p.sizeW h chunk ts sub rti (ha.perm hobjs) with hw | ⟨hnone, hport⟩
      · exact hw.subAfter hm
      · rwa [Accepted.subAfter_of_none hnone, hport]
    | none =>
      rw [acceptMatched_of_noSession hs hx]
      split_ifs with hsot
      · exact ha
      · cases hg : a.answer 0 with
        | false =>
          have hdenied := ha.alloc_denied hg p.rxSessionSize
          simp only [alloc_denied hg] at hdenied ⊢
          exact hdenied
        | true =>
          have hgrown := ha.alloc_granted hg p.rxSessionSize
          simp only [alloc_granted hg] at hgrown ⊢
          refine (acceptInSession_holds_of_matches _ _ _ _ _ rfl rfl ?_).subAfter hm
          rw [Subscription.dropSession_of_none hx]
          exact hgrown

/-- The same for the machine that finds the subscription. -/
theorem acceptMatched_holds_of_finds {s : State} {i : Nat} {frame : Bytes} {I : Instance} {sub : Subscription} {h : Header}
    {chunk : Bytes} (hwf : s.RegistryWF) (hf : s.Finds i frame I sub h chunk) (ts : Word64) (rti : Byte) (p : Params)
    {a : AllocPort} {rest : List ObjId} (ha : a.Holds (I.objects ++ rest)) :
    (acceptMatched sub h chunk ts rti p a).port.Holds (((acceptMatched sub h chunk ts rti p a).subAfter sub
      h.sourceNodeId.toNat).objects ++ ((I.dropSub h.kind h.portId).objects ++ rest)) := by
  obtain ⟨hI, -, -, hsub⟩ := hf
  have hsubs := hwf _ (mem_ins_of_validIns hI)
  obtain ⟨-, -, hm, -⟩ := hsubs.findSub hsub
  have hobjs := (Instance.objects_of_findSub (validIns_eq_some.1 hI).2 ((Registry.wf_iff_all.1 hsubs).1 _) hsub).append_right
    rest
  rw [List.append_assoc] at hobjs
  exact acceptMatched_holds hm h chunk ts rti p (ha.perm hobjs)

/-- The found item and the rest of the queue. -/
theorem removeItem_perm {id : Nat} {l : List TxItem} {m : TxItem} (h : findItem id l = some m) :
    l.Perm (m :: removeItem id l) := by
  obtain ⟨hm, front, back, rfl, hfront⟩ := List.find?_eq_some_iff_append.1 h
  rw [(findItem_append_cons (of_decide_eq_true hm) fun e he => by simpa using hfront e he).2]
  exact List.perm_middle

theorem TxQueue.objects_of_valid {Q : TxQueue} (h : Q.valid = true) : Q.objects = Q.items.map fun m => m.obj :=
  if_pos h

/-- The objects of a transfer's items are those granted to its frames. -/
theorem map_obj_itemsOf (priority : BitVec 3) (transferId deadline : Word64) (sp : Specifier) (seq : Nat)
    (l : List (Bytes × ObjId)) : (itemsOf priority transferId deadline sp seq l).map (fun m => m.obj) = l.map Prod.snd := by
  induction l generalizing seq with
  | nil => rfl
  | cons e l ih => exact congrArg (e.2 :: ·) (ih (seq + 1))

/-- Settles O60, by cases on what a step can do. -/
theorem stepKeepsLedgerExact : Obligations.StepKeepsLedgerExact := by
  intro s t hwf hs hstep
  have hmap : ∀ {i I}, s.validIns i = some I → ∀ k, Map.wf (I.subs.get k) = true :=
    fun h => (Registry.wf_iff_all.1 (hwf _ (mem_ins_of_validIns h))).1
  cases step_effect hstep with
  | keeps hi hq ha => exact ledgerInv_of_port hi hq (fun _ h => ha ▸ h) hs
  | initialises _ old h hi hq ha => exact ledgerInv_of_ins h hi hq (fun _ hold => ha ▸ hold.release) hs
  | renames _ I n h hi hq ha => exact ledgerInv_of_ins (validIns_eq_some.1 h).1 hi hq (fun _ hold => ha ▸ hold) hs
  | subscribes _ I k p e m _ h _ hf hi hq ha =>
    obtain ⟨hI, hv⟩ := validIns_eq_some.1 h
    refine ledgerInv_of_ins hI hi hq (fun rest hold => ha ▸ hold.perm (.append_right rest ?_)) hs
    have hobjs := Instance.objects_putSub (p := p) hv (hmap h k) (.fresh p e m)
    rw [Instance.dropSub_of_none hf] at hobjs
    exact hobjs.symm
  | replaces _ I k p e m old _ h _ hf hi hq ha =>
    obtain ⟨hI, hv⟩ := validIns_eq_some.1 h
    refine ledgerInv_of_ins hI hi hq (fun rest hold => ?_) hs
    have hold' := hold.perm ((Instance.objects_of_findSub hv (hmap h k) hf).append_right rest)
    rw [List.append_assoc] at hold'
    exact ha ▸ hold'.freeSet.perm ((Instance.objects_putSub hv (hmap h k) (.fresh p e m)).symm.append_right rest)
  | unsubscribes _ I k p old h hf hi hq ha =>
    obtain ⟨hI, hv⟩ := validIns_eq_some.1 h
    refine ledgerInv_of_ins hI hi hq (fun rest hold => ?_) hs
    have hold' := hold.perm ((Instance.objects_of_findSub hv (hmap h k) hf).append_right rest)
    rw [List.append_assoc] at hold'
    exact ha ▸ hold'.freeSet
  | accepts i ts _ rti I sub hd chunk hf hnone hi hq ha =>
    obtain ⟨hI, hv⟩ := validIns_eq_some.1 hf.1
    refine ledgerInv_of_ins hI (hi.trans (set_self hI).symm) hq (fun rest hold => ?_) hs
    have hacc := acceptMatched_holds_of_finds hwf hf ts rti s.params hold
    rw [Accepted.subAfter_of_none hnone, ← List.append_assoc, ← ha] at hacc
    exact hacc.perm ((Instance.objects_of_findSub hv (hmap hf.1 _) hf.2.2.2).symm.append_right rest)
  | acceptsInto _ ts _ rti I sub hd chunk y hf hy hi hq ha =>
    obtain ⟨hI, hv⟩ := validIns_eq_some.1 hf.1
    refine ledgerInv_of_ins hI hi hq (fun rest hold => ?_) hs
    have hacc := acceptMatched_holds_of_finds hwf hf ts rti s.params hold
    rw [Accepted.subAfter_of_some hy, ← List.append_assoc, ← ha] at hacc
    exact hacc.perm ((Instance.objects_putSub hv (hmap hf.1 _) _).symm.append_right rest)
  | opensQueue _ _ _ old _ _ h hi hq ha => exact ledgerInv_of_txq h hq hi (fun _ hold => ha ▸ hold.release) hs
  | pushDenied _ _ hf hi hq ha => exact ledgerInv_of_port hi hq (fun _ h => ha ▸ h.allocFrames_denied hf) hs
  | pushes _ Q f payload deadline sp objs _ h _ _ _ hf hi hq ha =>
    obtain ⟨hQ, hv⟩ := validTxq_eq_some.1 h
    refine ledgerInv_of_txq hQ hq hi (fun rest hold => ha ▸ (hold.allocFrames_granted hf).perm ?_) hs
    have hlen : objs.length ≤ (framesOf f payload (Q.mtuBytes - 24)).length := by
      rw [(allocFrames_eq_some hf).1, List.length_map, List.length_range]
    have hobjs := (insertItems_perm (itemsOf f.priority f.transferId deadline sp Q.nextSeq
      ((framesOf f payload (Q.mtuBytes - 24)).zip objs)) Q.items).map fun m => m.obj
    rw [List.map_append, map_obj_itemsOf, List.map_snd_zip hlen] at hobjs
    rw [TxQueue.objects_of_valid hv, TxQueue.objects_of_valid (Q := Q.commit _) hv, ← List.append_assoc]
    exact hobjs.symm.append_right rest
  | pops _ id Q m h hf hi hq ha =>
    obtain ⟨hQ, hv⟩ := validTxq_eq_some.1 h
    have hobjs := (removeItem_perm hf).map fun m => m.obj
    rw [← TxQueue.objects_of_valid hv, List.map_cons, ← List.singleton_append, ← TxQueue_withoutItem_items,
      ← TxQueue.objects_of_valid (Q := Q.withoutItem id) hv] at hobjs
    refine ledgerInv_of_txq hQ hq hi (fun rest hold => ?_) hs
    have hold' := hold.perm (hobjs.append_right rest)
    rw [List.append_assoc] at hold'
    exact ha ▸ hold'.release

end Sys2Proof.Machine
end

section
/-! SUPPORT. The queue invariants (R34, R35), kept by every step. The idea: a committed transfer takes the ids from
`next_seq` on, so a new item lies in no transfer of an old one: as many ids as frame indices from it, an old item would
have index 0. -/

namespace Sys2Proof.Machine

open Sys2Proof

/-! ### The items of one transfer -/

/-- An item of a transfer of `n` frames whose ids begin at `seq`. -/
structure TxItem.PartOf (f : FrameFields) (mtuBytes seq n : Nat) (m : TxItem) (j : Nat) : Prop where
  lt : j < n
  id : m.id = seq + j
  priority : m.priority = f.priority
  transferId : m.transferId = f.transferId
  index : (frameIndexOf m.frame).toNat = j + 1
  link : m.nextInTransfer = if j + 1 = n then none else some (seq + j + 1)
  inv : m.Inv mtuBytes

/-- What the header of a frame says of its place, and how long the frame is (R193, R197). -/
theorem frameAt_fields (f : FrameFields) (S : Bytes) {mtuBytes n k : Nat} (hm : 24 < mtuBytes) (h1 : 1 ≤ k) (hk : k ≤ n)
    (hn : n ≤ 2 ^ 31 - 1) (hS : n = frameCount S.length (mtuBytes - 24)) :
    24 < (frameAt f S (mtuBytes - 24) n k).length ∧ (frameAt f S (mtuBytes - 24) n k).length ≤ mtuBytes
      ∧ (frameAt f S (mtuBytes - 24) n k).getD 1 0#8 = f.priority.setWidth 8
      ∧ le64At (frameAt f S (mtuBytes - 24) n k) 8 = f.transferId
      ∧ (frameIndexOf (frameAt f S (mtuBytes - 24) n k)).toNat = k
      ∧ (eotOf (frameAt f S (mtuBytes - 24) n k) = true ↔ k = n) := by
  have hstart := frameCount_start (L := S.length) (Nat.sub_pos_of_lt hm) h1 (hS ▸ hk)
  have hlen : (frameAt f S (mtuBytes - 24) n k).length = 24 + min (mtuBytes - 24) (S.length - (k - 1) * (mtuBytes - 24)) := by
    rw [frameAt, List.length_append, headerBytes_length, chunkAt_length]
  obtain ⟨-, hpriority, -, -, -, htransfer, hindex, -, -, -⟩ := headerFields f.priority f.source f.destination
    f.dataSpecifier f.transferId (BitVec.ofNat 31 k) (decide (k = n)) (chunkAt S (mtuBytes - 24) k)
  refine ⟨by omega, by omega, hpriority, htransfer, ?_, ?_⟩
  · rw [frameIndexOf, frameAt, hindex, indexWord_setWidth, toNat_frameIndex hk hn]
  · rw [eotOf, frameAt, hindex, indexWord_getLsbD_31, decide_eq_true_iff]

/-- The items of a granted push, each by its place. -/
theorem itemsOf_partOf {f : FrameFields} {payload : Bytes} {mtuBytes : Nat} (hm : 24 < mtuBytes)
    (hn : frameCount (payload.length + 4) (mtuBytes - 24) ≤ 2 ^ 31 - 1) (deadline : Word64) (sp : Specifier) (seq : Nat)
    (a : AllocPort) : ∀ m ∈ itemsOf f.priority f.transferId deadline sp seq ((framesOf f payload (mtuBytes - 24)).zip
        (a.nextObjs (frameCount (payload.length + 4) (mtuBytes - 24)))),
      ∃ j, m.PartOf f mtuBytes seq (frameCount (payload.length + 4) (mtuBytes - 24)) j := by
  intro m hmem
  rw [itemsOf_framesOf] at hmem
  obtain ⟨j, hj, rfl⟩ := List.mem_map.1 hmem
  have hj := List.mem_range.1 hj
  obtain ⟨hmin, hmax, hpriority, htransfer, hindex, heot⟩ := frameAt_fields f (streamOf payload) hm (Nat.le_add_left 1 j) hj hn
    (by rw [streamOf_length])
  refine ⟨j, hj, rfl, rfl, rfl, hindex, rfl, hmin, hmax, hpriority, htransfer, by simp only [hindex]; omega, ?_⟩
  rw [heot]
  split_ifs with hlast <;> simp [hlast]

theorem map_id_itemsOf (priority : BitVec 3) (transferId deadline : Word64) (sp : Specifier) (seq : Nat)
    (l : List (Bytes × ObjId)) :
    (itemsOf priority transferId deadline sp seq l).map (fun m => m.id) = (List.range l.length).map (seq + ·) := by
  rw [itemsOf_eq, List.map_map]
  rfl

section
variable {f : FrameFields} {mtuBytes seq n i j : Nat} {a b : TxItem}

theorem TxItem.PartOf.seq_le (ha : a.PartOf f mtuBytes seq n i) : seq ≤ a.id := ha.id ▸ Nat.le_add_right ..

/-- Two frames of one transfer lie as far apart as their ids. -/
theorem TxItem.PartOf.sameTransfer (ha : a.PartOf f mtuBytes seq n i) (hb : b.PartOf f mtuBytes seq n j) :
    sameTransfer a b := by
  have := ha.id
  have := ha.index
  have := hb.id
  have := hb.index
  simp only [Machine.sameTransfer]
  omega

/-- A new item lies in no transfer of an older one. -/
theorem TxItem.PartOf.not_sameTransfer (ha : a.PartOf f mtuBytes seq n i) (hid : b.id < seq)
    (hindex : 1 ≤ (frameIndexOf b.frame).toNat) : ¬Machine.sameTransfer a b := by
  have := ha.id
  have := ha.index
  simp only [Machine.sameTransfer]
  omega

/-- Items of one transfer are ordered by their frame index. -/
theorem TxItem.PartOf.index_lt (ha : a.PartOf f mtuBytes seq n i) (hb : b.PartOf f mtuBytes seq n j)
    (hbefore : a.before b = true) : (frameIndexOf a.frame).toNat < (frameIndexOf b.frame).toNat := by
  rw [before_iff, ha.priority, hb.priority, ha.transferId, hb.transferId] at hbefore
  have := ha.id
  have := ha.index
  have := hb.id
  have := hb.index
  omega

end

/-! ### The clause on transfers, as one on any two items -/

/-- Items of one transfer share their sort keys and stand in ascending frame index. -/
abbrev TxItem.InTurn (a b : TxItem) : Prop :=
  sameTransfer a b → a.priority = b.priority ∧ a.transferId = b.transferId
    ∧ (frameIndexOf a.frame).toNat < (frameIndexOf b.frame).toNat

/-- On a sorted list, a condition on each item and those after it is one on any two items in their order. -/
theorem pairwise_iff_of_sorted {R : TxItem → TxItem → Prop} {l : List TxItem}
    (hl : l.Pairwise (fun a b => a.before b = true)) :
    l.Pairwise R ↔ ∀ a ∈ l, ∀ b ∈ l, a.before b = true → R a b := by
  have hasymm : ∀ {x y : TxItem}, x.before y = true → ¬y.before x = true :=
    fun hxy hyx => not_before_self _ (before_trans hxy hyx)
  refine ⟨fun h a ha b hb hab => ?_, fun h => hl.imp_of_mem fun ha hb hab => h _ ha _ hb hab⟩
  have hforth := List.Pairwise.imp (S := fun x y => x.before y = true → R x y) (fun hr _ => hr) h
  have hback : l.Pairwise fun x y => y.before x = true → R y x := hl.imp fun hxy hyx => absurd hyx (hasymm hxy)
  exact hforth.forall_of_forall_of_flip (fun x _ hx => absurd hx (not_before_self x)) hback ha hb hab

/-! ### The operations of a queue -/

theorem TxQueue.inv_empty (capacity mtuBytes : Nat) : TxQueue.Inv ⟨true, capacity, mtuBytes, 0, 0, []⟩ := by
  simp [TxQueue.Inv]

/-- A queue keeps its invariant when a transfer is committed. -/
theorem TxQueue.Inv.commit {Q : TxQueue} (h : Q.Inv) {f : FrameFields} {items : List TxItem}
    (hcap : Q.size + items.length ≤ Q.capacity)
    (hids : items.map (fun m => m.id) = (List.range items.length).map (Q.nextSeq + ·))
    (hnew : ∀ m ∈ items, ∃ j, m.PartOf f Q.mtuBytes Q.nextSeq items.length j) : (Q.commit items).Inv := by
  obtain ⟨hsize, -, hsorted, hnodup, hitems, hturn, hlink, hnext⟩ := h
  have hold : ∀ m ∈ Q.items, m.id < Q.nextSeq := fun m hm => (hitems m hm).1
  have hindex : ∀ m ∈ Q.items, 1 ≤ (frameIndexOf m.frame).toNat := fun m hm => (hitems m hm).2.2.2.2.2.1
  have hnodup' : ((items ++ Q.items).map fun m => m.id).Nodup := by
    rw [List.map_append, List.nodup_append]
    refine ⟨hids ▸ List.nodup_range.map fun _ _ => Nat.add_left_cancel, hnodup, fun x hx y hy => ?_⟩
    obtain ⟨m, hm, rfl⟩ := List.mem_map.1 hx
    obtain ⟨m', hm', rfl⟩ := List.mem_map.1 hy
    obtain ⟨j, hj⟩ := hnew m hm
    exact ((hold m' hm').trans_le hj.seq_le).ne'
  have hsorted' := insertItems_sorted hsorted hnodup'
  refine ⟨?_, hcap, hsorted', ((insertItems_perm items Q.items).map _).nodup_iff.2 hnodup', fun m hm => ?_, ?_,
    fun m hm j hj => ?_, fun m hm m' hm' hmm' => ?_⟩
  · rw [TxQueue_commit_size, TxQueue_commit_items, insertItems_length, hsize, Nat.add_comm]
  · rcases mem_insertItems.1 hm with hm | hm
    · obtain ⟨j, hj⟩ := hnew m hm
      exact ⟨hj.id ▸ Nat.add_lt_add_left hj.lt _, hj.inv⟩
    · exact ⟨Nat.lt_add_right _ (hold m hm), (hitems m hm).2⟩
  · refine (pairwise_iff_of_sorted hsorted').2 fun a ha b hb hab hsame => ?_
    rcases mem_insertItems.1 ha with ha | ha <;> rcases mem_insertItems.1 hb with hb | hb
    · obtain ⟨i, hi⟩ := hnew a ha
      obtain ⟨j, hj⟩ := hnew b hb
      exact ⟨hi.priority.trans hj.priority.symm, hi.transferId.trans hj.transferId.symm, hi.index_lt hj hab⟩
    · obtain ⟨i, hi⟩ := hnew a ha
      exact absurd hsame (hi.not_sameTransfer (hold b hb) (hindex b hb))
    · obtain ⟨j, hj⟩ := hnew b hb
      exact absurd hsame.symm (hj.not_sameTransfer (hold a ha) (hindex a ha))
    · exact (pairwise_iff_of_sorted hsorted).1 hturn a ha b hb hab hsame
  · rcases mem_insertItems.1 hm with hm | hm
    · obtain ⟨i, hi⟩ := hnew m hm
      have hlt := hi.lt
      have hid := hi.id
      rw [hi.link] at hj
      split_ifs at hj with hlast
      · cases hj
      · cases hj
        rw [TxQueue_commit_nextSeq]
        omega
    · obtain ⟨hj, hlt⟩ := hlink m hm j hj
      exact ⟨hj, Nat.lt_add_right _ hlt⟩
  · rcases mem_insertItems.1 hm with hm | hm <;> rcases mem_insertItems.1 hm' with hm' | hm'
    · obtain ⟨i, hi⟩ := hnew m hm
      obtain ⟨j, hj⟩ := hnew m' hm'
      exact hi.sameTransfer hj
    · obtain ⟨i, hi⟩ := hnew m hm
      have hlt := hold m' hm'
      rw [hi.link] at hmm'
      split_ifs at hmm' with hlast
      have := Option.some.inj hmm'
      omega
    · obtain ⟨j, hj⟩ := hnew m' hm'
      have hlt := (hlink m hm _ hmm').2
      exact absurd hlt hj.seq_le.not_gt
    · exact hnext m hm m' hm' hmm'

/-- A queue keeps its invariant when an item of it is removed. -/
theorem TxQueue.Inv.withoutItem {Q : TxQueue} (h : Q.Inv) {id : Nat} {m : TxItem} (hm : findItem id Q.items = some m) :
    (Q.withoutItem id).Inv := by
  obtain ⟨hsize, hcap, hsorted, hnodup, hitems, hturn, hlink, hnext⟩ := h
  have hsub := removeItem_sublist id Q.items
  refine ⟨?_, (Nat.sub_le ..).trans hcap, hsorted.sublist hsub, hnodup.sublist (hsub.map _),
    fun m hm => hitems m (hsub.subset hm), hturn.sublist hsub, fun m hm => hlink m (hsub.subset hm),
    fun m hm m' hm' => hnext m (hsub.subset hm) m' (hsub.subset hm')⟩
  rw [TxQueue_withoutItem_size, TxQueue_withoutItem_items, removeItem_length hm, hsize]

/-- Settles O59, by cases on what a step can do: only `TX_INIT`, a granted `TX_PUSH` and `TX_POP` write a queue. -/
theorem stepKeepsQueuesInvariant : Obligations.StepKeepsQueuesInvariant := by
  intro s t hs hstep
  have hsame : t.txq = s.txq → t.QueuesInv := fun hq Q hQ => hs Q (hq ▸ hQ)
  cases step_effect hstep with
  | keeps _ hq => exact hsame hq
  | initialises _ _ _ _ hq => exact hsame hq
  | renames _ _ _ _ _ hq => exact hsame hq
  | subscribes _ _ _ _ _ _ _ _ _ _ _ hq => exact hsame hq
  | replaces _ _ _ _ _ _ _ _ _ _ _ _ hq => exact hsame hq
  | unsubscribes _ _ _ _ _ _ _ _ hq => exact hsame hq
  | accepts _ _ _ _ _ _ _ _ _ _ _ hq => exact hsame hq
  | acceptsInto _ _ _ _ _ _ _ _ _ _ _ _ hq => exact hsame hq
  | opensQueue _ capacity mtuBytes _ _ _ _ _ hq =>
    exact forall_mem_set (P := fun Q => Q.valid = true → Q.Inv) hs (fun _ => TxQueue.inv_empty capacity mtuBytes) hq
  | pushDenied _ _ _ _ hq => exact hsame hq
  | pushes q Q f payload deadline sp objs a h hm hn hc hf _ hq =>
    have hQ := hs Q (mem_txq_of_validTxq h) (validTxq_eq_some.1 h).2
    obtain ⟨hobjs, -, -⟩ := allocFrames_eq_some hf
    rw [framesOf_length] at hobjs
    subst hobjs
    have hlen : (itemsOf f.priority f.transferId deadline sp Q.nextSeq ((framesOf f payload (Q.mtuBytes - 24)).zip
        (s.allocPort.nextObjs (frameCount (payload.length + 4) (Q.mtuBytes - 24))))).length
          = frameCount (payload.length + 4) (Q.mtuBytes - 24) := by
      simp [framesOf_length]
    refine forall_mem_set (P := fun Q => Q.valid = true → Q.Inv) hs (fun _ => hQ.commit (f := f) ?_ ?_ ?_) hq
    · rwa [hlen]
    · rw [map_id_itemsOf, itemsOf_length]
    · rw [hlen]
      exact itemsOf_partOf hm hn deadline sp Q.nextSeq s.allocPort
  | pops _ id Q _ h hf _ hq =>
    have hQ := hs Q (mem_txq_of_validTxq h) (validTxq_eq_some.1 h).2
    exact forall_mem_set (P := fun Q => Q.valid = true → Q.Inv) hs (fun _ => hQ.withoutItem hf) hq

end Sys2Proof.Machine
end

section
/-! SUPPORT. The round trip (R280). The idea: after `k` of the frames, the sender's session has received the first `k * C`
bytes of the stream (`Session.Received`) and awaits frame `k + 1`; the three ways a transfer can begin each reduce to
a session that has received nothing; the last frame brings the residue. -/

namespace Sys2Proof.Machine

open Sys2Proof

/-! ### A session in the middle of a transfer -/

/-- The session has taken the first `k` frames of the transfer, their chunks together `R`. -/
structure Session.Received (extent : Nat) (f : FrameFields) (rti : Byte) (ts₀ : Word64) (R : Bytes) (k : Nat)
    (x : Session) : Prop where
  holds : x.HoldsStream extent
  total : x.totalPayloadSize = R.length
  stored : x.stored = R.take extent
  crc : x.crc = crc32cAdd 0xFFFFFFFF#32 R
  transferId : x.transferId = f.transferId
  transport : x.redundantTransportIndex = rti
  index : x.lastFrameIndex.toNat = k
  begins : k = 0 → R = []
  timestamp : 0 < k → x.transferTimestamp = ts₀

section
variable {extent k : Nat} {f : FrameFields} {rti : Byte} {ts₀ : Word64} {R : Bytes} {x : Session}

/-- Before the first frame the session is clear. -/
theorem Session.Received.cleared (h : x.Received extent f rti ts₀ R 0) : x.cleared = x := by
  have hR := h.begins rfl
  have htotal : x.totalPayloadSize = 0 := by rw [h.total, hR]; rfl
  have hsize : x.payloadSize = 0 := by rw [h.holds.size, htotal, Nat.min_zero]
  have hpayload : x.payload = none := by
    cases hb : x.payload with
    | none => rfl
    | some b => exact absurd (h.holds.buffer b hb).1 (by omega)
  have hcrc : x.crc = 0xFFFFFFFF#32 := by rw [h.crc, hR]; rfl
  have hindex : x.lastFrameIndex = 0#31 := BitVec.eq_of_toNat_eq h.index
  cases x
  cases htotal
  cases hsize
  cases hpayload
  cases hcrc
  cases hindex
  rfl

theorem Session.Received.inv (h : x.Received extent f rti ts₀ R k) : x.Inv extent := by
  refine Session.inv_iff.2 ⟨h.holds, fun h0 => ?_⟩
  have hk : k = 0 := by rw [← h.index, h0]; rfl
  subst hk
  rw [← h.cleared]
  exact ⟨rfl, rfl, rfl, rfl⟩

/-- A clear session that expects the transfer has received nothing of it. -/
theorem Session.received_nil (hclear : x.cleared = x) (htid : x.transferId = f.transferId)
    (hrti : x.redundantTransportIndex = rti) : x.Received extent f rti ts₀ [] 0 := by
  rw [← hclear]
  exact ⟨⟨by simp, by simp, fun _ => rfl⟩, rfl, by simp [Session.stored], rfl, htid, hrti, rfl, fun _ => rfl, nofun⟩

/-! ### A frame of the transfer -/

/-- How much is stored once the chunk is taken. -/
theorem Session.HoldsStream.length_stored_append (hx : x.HoldsStream extent) (chunk : Bytes) :
    ((x.stored ++ chunk).take extent).length = min extent (x.totalPayloadSize + chunk.length) := by
  have hsize := hx.size
  rw [List.length_take, List.length_append, hx.stored_length]
  omega

theorem Session.HoldsStream.took {w : Nat} {chunk : Bytes} (hx : x.HoldsStream extent)
    (hfit : x.totalPayloadSize + chunk.length < 2 ^ w) (h : Header) (ts : Word64) (o : ObjId) :
    (x.took w extent h chunk ts o).HoldsStream extent := by
  have hsize := hx.size
  have hlen := hx.length_stored_append chunk
  refine ⟨?_, fun b hb => ?_, fun hnone => ?_⟩
  · change _ = min extent (addCount w extent x.totalPayloadSize chunk.length)
    rw [addCount_exact hfit]
    rfl
  · change x.bufferAfter extent chunk o = some b at hb
    change 0 < min extent (x.totalPayloadSize + chunk.length) ∧ b.data.length = min extent _ ∧ b.capacity = extent
    cases hp : x.payload with
    | some b₀ =>
      obtain ⟨hpos, -, hcap⟩ := hx.buffer b₀ hp
      rw [x.bufferAfter_of_some hp] at hb
      cases hb
      exact ⟨by omega, hlen, hcap⟩
    | none =>
      rw [x.bufferAfter_of_none hp] at hb
      split_ifs at hb with hn
      cases hb
      exact ⟨by omega, hlen, rfl⟩
  · change x.bufferAfter extent chunk o = none at hnone
    change min extent (x.totalPayloadSize + chunk.length) = 0
    cases hp : x.payload with
    | some b₀ =>
      rw [x.bufferAfter_of_some hp] at hnone
      cases hnone
    | none =>
      have hempty := hx.empty hp
      rw [x.bufferAfter_of_none hp] at hnone
      split_ifs at hnone with hn
      omega

/-- Cutting what came before does not change the cut of the whole. -/
theorem take_take_append {α : Type} (n : Nat) (a b : List α) : (a.take n ++ b).take n = (a ++ b).take n := by
  rw [List.take_append, List.take_append, List.take_take, min_self, List.length_take]
  rcases le_total n a.length with h | h
  · simp [min_eq_left h, Nat.sub_eq_zero_of_le h]
  · rw [min_eq_right h]

theorem Session.Received.took {w : Nat} {h : Header} {chunk : Bytes} {ts : Word64}
    (hx : x.Received extent f rti ts₀ R k) (hfit : (R ++ chunk).length < 2 ^ w) (hindex : h.frameIndex.toNat = k + 1)
    (hts : (if h.sot then ts else x.transferTimestamp) = ts₀) (o : ObjId) :
    Session.Received extent f rti ts₀ (R ++ chunk) (k + 1)
      { x.took w extent h chunk ts o with lastFrameIndex := h.frameIndex } := by
  have hcount : x.totalPayloadSize + chunk.length = (R ++ chunk).length := by rw [hx.total, List.length_append]
  have hholds := hx.holds.took (hcount ▸ hfit) h ts o
  refine ⟨⟨hholds.size, hholds.buffer, hholds.empty⟩, ?_, ?_, ?_, hx.transferId, hx.transport, hindex, nofun, fun _ => hts⟩
  · rw [← hcount]
    exact addCount_exact (hcount ▸ hfit) extent
  · refine (hx.holds.took_stored w h chunk ts o).trans ?_
    rw [hx.stored, take_take_append]
  · rw [crc32cAdd_append, ← hx.crc]
    rfl

end

/-! ### A machine in the middle of a transfer -/

/-- The receive context is subscribed to the transfer and addressed by it. -/
structure State.Listens (s : State) (i : Nat) (f : FrameFields) (I : Instance) (sub : Subscription) : Prop where
  valid : s.validIns i = some I
  subscribed : I.findSub (kindOfSpecifier f.dataSpecifier) (portOfSpecifier f.dataSpecifier) = some sub
  addressed : kindOfSpecifier f.dataSpecifier = .message ∨ (I.nodeId ≠ 0xFFFF#16 ∧ f.destination = I.nodeId)

/-- The receive context listens, and its session of the sender has received `R` in `k` frames; a buffer it will need is
granted. -/
structure State.Awaits (s : State) (i : Nat) (f : FrameFields) (rti : Byte) (ts₀ : Word64) (R : Bytes) (k : Nat)
    (I : Instance) (sub : Subscription) (x : Session) : Prop where
  listens : s.Listens i f I sub
  session : Map.find f.source.toNat sub.sessions = some x
  received : x.Received sub.extent f rti ts₀ R k
  granted : x.payload = none → s.allocPort.answer 0 = true

section
variable {s : State} {i : Nat} {f : FrameFields} {rti : Byte} {I : Instance} {sub : Subscription}

theorem State.Listens.finds (h : s.Listens i f I sub) (hsrc : f.source ≠ 0xFFFF#16) {n k : Nat} (h1 : 1 ≤ k) (hk : k ≤ n)
    (hn : n ≤ 2 ^ 31 - 1) (S : Bytes) (C : Nat) :
    s.Finds i (frameAt f S C n k) I sub (f.header n k) (chunkAt S C k) :=
  ⟨h.valid, decodeFrame_frameAt _ f S C h1 hk hn fun e => absurd e hsrc, addressed_iff.2 h.addressed, h.subscribed⟩

/-- With the sender's session written, the receive context listens as before. -/
theorem State.Awaits.of_written {ts₀ : Word64} {R : Bytes} {k : Nat} {y : Session} {h : Header}
    (hs : s.Listens i f I sub) (hkind : h.kind = kindOfSpecifier f.dataSpecifier)
    (hport : h.portId = portOfSpecifier f.dataSpecifier) (hsource : h.sourceNodeId = f.source)
    (hy : y.Received sub.extent f rti ts₀ R k) {a : AllocPort} (ha : y.payload = none → a.answer 0 = true)
    (r : Option Response) :
    { s.withSession i I sub h y with allocPort := a, response := r : State }.Awaits i f rti ts₀ R k
      (I.putSub h.kind h.portId (sub.putSession h.sourceNodeId.toNat y))
      (sub.putSession h.sourceNodeId.toNat y) y := by
  refine ⟨⟨validIns_eq_some.2 ⟨?_, (validIns_eq_some.1 hs.valid).2⟩, ?_, hs.addressed⟩, ?_, hy, ha⟩
  · exact List.getElem?_set_self (lt_of_validIns hs.valid)
  · rw [← hkind, ← hport]
    exact Instance.findSub_putSub_same ..
  · rw [hsource]
    exact Map.find_insert_same ..

end

section
variable {s : State} {i : Nat} {f : FrameFields} {rti : Byte} {ts₀ ts : Word64} {S : Bytes} {C n k : Nat} {I : Instance}
  {sub : Subscription} {x : Session}

/-- The bytes received so far and the next chunk. -/
theorem take_append_chunkAt (S : Bytes) (C k : Nat) : S.take (k * C) ++ chunkAt S C (k + 1) = S.take ((k + 1) * C) := by
  rw [Nat.succ_mul, List.take_add]
  rfl

theorem State.Awaits.findsSession (h : s.Awaits i f rti ts₀ (S.take (k * C)) k I sub x) (hsrc : f.source ≠ 0xFFFF#16)
    (hk : k < n) (hn : n ≤ 2 ^ 31 - 1) :
    s.FindsSession i (frameAt f S C n (k + 1)) I sub (f.header n (k + 1)) (chunkAt S C (k + 1)) x :=
  ⟨h.listens.finds hsrc (Nat.le_add_left 1 k) hk hn S C, hsrc, h.session⟩

/-- The next frame is the one the session expects. -/
theorem State.Awaits.expects (h : s.Awaits i f rti ts₀ (S.take (k * C)) k I sub x) (hsrc : f.source ≠ 0xFFFF#16)
    (hk : k < n) (hn : n ≤ 2 ^ 31 - 1) (ts : Word64) : x.Expects sub (f.header n (k + 1)) ts rti := by
  have hindex : (f.header n (k + 1)).frameIndex.toNat = k + 1 := toNat_frameIndex hk hn
  refine ⟨h.received.transferId.symm, h.received.transport.symm, hindex.trans (by rw [h.received.index]), fun hsot _ => ?_⟩
  have hfirst := (sot_iff_of_decodeFrame (h.findsSession hsrc hk hn).1.2.1).1 hsot
  have hk0 : k = 0 := by
    rw [hfirst] at hindex
    exact (Nat.succ.inj hindex).symm
  subst hk0
  exact h.received.cleared

/-- The first frame brings the timestamp, a later one keeps it. -/
theorem State.Awaits.timestamp (h : s.Awaits i f rti ts₀ (S.take (k * C)) k I sub x) (hsrc : f.source ≠ 0xFFFF#16)
    (hk : k < n) (hn : n ≤ 2 ^ 31 - 1) (hts : k = 0 → ts = ts₀) :
    (if (f.header n (k + 1)).sot then ts else x.transferTimestamp) = ts₀ := by
  have hindex : (f.header n (k + 1)).frameIndex.toNat = k + 1 := toNat_frameIndex hk hn
  have hd := (h.findsSession hsrc hk hn).1.2.1
  rcases Nat.eq_zero_or_pos k with hk0 | hpos
  · rw [sot_of_decodeFrame hd (by rw [hindex, hk0]), if_pos rfl, hts hk0]
  · rw [sot_eq_false_of_decodeFrame hd (by omega), h.received.timestamp hpos]
    rfl

/-- A frame that is not the last is taken with the silent `NoMatch`, and the session awaits the next one. -/
theorem State.Awaits.more (h : s.Awaits i f rti ts₀ (S.take (k * C)) k I sub x) (hsrc : f.source ≠ 0xFFFF#16)
    (hk : k + 1 < n) (hn : n ≤ 2 ^ 31 - 1) (hfit : S.length < 2 ^ s.params.sizeW) (hts : k = 0 → ts = ts₀) :
    ∃ t I' sub' y, exec (.rxAccept i ts (frameAt f S C n (k + 1)) rti) s = .next t ∧ t.status = some .noMatch
      ∧ t.Awaits i f rti ts₀ (S.take ((k + 1) * C)) (k + 1) I' sub' y ∧ t.params = s.params
      ∧ sub'.extent = sub.extent := by
  have hk' : k < n := by omega
  have hexec := exec_rxAccept_more (h.findsSession hsrc hk' hn) h.received.holds (h.expects hsrc hk' hn ts)
    (decide_eq_false hk.ne) fun hp _ => h.granted hp
  have hlen : (S.take (k * C) ++ chunkAt S C (k + 1)).length < 2 ^ s.params.sizeW := by
    rw [take_append_chunkAt]
    exact (List.length_take_le' ..).trans_lt hfit
  have hy := h.received.took (h := f.header n (k + 1)) hlen (toNat_frameIndex hk' hn) (h.timestamp hsrc hk' hn hts)
    s.allocPort.nextObj
  rw [take_append_chunkAt] at hy
  have hgranted : x.bufferAfter sub.extent (chunkAt S C (k + 1)) s.allocPort.nextObj = none →
      (x.portAfter sub.extent (chunkAt S C (k + 1)) s.allocPort).answer 0 = true := fun hnone => by
    cases hp : x.payload with
    | some b =>
      rw [x.bufferAfter_of_some hp] at hnone
      cases hnone
    | none =>
      rw [x.bufferAfter_of_none hp] at hnone
      split_ifs at hnone with hn0
      rw [x.portAfter_of_none hp, if_neg hn0]
      exact h.granted hp
  have hawaits := State.Awaits.of_written (h := f.header n (k + 1)) h.listens rfl rfl rfl hy hgranted
    (some ⟨.noMatch, .handle ⟨(f.header n (k + 1)).kind, (f.header n (k + 1)).portId⟩⟩)
  exact ⟨_, _, _, _, hexec, rfl, hawaits, rfl, rfl⟩

/-- The transfer is delivered: what R280 says of the response after its last frame. -/
structure Delivered (f : FrameFields) (extent : Nat) (payload : Bytes) (ts₀ : Word64) (t : State) (tr : Transfer) :
    Prop where
  response : t.response = some ⟨.transferComplete,
    .transfer tr ⟨kindOfSpecifier f.dataSpecifier, portOfSpecifier f.dataSpecifier⟩⟩
  metadata : tr.metadata = ⟨f.priority, kindOfSpecifier f.dataSpecifier, portOfSpecifier f.dataSpecifier, f.source,
    f.transferId⟩
  timestamp : tr.timestamp = ts₀
  size : tr.payloadSize = min extent payload.length
  bytes : tr.bytes = payload.take extent

/-- The last frame completes the stream: the residue is good and the payload is what stands before the trailer. -/
theorem State.Awaits.last {payload : Bytes} (h : s.Awaits i f rti ts₀ ((streamOf payload).take (k * C)) k I sub x)
    (hsrc : f.source ≠ 0xFFFF#16) (hC : 0 < C) (hk : k + 1 = frameCount (payload.length + 4) C)
    (hn : frameCount (payload.length + 4) C ≤ 2 ^ 31 - 1) (hfit : payload.length + 4 < 2 ^ s.params.sizeW)
    (hts : k = 0 → ts = ts₀) :
    ∃ t tr, exec (.rxAccept i ts (frameAt f (streamOf payload) C (frameCount (payload.length + 4) C) (k + 1)) rti) s
      = .next t ∧ Delivered f sub.extent payload ts₀ t tr := by
  rw [← hk] at hn ⊢
  have hall : (streamOf payload).take (k * C) ++ chunkAt (streamOf payload) C (k + 1) = streamOf payload := by
    rw [take_append_chunkAt, List.take_of_length_le]
    rw [streamOf_length, hk]
    exact frameCount_end hC
  have hlen : x.totalPayloadSize + (chunkAt (streamOf payload) C (k + 1)).length = payload.length + 4 := by
    rw [h.received.total, ← List.length_append, hall, streamOf_length]
  have hcrc : crc32cAdd x.crc (chunkAt (streamOf payload) C (k + 1)) = 0xB798B438#32 := by
    rw [h.received.crc, ← crc32cAdd_append, hall]
    exact crc32cAdd_trailer payload
  obtain ⟨tr, hmeta, htime, hsize, -, -, hbytes, hexec⟩ := acceptDeliversAGoodTransfer i ts _ rti s I sub _ _ x
    (h.findsSession hsrc (Nat.lt_succ_self k) hn) h.received.inv (h.expects hsrc (Nat.lt_succ_self k) hn ts)
    (decide_eq_true rfl) (by omega) hcrc fun hp _ => h.granted hp
  rw [hlen, Nat.add_sub_cancel] at hsize
  have hsize := hsize hfit
  refine ⟨_, tr, hexec, rfl, ?_, ?_, hsize, ?_⟩
  · rw [hmeta]
    simp only [Metadata.mk.injEq, Header.ofOperands, and_self, and_true]
    rw [BitVec.setWidth_setWidth_of_le _ (by decide), BitVec.setWidth_eq]
  · rw [htime, h.timestamp hsrc (Nat.lt_succ_self k) hn hts]
  · calc tr.bytes = ((x.stored ++ chunkAt (streamOf payload) C (k + 1)).take sub.extent).take tr.payloadSize := by
          rw [hbytes, List.take_take, min_eq_left (hsize.trans_le (min_le_left _ _))]
      _ = ((streamOf payload).take sub.extent).take (min sub.extent payload.length) := by
          rw [h.received.stored, take_take_append, hall, hsize]
      _ = payload.take sub.extent := by
          rw [List.take_take, min_eq_left (min_le_left _ _), streamOf,
            List.take_append_of_le_length (min_le_right _ _), List.take_eq_take_iff]
          omega

end

/-! ### A transfer, frame by frame -/

section
variable {i : Nat} {f : FrameFields} {rti : Byte} {ts₀ : Word64} {payload : Bytes} {C : Nat}

theorem acceptAll_cons {ts : Word64} {frame : Bytes} {s t : State} (h : exec (.rxAccept i ts frame rti) s = .next t)
    (more : List (Word64 × Bytes)) : acceptAll i rti ((ts, frame) :: more) s = acceptAll i rti more t := by
  rw [acceptAll, h]

theorem drop_framesOf (f : FrameFields) (payload : Bytes) (C : Nat) {k : Nat} (hk : k < frameCount (payload.length + 4) C) :
    (framesOf f payload C).drop k
      = frameAt f (streamOf payload) C (frameCount (payload.length + 4) C) (k + 1) :: (framesOf f payload C).drop (k + 1) := by
  obtain ⟨hlt, hget⟩ := List.getElem?_eq_some_iff.1 (framesOf_getElem? f payload C hk)
  rw [List.drop_eq_getElem_cons hlt, hget]

/-- The frames that are left, accepted in order: the last one delivers, every other one is silent. -/
theorem acceptAll_of_awaits (hsrc : f.source ≠ 0xFFFF#16) (hC : 0 < C) (hn : frameCount (payload.length + 4) C ≤ 2 ^ 31 - 1)
    (tss : List Word64) {s : State} {k : Nat} {I : Instance} {sub : Subscription} {x : Session}
    (h : s.Awaits i f rti ts₀ ((streamOf payload).take (k * C)) k I sub x)
    (hlen : k + tss.length = frameCount (payload.length + 4) C) (hpos : 0 < tss.length)
    (hfit : payload.length + 4 < 2 ^ s.params.sizeW) (hts : k = 0 → tss.headD 0#64 = ts₀) :
    (∃ t tr, acceptAll i rti (tss.zip ((framesOf f payload C).drop k)) s = some t
      ∧ Delivered f sub.extent payload ts₀ t tr)
    ∧ ∀ m u, m + 1 < tss.length →
        acceptAll i rti ((tss.zip ((framesOf f payload C).drop k)).take (m + 1)) s = some u → u.status = some .noMatch := by
  induction tss generalizing s k I sub x with
  | nil => cases hpos
  | cons ts tss ih =>
    rw [List.length_cons] at hlen
    rw [drop_framesOf f payload C (by omega), List.zip_cons_cons]
    rcases Nat.eq_zero_or_pos tss.length with hlast | hmore
    · obtain rfl := List.eq_nil_of_length_eq_zero hlast
      obtain ⟨t, tr, hexec, hdelivered⟩ := h.last (ts := ts) hsrc hC (by simpa using hlen) hn hfit hts
      exact ⟨⟨t, tr, acceptAll_cons hexec _, hdelivered⟩, fun m u hm => by simp at hm⟩
    · obtain ⟨t, I', sub', y, hexec, hstatus, hawaits, hparams, hextent⟩ :=
        h.more (ts := ts) (n := frameCount (payload.length + 4) C) hsrc (by omega) hn (by rwa [streamOf_length]) hts
      obtain ⟨⟨t', tr, hrun, hdelivered⟩, hsilent⟩ := ih hawaits (by omega) hmore (by rwa [hparams]) nofun
      refine ⟨⟨t', tr, (acceptAll_cons hexec _).trans hrun, hextent ▸ hdelivered⟩, fun m u hm hu => ?_⟩
      rw [List.take_succ_cons, acceptAll_cons hexec] at hu
      cases m with
      | zero =>
        cases hu
        exact hstatus
      | succ m => exact hsilent m u (by simpa using hm) hu

/-- However the transfer begins, its first frame is as on a machine whose session has received nothing of it. -/
theorem exists_awaits {s : State} {I : Instance} {sub : Subscription} (h : s.Listens i f I sub)
    (hsrc : f.source ≠ 0xFFFF#16) (h0 : s.allocPort.answer 0 = true)
    (hsession : (Map.find f.source.toNat sub.sessions = none ∧ s.allocPort.answer 1 = true)
      ∨ ∃ x, Map.find f.source.toNat sub.sessions = some x ∧ x.redundantTransportIndex = rti
          ∧ ((x.transferId = f.transferId ∧ x.lastFrameIndex = 0#31 ∧ x.Inv sub.extent)
            ∨ 1 < (x.transferId - f.transferId).toNat)) (ts : Word64) (S : Bytes) {n : Nat} (h1 : 1 ≤ n)
    (hn : n ≤ 2 ^ 31 - 1) :
    ∃ s' I' sub' x, s'.Awaits i f rti ts [] 0 I' sub' x ∧ s'.params = s.params ∧ sub'.extent = sub.extent
      ∧ exec (.rxAccept i ts (frameAt f S C n 1) rti) s = exec (.rxAccept i ts (frameAt f S C n 1) rti) s' := by
  have hfinds := h.finds hsrc le_rfl h1 hn S C
  rcases hsession with ⟨hx, h1⟩ | ⟨x, hx, hrti, ⟨htid, hidle, hinv⟩ | hjump⟩
  · have hawaits := State.Awaits.of_written (h := f.header n 1) (y := .fresh ts f.transferId rti s.allocPort.nextObj) h
      rfl rfl rfl (Session.received_nil (ts₀ := ts) rfl rfl rfl)
      (fun _ => (answer_alloc s.allocPort s.params.rxSessionSize 0).trans h1) s.response
    exact ⟨_, _, _, _, hawaits, rfl, rfl, (acceptCreatesASession i ts _ rti s I sub _ _ hfinds hsrc hx rfl).2 h0⟩
  · obtain ⟨htotal, hsize, hpayload, hcrc⟩ := (Session.inv_iff.1 hinv).2 hidle
    have hclear : x.cleared = x := by
      cases x
      cases htotal
      cases hsize
      cases hpayload
      cases hcrc
      cases hidle
      rfl
    exact ⟨s, I, sub, x, ⟨h, hx, Session.received_nil hclear htid hrti, fun _ => h0⟩, rfl, rfl, rfl⟩
  · have hfree : (x.freePayload s.allocPort).answer 0 = true := by
      cases hp : x.payload with
      | some b => rwa [Session.freePayload, hp]
      | none => rwa [Session.freePayload, hp]
    have hawaits := State.Awaits.of_written (h := f.header n 1) (y := x.retargeted f.transferId rti) h rfl rfl rfl
      (Session.received_nil (ts₀ := ts) rfl rfl rfl) (fun _ => hfree) s.response
    exact ⟨_, _, _, _, hawaits, rfl, rfl,
      acceptRestartsToAFirstFrame i ts _ rti s I sub _ _ x ⟨hfinds, hsrc, hx⟩ rfl (.inr ⟨hrti.symm, hjump⟩)⟩

end

/-- Settles O54, by induction on the frames. -/
theorem transferRoundTrip : Obligations.TransferRoundTrip := by
  intro i rti s I sub f payload C ts hI hsrc hC hn hfit hsub haddr h0 hsession hlen
  have hpos : 0 < frameCount (payload.length + 4) C := frameCount_pos hC (Nat.succ_pos _)
  rw [framesOf_length] at hlen ⊢
  cases ts with
  | nil =>
    rw [← hlen] at hpos
    cases hpos
  | cons ts₀ tss =>
    obtain ⟨s', I', sub', x, hawaits, hparams, hextent, hexec⟩ := exists_awaits (C := C) ⟨hI, hsub, haddr⟩ hsrc h0 hsession
      ts₀ (streamOf payload) hpos hn
    have hsame : ∀ more, acceptAll i rti ((ts₀, frameAt f (streamOf payload) C _ 1) :: more) s
        = acceptAll i rti ((ts₀, frameAt f (streamOf payload) C _ 1) :: more) s' := fun more => by
      rw [acceptAll, acceptAll, hexec]
    obtain ⟨⟨t, tr, hrun, hdelivered⟩, hsilent⟩ := acceptAll_of_awaits (s := s') (k := 0) (payload := payload) (C := C)
      hsrc hC hn (ts₀ :: tss) (by rwa [Nat.zero_mul, List.take_zero]) (by rw [hlen, Nat.zero_add]) (Nat.succ_pos _)
      (by rwa [hparams]) fun _ => rfl
    rw [drop_framesOf f payload C hpos, List.zip_cons_cons, ← hsame] at hrun
    have hframes := drop_framesOf f payload C hpos
    rw [List.drop_zero] at hframes
    rw [hframes, List.zip_cons_cons]
    refine ⟨t, tr, hrun, hdelivered.response, hdelivered.metadata, hdelivered.timestamp, ?_, ?_, fun m u hm hu => ?_⟩
    · rw [hdelivered.size, hextent]
    · rw [hdelivered.bytes, hextent]
    · refine hsilent m u (by rwa [hlen]) ?_
      rw [List.drop_zero, hframes, List.zip_cons_cons, List.take_succ_cons, ← hsame]
      rwa [List.take_succ_cons] at hu

end Sys2Proof.Machine
end
